-- ==== Sys2Proof/Word.lean ====
section
/-! DEFINITION. The words of the block's ports: command words, symbols, cumulative values (00_scope.md R8 to R10). -/

namespace Sys2Proof

/-- A command word or an entry word, `CMD_BITS = 64` bits, bit 0 the least significant (R9, R10). -/
abbrev Word := BitVec 64

/-- A symbol operand, `SYM_BITS = 9` bits (R8). -/
abbrev Sym := BitVec 9

/-- A cumulative value, `TOTAL_BITS = 40` bits (R9). -/
abbrev Cum := BitVec 40

/-- The end-of-stream sentinel `EOS = 256` (R8). -/
abbrev eos : Sym := 256#9

/-- `MODEL_CAP = 257`: the alphabet `[0, 255]` and the sentinel (R8). -/
abbrev modelCap : Nat := 257

end Sys2Proof
end

