-- ==== Sys2Proof/Config.lean ====
section
/-! DEFINITION. What an instance of the block fixes (the open parameters NUMBITS and PEND_BITS, 00_scope.md R6, R9)
and the free values: what the spec leaves unspecified. -/

namespace Sys2Proof

/-- The elaboration-time parameters of an instance. They stand in State as a constant no step writes, so that a statement
about every state is a statement about every instance (log 1). The two proofs say the spec's admitted ranges:
`1 ≤ NUMBITS ≤ 32` (R6) and `PEND_BITS` at least 6 or unbounded, `none` (R9). -/
structure Params where
  numbits : Nat
  pendBits : Option Nat
  numbits_range : 1 ≤ numbits ∧ numbits ≤ 32
  pendBits_range : (pendBits.all fun b => decide (6 ≤ b)) = true
deriving DecidableEq, Repr

/-- NUMBITS = 17, the reference instantiation of R6, with the default PEND_BITS = 32 of R9 (log 1). -/
def Params.reference : Params := ⟨17, some 32, by decide, by decide⟩

/-- Free values (93_implementation_defined.md U20 to U23, treatment "any value"): `freeValue draw slot` is what register number
`slot` holds after draw number `draw`. It has no body, so nothing can be proved of its value (log 3). -/
opaque Config.freeValue (draw slot : Nat) : Nat

end Sys2Proof
end

