-- ==== Sys2Proof/Machine/State.lean ====
section
/-! DEFINITION. The state of the block and of its ports (10_state.md), the outcomes' reasons, and the state after reset
(70_reset_and_hazards.md R220). -/

namespace Sys2Proof.Machine

/-- One entry of the model table: the symbol and its half-open cumulative interval `[cl, ch)` (10_state.md R22). -/
structure TabEntry where
  sym : Sym
  cl : Cum
  ch : Cum
deriving DecidableEq, Repr

/-- The model unit MDL (10_state.md R22 to R24). `tab` has 257 entries (an invariant, Safety.lean); only the first `n` are
meaningful. -/
structure Mdl where
  tab : List TabEntry
  n : BitVec 9
  total : Cum
  valid : Bool
deriving DecidableEq, Repr

/-- The lifecycle register of the encoder (10_state.md R29). -/
inductive EncPhase where
  | idle | active | done | fault
deriving DecidableEq, Repr

/-- The numbers of the encoder's phases (10_state.md R29). -/
def EncPhase.code : EncPhase → BitVec 2
  | .idle => 0#2
  | .active => 1#2
  | .done => 2#2
  | .fault => 3#2

/-- The encoder unit ENC (10_state.md R26 to R29). `low` and `high` are NUMBITS bits wide and `pending` PEND_BITS bits (or
unbounded): the widths are parameters, so the registers are naturals whose range is an invariant (log 9). -/
structure Enc where
  low : Nat
  high : Nat
  pending : Nat
  phase : EncPhase
deriving DecidableEq, Repr

/-- The lifecycle register of the decoder; value 2 is never taken (10_state.md R32). -/
inductive DecPhase where
  | idle | active | fault
deriving DecidableEq, Repr

/-- The numbers of the decoder's phases (10_state.md R32). -/
def DecPhase.code : DecPhase → BitVec 2
  | .idle => 0#2
  | .active => 1#2
  | .fault => 3#2

/-- The decoder unit DEC (10_state.md R30 to R32); it has no pending counter (R31). -/
structure Dec where
  low : Nat
  high : Nat
  code : Nat
  phase : DecPhase
deriving DecidableEq, Repr

/-- An event of the BitSink port (10_state.md R33). -/
inductive SnkEvent where
  | opened | w0 | w1 | closed
deriving DecidableEq, Repr

/-- An event of the symbol output port (10_state.md R35). -/
inductive SymEvent where
  | opened
  | sym (s : Sym)
deriving DecidableEq, Repr

/-- The status of a response (30_encoding.md R93); the codes 9 to 15 are never produced. -/
inductive Status where
  | ok | invalidModel | unknownSymbol | precisionExhausted | noModel | badPhase | valueOutOfRange | pendingOverflow
  | illegalCommand
deriving DecidableEq, Repr

/-- A response: status and two data words (30_encoding.md R92). -/
structure Response where
  status : Status
  d0 : Cum
  d1 : Cum
deriving DecidableEq, Repr

/-- A move of the host that the block has not taken yet (70_reset_and_hazards.md R236, R221; log 4). -/
inductive HostMove where
  /-- A word presented on the command port. -/
  | word (w : Word)
  /-- `LoadSource(bits)`: replace SRC. -/
  | loadSource (bits : List Bool)
  /-- `rst`, asserted while no command runs or while a BUILD waits for its entry words. -/
  | reset
  /-- `rst`, asserted during the command presented next, once `k` of its port transfers have been accepted (log 7). -/
  | resetDuring (k : Nat)
deriving DecidableEq, Repr

/-- The block, its ports, and the host's moves not yet taken. -/
structure State where
  /-- The constants of the instance (10_state.md R28); no step writes them (log 1). -/
  params : Params
  mdl : Mdl
  enc : Enc
  dec : Dec
  /-- The BitSink trace SNK, oldest event first (10_state.md R33). -/
  snk : List SnkEvent
  /-- The BitSource SRC: bits not yet read, first to read first (10_state.md R34). -/
  src : List Bool
  /-- The symbol trace SYMOUT, oldest event first (10_state.md R35). -/
  symout : List SymEvent
  /-- The response RSP of the last command; none after reset (10_state.md R36; log 17). -/
  rsp : Option Response
  /-- The host's moves, next first (log 4). -/
  port : List HostMove
  /-- The model's own: how many times free values have been drawn (log 3). -/
  free : Nat
deriving DecidableEq, Repr

/-- Why the machine stops. No command's error is here: an error is a status in a response (60_exceptions.md R180). -/
inductive Fault where
  /-- Raised by SYMAT and DECODE when no entry of a valid model holds the value. Safe: by 20_memory.md R51 and
  42_decoder_ops.md R167 no run reaches a state where it happens (log 11). -/
  | noEntryForValue
  /-- Raised by step when the host loads SRC while a BUILD waits for its entry words: LoadSource is a move "while the block is
  idle" (70_reset_and_hazards.md R236) and the spec gives this run no meaning. Safe (log 6). -/
  | sourceLoadedWhileBusy
deriving DecidableEq, Repr

/-- Why the model gives an instruction no meaning. -/
inductive Refusal where
  /-- Raised by an arm of exec whose instruction has no meaning yet; no arm does. Safe. -/
  | notModelled (mnemonic : String)
deriving DecidableEq, Repr

/-- An instance right after a power-on reset (70_reset_and_hazards.md R220): no model, both phases IDLE, traces empty, no response
pending, no host move. The registers R220 leaves unspecified are 0 (log 2); SRC is the host's, `[]` as nothing is said (log 16). -/
def State.powerOn (p : Params) : State where
  params := p
  mdl := { tab := List.replicate modelCap { sym := 0#9, cl := 0#40, ch := 0#40 }, n := 0#9, total := 0#40, valid := false }
  enc := { low := 0, high := 0, pending := 0, phase := .idle }
  dec := { low := 0, high := 0, code := 0, phase := .idle }
  snk := []
  src := []
  symout := []
  rsp := none
  port := []
  free := 0

/-- The machine right after reset: the reference instance (00_scope.md R6; log 1). -/
def State.reset : State := State.powerOn Params.reference

end Sys2Proof.Machine
end

