-- ==== Sys2Proof/Machine/Flags.lean ====
section
/-! DEFINITION. The block has no condition flags (10_state.md R37). Here are the constants of an instance (00_scope.md R7) and the
conditions its commands test: TopEq, Straddle, the precision guard, the pending limit. -/

namespace Sys2Proof.Machine

/-- `MASK = 2^n - 1` (00_scope.md R7). -/
def mask (n : Nat) : Nat := 2 ^ n - 1

/-- `HALF = 2^(n-1)` (00_scope.md R7). -/
def half (n : Nat) : Nat := 2 ^ (n - 1)

/-- `QUARTER = floor(2^n / 4)` (00_scope.md R7). -/
def quarter (n : Nat) : Nat := 2 ^ n / 4

/-- `MAX_TOTAL = QUARTER`, the largest total the coders accept (00_scope.md R7). -/
def maxTotal (n : Nat) : Nat := quarter n

/-- `v[hi:lo]` (00_scope.md R10). -/
def bitField (v hi lo : Nat) : Nat := (v >>> lo) % 2 ^ (hi - lo + 1)

/-- `low[n-1]`, the top bit, as a bit of the stream (00_scope.md R10). -/
def topBit (n v : Nat) : Bool := bitField v (n - 1) (n - 1) == 1

/-- `TopEq`: `((low XOR high) AND HALF) = 0` (41_encoder_ops.md R133). -/
def topEq (n low high : Nat) : Bool := (low ^^^ high) &&& half n == 0

/-- `Straddle`: `n ≥ 2`, `low[n-1:n-2] = 0b01`, `high[n-1:n-2] = 0b10` (41_encoder_ops.md R134). -/
def straddle (n low high : Nat) : Bool :=
  decide (2 ≤ n) && bitField low (n - 1) (n - 2) == 0b01 && bitField high (n - 1) (n - 2) == 0b10

/-- The precision guard: `total > MAX_TOTAL` (41_encoder_ops.md R137). -/
def tooLarge (n : Nat) (total : Cum) : Bool := decide (maxTotal n < total.toNat)

/-- The pending counter holds `2^PEND_BITS - 1`; never when it is unbounded (41_encoder_ops.md R139). -/
def pendingFull (pendBits : Option Nat) (pending : Nat) : Bool :=
  match pendBits with
  | none => false
  | some b => pending == 2 ^ b - 1

end Sys2Proof.Machine
end

