-- ==== Sys2Proof/Machine/Interval.lean ====
section
/-! DEFINITION. The interval arithmetic the encoder and the decoder share (41_encoder_ops.md R132 to R136). Naturals stand for
the mathematical integers of 00_scope.md R11 (log 9). -/

namespace Sys2Proof.Machine

/-- `Narrow` (41_encoder_ops.md R132): both ends from the old `low` and the same range, the product formed first and exactly,
then one floor division. -/
def narrow (low high cl ch total : Nat) : Nat × Nat :=
  let range := high - low + 1
  (low + cl * range / total, low + ch * range / total - 1)

/-- `Shl` (41_encoder_ops.md R135). -/
def shl (n v : Nat) : Nat := (v <<< 1) &&& mask n

/-- `Fold` (41_encoder_ops.md R136). -/
def fold (n v : Nat) : Nat := (v <<< 1) &&& (mask n >>> 1)

/-- `E3_HIGH_FILL`: the bit an E3 fold puts in bit 0 of `high` (41_encoder_ops.md R136; log 10). -/
def e3HighFill : Nat := 1

/-- `low` after one E1/E2 iteration (41_encoder_ops.md R138). -/
def shiftLow (n low : Nat) : Nat := shl n low

/-- `high` after one E1/E2 iteration: the vacated low bit is set to 1 (41_encoder_ops.md R138). -/
def shiftHigh (n high : Nat) : Nat := shl n high ||| 1

/-- `low` after one E3 iteration (41_encoder_ops.md R136, R139). -/
def foldLow (n low : Nat) : Nat := fold n low

/-- `high` after one E3 iteration (41_encoder_ops.md R136, R139). -/
def foldHigh (n high : Nat) : Nat := fold n high ||| half n ||| e3HighFill

end Sys2Proof.Machine
end

