-- ==== Sys2Proof/Syntax.lean ====
section
/-! DEFINITION. The commands of the block as syntax: one constructor of Instr per row of the opcode table
(30_encoding.md R87). -/

namespace Sys2Proof

/-- The nine operations, named by their mnemonics (30_encoding.md R87). -/
inductive Op where
  | build | total | rangeof | symat | einit | encode | efinish | dinit | decode
deriving DecidableEq, Repr

/-- An entry word of BUILD, format E (30_encoding.md R86): the reserved field `X[63:41]`, the symbol `X[40:32]`, the
frequency `X[31:0]`. A reserved bit set does not make the command illegal, it makes the model invalid, so it is kept. -/
structure EntryWord where
  resv : BitVec 23
  sym : Sym
  freq : BitVec 32
deriving DecidableEq, Repr

/-- `f_i = sint(X_i[31:0])`: the only signed quantity of the block (30_encoding.md R86, R90). -/
def EntryWord.freqInt (e : EntryWord) : Int := e.freq.toInt

/-- A command with its operands (30_encoding.md R82 to R87). BUILD carries the entry words that follow its header; the
header's `count` is their number. -/
inductive Instr where
  | build (entries : List EntryWord)
  | total
  | rangeof (sym : Sym)
  | symat (value : Cum)
  | einit
  | encode (sym : Sym)
  | efinish
  | dinit
  | decode
deriving DecidableEq, Repr

/-- The operation of a command. -/
def Instr.op : Instr → Op
  | .build _ => .build
  | .total => .total
  | .rangeof _ => .rangeof
  | .symat _ => .symat
  | .einit => .einit
  | .encode _ => .encode
  | .efinish => .efinish
  | .dinit => .dinit
  | .decode => .decode

end Sys2Proof
end

