-- ==== Sys2Proof/Machine/Operands.lean ====
section
/-! DEFINITION. The operands of the commands: look-ups in the model table by symbol and by value (20_memory.md R51), the tests and
the table of BUILD's entry words (40_model_ops.md R112), the bits of the streams. -/

namespace Sys2Proof.Machine

/-- The meaningful entries of the table, `0 .. MDL.n - 1` (10_state.md R22). -/
def Mdl.entries (m : Mdl) : List TabEntry := m.tab.take m.n.toNat

/-- `range_of(s)`; none when the symbol is absent (20_memory.md R51). -/
def Mdl.rangeOf (m : Mdl) (s : Sym) : Option (Cum × Cum) :=
  match m.entries.find? fun e => e.sym == s with
  | none => none
  | some e => some (e.cl, e.ch)

/-- `symbol_at(v)`: the symbol of the entry with `cl ≤ v < ch` (20_memory.md R51). -/
def Mdl.symbolAt (m : Mdl) (v : Nat) : Option Sym :=
  match m.entries.find? fun e => decide (e.cl.toNat ≤ v) && decide (v < e.ch.toNat) with
  | none => none
  | some e => some e.sym

/-- An entry word that makes the model invalid by itself: a reserved bit set, a symbol above 256, a frequency at most 0
(40_model_ops.md R112). -/
def badEntry (e : EntryWord) : Bool :=
  e.resv != 0#23 || decide (256 < e.sym.toNat) || decide (e.freqInt ≤ 0)

/-- Some symbol occurs twice (40_model_ops.md R112). -/
def hasDuplicate : List Sym → Bool
  | [] => false
  | s :: rest => rest.contains s || hasDuplicate rest

/-- The `bad` of BUILD's pseudocode: all tests over all entries (40_model_ops.md R112). -/
def badMapping (es : List EntryWord) : Bool :=
  es.isEmpty || es.any badEntry || hasDuplicate (es.map (·.sym))

/-- `acc` after the given entries (40_model_ops.md R112). -/
def accumulate : Nat → List EntryWord → Nat
  | acc, [] => acc
  | acc, e :: rest => accumulate (acc + e.freqInt.toNat) rest

/-- The table entries BUILD writes, in the order presented, from `acc` on (40_model_ops.md R111, R112). -/
def tabulate : Nat → List EntryWord → List TabEntry
  | _, [] => []
  | acc, e :: rest =>
    { sym := e.sym, cl := BitVec.ofNat 40 acc, ch := BitVec.ofNat 40 (acc + e.freqInt.toNat) }
      :: tabulate (acc + e.freqInt.toNat) rest

/-- The BitSink event of a written bit (20_memory.md R54). -/
def SnkEvent.ofBit (b : Bool) : SnkEvent :=
  match b with
  | false => .w0
  | true => .w1

/-- What `SrcRead()` returns and what it leaves of the source: 0 for ever once it is exhausted (20_memory.md R56). -/
def srcRead : List Bool → Bool × List Bool
  | [] => (false, [])
  | b :: rest => (b, rest)

/-- A 9-bit symbol as a response's data word (30_encoding.md R92). -/
def symData (s : Sym) : Cum := BitVec.ofNat 40 s.toNat

end Sys2Proof.Machine
end

