-- ==== Sys2Proof/Machine/Ops.lean ====
section
/-! DEFINITION. The operations the commands share: port transfers (20_memory.md R54 to R58), responding (00_scope.md R13), raising
an error (60_exceptions.md R188), unspecified contents and hardware reset (70_reset_and_hazards.md R220, R221). -/

namespace Sys2Proof.Machine

/-- One transfer at a stream port, in the order of a command's pseudocode (20_memory.md R54 to R58, R64). -/
inductive Transfer where
  | snk (e : SnkEvent)
  | srcRead
  | sym (e : SymEvent)
deriving DecidableEq, Repr

/-- The effect of one transfer on the ports: append to a trace (20_memory.md R54, R55, R58), or remove one bit from the front of
SRC, which stays `[]` once empty (R56). -/
def State.transfer (s : State) (x : Transfer) : State :=
  match x with
  | .snk e => { s with snk := s.snk ++ [e] }
  | .srcRead => { s with src := (Machine.srcRead s.src).2 }
  | .sym e => { s with symout := s.symout ++ [e] }

/-- Transfers performed first to last. -/
def State.transfers (s : State) (xs : List Transfer) : State := xs.foldl State.transfer s

/-- What a command does, found out in full before its first effect, because every rule makes all its tests before its first
register write and its first port access (60_exceptions.md R189): the block with its registers written, the port transfers in
order, the response. -/
structure Plan where
  regs : State
  xfers : List Transfer
  rsp : Response

/-- A command run to completion: registers, transfers, response (00_scope.md R5, R13). -/
def Plan.completed (p : Plan) : State :=
  { p.regs.transfers p.xfers with rsp := some p.rsp }

/-- The outcome of a command that runs to completion. -/
def complete (o : Host.Outcome Plan Fault Refusal) : Host.Outcome State Fault Refusal :=
  match o with
  | .next p => .next p.completed
  | .fault r => .fault r
  | .refused r => .refused r

/-- `respond(OK, d0, d1)` with no register written and no transfer made (00_scope.md R13). -/
def answer (s : State) (d0 d1 : Cum) : Plan :=
  { regs := s, xfers := [], rsp := { status := .ok, d0 := d0, d1 := d1 } }

/-- The contents of the model table after "becomes unspecified": free values (40_model_ops.md R112; log 3). -/
def freeTable (draw : Nat) : List TabEntry :=
  (List.range modelCap).map fun i =>
    { sym := BitVec.ofNat 9 (Config.freeValue draw (10 + 3 * i)),
      cl := BitVec.ofNat 40 (Config.freeValue draw (11 + 3 * i)),
      ch := BitVec.ofNat 40 (Config.freeValue draw (12 + 3 * i)) }

/-- The model store with no model: `MDL.valid = 0`, everything else unspecified (40_model_ops.md R112, 70_reset_and_hazards.md R220;
log 3). -/
def noModelStore (draw : Nat) : Mdl :=
  { tab := freeTable draw, n := BitVec.ofNat 9 (Config.freeValue draw 0),
    total := BitVec.ofNat 40 (Config.freeValue draw 1), valid := false }

/-- `MDL.valid <- 0` with `MDL.n`, `MDL.total`, `MDL.tab` unspecified (40_model_ops.md R112). -/
def State.invalidateModel (s : State) : State :=
  { s with mdl := noModelStore s.free, free := s.free + 1 }

/-- An unspecified pending counter within its width (70_reset_and_hazards.md R220; log 3). -/
def freePending (pendBits : Option Nat) (draw slot : Nat) : Nat :=
  match pendBits with
  | none => Config.freeValue draw slot
  | some b => Config.freeValue draw slot % 2 ^ b

/-- Hardware reset (70_reset_and_hazards.md R220): no model, both phases IDLE, data registers and table unspecified, no response
pending; SNK, SYMOUT, SRC and the constants unchanged. -/
def State.hardReset (s : State) : State :=
  { s with
    mdl := noModelStore s.free
    enc := { low := Config.freeValue s.free 2 % 2 ^ s.params.numbits,
             high := Config.freeValue s.free 3 % 2 ^ s.params.numbits,
             pending := freePending s.params.pendBits s.free 4, phase := .idle }
    dec := { low := Config.freeValue s.free 5 % 2 ^ s.params.numbits,
             high := Config.freeValue s.free 6 % 2 ^ s.params.numbits,
             code := Config.freeValue s.free 7 % 2 ^ s.params.numbits, phase := .idle }
    rsp := none
    free := s.free + 1 }

/-- The outcome of a command abandoned by `rst` after `k` of its port transfers: those stay in the traces and in SRC, no further
one is made, there is no response, and the state becomes that of a reset (70_reset_and_hazards.md R221; log 7). -/
def abandon (k : Nat) (s : State) (o : Host.Outcome Plan Fault Refusal) : Host.Outcome State Fault Refusal :=
  match o with
  | .next p => .next (s.transfers (p.xfers.take k)).hardReset
  | .fault r => .fault r
  | .refused r => .refused r

/-- The state change of each error, row by row of the table of 60_exceptions.md R188: nothing but what the table lists. `op` is
the command that raises it, none for the command decoder. -/
def State.errorEffect (s : State) (op : Option Op) (st : Status) : State :=
  match op, st with
  | some .build, .invalidModel => s.invalidateModel
  | some .encode, .unknownSymbol => { s with enc := { s.enc with phase := .fault } }
  | some .encode, .precisionExhausted => { s with enc := { s.enc with phase := .fault } }
  | some .encode, .pendingOverflow => { s with enc := { s.enc with phase := .fault } }
  | some .decode, .precisionExhausted => { s with dec := { s.dec with phase := .fault } }
  | _, _ => s

/-- `raise X`: TAKING AN EXCEPTION. Nothing is saved and control goes nowhere (60_exceptions.md R193): apply the state change of
R188 and respond `(X, 0, 0)` (00_scope.md R13, 60_exceptions.md R180). The return from one is no operation of its own: a unit leaves
FAULT by its constructor or by reset (R194). -/
def raise (s : State) (op : Option Op) (st : Status) : Plan :=
  { regs := s.errorEffect op st, xfers := [], rsp := { status := st, d0 := 0#40, d1 := 0#40 } }

/-- `LoadSource(bits)`: at transaction level an assignment to SRC (70_reset_and_hazards.md R236). -/
def State.loadSource (s : State) (bits : List Bool) : State := { s with src := bits }

/-- The numbers of the status codes (30_encoding.md R93). -/
def Status.code : Status → BitVec 4
  | .ok => 0#4
  | .invalidModel => 1#4
  | .unknownSymbol => 2#4
  | .precisionExhausted => 3#4
  | .noModel => 4#4
  | .badPhase => 5#4
  | .valueOutOfRange => 6#4
  | .pendingOverflow => 7#4
  | .illegalCommand => 8#4

/-- The response as the 84-bit word of the response port: `RSP[83:80]` the status, `RSP[79:40]` d1, `RSP[39:0]` d0
(30_encoding.md R92, R96). -/
def Response.packed (r : Response) : BitVec 84 :=
  (r.status.code.setWidth 84 <<< 80) ||| (r.d1.setWidth 84 <<< 40) ||| r.d0.setWidth 84

end Sys2Proof.Machine
end

