-- ==== Sys2Proof/Machine/DecoderCmds.lean ====
section
/-! DEFINITION. The decoder commands DINIT, DECODE (42_decoder_ops.md). -/

namespace Sys2Proof.Machine

/-- The local working values of DECODE (42_decoder_ops.md R161), with what is left of SRC and the number of `SrcRead()` calls
made. -/
structure DecWork where
  low : Nat
  high : Nat
  code : Nat
  src : List Bool
  reads : Nat
deriving DecidableEq, Repr

/-- `repeat k times: code = Shl(code) OR SrcRead()` (42_decoder_ops.md R160, 20_memory.md R57). -/
def fillCode (n : Nat) : Nat → Nat → List Bool → Nat
  | 0, code, _ => code
  | k + 1, code, src => fillCode n k (shl n code ||| (srcRead src).1.toNat) (srcRead src).2

/-- One E1/E2 iteration (42_decoder_ops.md R164). -/
def decShift (n : Nat) (w : DecWork) : DecWork :=
  { low := shiftLow n w.low, high := shiftHigh n w.high,
    code := shl n w.code ||| (srcRead w.src).1.toNat, src := (srcRead w.src).2, reads := w.reads + 1 }

/-- Line 7 of DECODE, the E1/E2 loop (42_decoder_ops.md R161). NUMBITS iterations always suffice. -/
def decShiftLoop (n : Nat) : Nat → DecWork → DecWork
  | 0, w => w
  | k + 1, w => if topEq n w.low w.high then decShiftLoop n k (decShift n w) else w

/-- One E3 iteration: `code <- (code AND HALF) OR Fold(code) OR SrcRead()` (42_decoder_ops.md R165). -/
def decFold (n : Nat) (w : DecWork) : DecWork :=
  { low := foldLow n w.low, high := foldHigh n w.high,
    code := (w.code &&& half n) ||| fold n w.code ||| (srcRead w.src).1.toNat,
    src := (srcRead w.src).2, reads := w.reads + 1 }

/-- Line 8 of DECODE, the E3 loop (42_decoder_ops.md R161). NUMBITS iterations always suffice. -/
def decFoldLoop (n : Nat) : Nat → DecWork → DecWork
  | 0, w => w
  | k + 1, w => if straddle n w.low w.high then decFoldLoop n k (decFold n w) else w

/-- `value = floor(((code - low + 1) × total - 1) / range)` (42_decoder_ops.md R162). -/
def decodeValue (low high code total : Nat) : Nat :=
  ((code - low + 1) * total - 1) / (high - low + 1)

/-- Lines 6 to 8 of DECODE: narrow, then the two loops (42_decoder_ops.md R161). -/
def decodeWork (n : Nat) (d : Dec) (src : List Bool) (cl ch total : Cum) : DecWork :=
  let r := narrow d.low d.high cl.toNat ch.toNat total.toNat
  decFoldLoop n n (decShiftLoop n n { low := r.1, high := r.2, code := d.code, src := src, reads := 0 })

/-- DINIT (42_decoder_ops.md R160): NUMBITS reads, then the symbol port is opened; legal in every phase. -/
def planDinit (s : State) : Host.Outcome Plan Fault Refusal :=
  .next { regs := { s with dec := { low := 0, high := mask s.params.numbits,
                                    code := fillCode s.params.numbits s.params.numbits 0 s.src, phase := .active } },
          xfers := List.replicate s.params.numbits .srcRead ++ [.sym .opened],
          rsp := { status := .ok, d0 := 0#40, d1 := 0#40 } }

/-- DECODE (42_decoder_ops.md R161): the sentinel is answered with nothing written (R163); any other symbol is emitted first, then
one bit is read per loop iteration. -/
def planDecode (s : State) : Host.Outcome Plan Fault Refusal :=
  if s.dec.phase ≠ .active then .next (raise s (some .decode) .badPhase)
  else if s.mdl.valid = false then .next (raise s (some .decode) .noModel)
  else if tooLarge s.params.numbits s.mdl.total then .next (raise s (some .decode) .precisionExhausted)
  else
    match s.mdl.symbolAt (decodeValue s.dec.low s.dec.high s.dec.code s.mdl.total.toNat) with
    | none => .fault .noEntryForValue
    | some sym =>
      if sym = eos then .next (answer s (symData eos) 0#40)
      else
        match s.mdl.rangeOf sym with
        | none => .fault .noEntryForValue
        | some (cl, ch) =>
          let w := decodeWork s.params.numbits s.dec s.src cl ch s.mdl.total
          .next { regs := { s with dec := { s.dec with low := w.low, high := w.high, code := w.code } },
                  xfers := .sym (.sym sym) :: List.replicate w.reads .srcRead,
                  rsp := { status := .ok, d0 := symData sym, d1 := 0#40 } }

/-- The meaning of DINIT. -/
def execDinit (s : State) : Host.Outcome State Fault Refusal := complete (planDinit s)

/-- The meaning of DECODE. -/
def execDecode (s : State) : Host.Outcome State Fault Refusal := complete (planDecode s)

end Sys2Proof.Machine
end

