-- ==== Sys2Proof/Machine/EncoderCmds.lean ====
section
/-! DEFINITION. The encoder commands EINIT, ENCODE, EFINISH (41_encoder_ops.md). -/

namespace Sys2Proof.Machine

/-- The local working values of ENCODE (41_encoder_ops.md R131); `bits` first to last. -/
structure EncWork where
  low : Nat
  high : Nat
  pend : Nat
  bits : List Bool
deriving DecidableEq, Repr

/-- One E1/E2 iteration: the shared top bit, then the deferred complements; shift (41_encoder_ops.md R138). -/
def encShift (n : Nat) (w : EncWork) : EncWork :=
  { low := shiftLow n w.low, high := shiftHigh n w.high, pend := 0,
    bits := w.bits ++ topBit n w.low :: List.replicate w.pend (!topBit n w.low) }

/-- Line 6 of ENCODE, the E1/E2 loop (41_encoder_ops.md R131, R138). NUMBITS iterations always suffice: after them `low` is all
zeros and `high` all ones, so the first argument never ends the loop early. -/
def encShiftLoop (n : Nat) : Nat → EncWork → EncWork
  | 0, w => w
  | k + 1, w => if topEq n w.low w.high then encShiftLoop n k (encShift n w) else w

/-- One E3 iteration: count one more deferred bit; fold (41_encoder_ops.md R139). -/
def encFold (n : Nat) (w : EncWork) : EncWork :=
  { low := foldLow n w.low, high := foldHigh n w.high, pend := w.pend + 1, bits := w.bits }

/-- Line 7 of ENCODE, the E3 loop; none is PendingOverflow (41_encoder_ops.md R131, R139). NUMBITS iterations always suffice. -/
def encFoldLoop (n : Nat) (pendBits : Option Nat) : Nat → EncWork → Option EncWork
  | 0, w => some w
  | k + 1, w =>
    if straddle n w.low w.high then
      if pendingFull pendBits w.pend then none else encFoldLoop n pendBits k (encFold n w)
    else some w

/-- EINIT (41_encoder_ops.md R130); legal in every phase. -/
def planEinit (s : State) : Host.Outcome Plan Fault Refusal :=
  .next { regs := { s with enc := { low := 0, high := mask s.params.numbits, pending := 0, phase := .active } },
          xfers := [.snk .opened], rsp := { status := .ok, d0 := 0#40, d1 := 0#40 } }

/-- Lines 5 to 7 of ENCODE: narrow, then the two loops, each to its end (41_encoder_ops.md R131). -/
def encodeWork (p : Params) (e : Enc) (cl ch total : Cum) : Option EncWork :=
  let r := narrow e.low e.high cl.toNat ch.toNat total.toNat
  encFoldLoop p.numbits p.pendBits p.numbits
    (encShiftLoop p.numbits p.numbits { low := r.1, high := r.2, pend := e.pending, bits := [] })

/-- ENCODE (41_encoder_ops.md R131), its tests in the order of its lines 1 to 4 and 7. -/
def planEncode (sym : Sym) (s : State) : Host.Outcome Plan Fault Refusal :=
  if s.enc.phase ≠ .active then .next (raise s (some .encode) .badPhase)
  else if s.mdl.valid = false then .next (raise s (some .encode) .noModel)
  else
    match s.mdl.rangeOf sym with
    | none => .next (raise s (some .encode) .unknownSymbol)
    | some (cl, ch) =>
      if tooLarge s.params.numbits s.mdl.total then .next (raise s (some .encode) .precisionExhausted)
      else
        match encodeWork s.params s.enc cl ch s.mdl.total with
        | none => .next (raise s (some .encode) .pendingOverflow)
        | some w =>
          .next { regs := { s with enc := { s.enc with low := w.low, high := w.high, pending := w.pend } },
                  xfers := w.bits.map fun b => .snk (SnkEvent.ofBit b),
                  rsp := { status := .ok, d0 := 0#40, d1 := 0#40 } }

/-- EFINISH (41_encoder_ops.md R142): one bit 1, then close; the pending bits are neither drained nor cleared. -/
def planEfinish (s : State) : Host.Outcome Plan Fault Refusal :=
  if s.enc.phase ≠ .active then .next (raise s (some .efinish) .badPhase)
  else
    .next { regs := { s with enc := { s.enc with phase := .done } },
            xfers := [.snk (SnkEvent.ofBit true), .snk .closed],
            rsp := { status := .ok, d0 := 0#40, d1 := 0#40 } }

/-- The meaning of EINIT. -/
def execEinit (s : State) : Host.Outcome State Fault Refusal := complete (planEinit s)

/-- The meaning of ENCODE. -/
def execEncode (sym : Sym) (s : State) : Host.Outcome State Fault Refusal := complete (planEncode sym s)

/-- The meaning of EFINISH. -/
def execEfinish (s : State) : Host.Outcome State Fault Refusal := complete (planEfinish s)

end Sys2Proof.Machine
end

