-- ==== Sys2Proof/Machine/ModelCmds.lean ====
section
/-! DEFINITION. The model commands BUILD, TOTAL, RANGEOF, SYMAT (40_model_ops.md). Each has a plan, its rule's pseudocode, and its
meaning, the plan run to completion. -/

namespace Sys2Proof.Machine

/-- BUILD (40_model_ops.md R112): all tests over all entries first; then the entries in the order presented, the slots from `count`
on as they were (log 15). -/
def planBuild (es : List EntryWord) (s : State) : Host.Outcome Plan Fault Refusal :=
  if badMapping es then
    .next (raise s (some .build) .invalidModel)
  else
    .next (answer
      { s with mdl := { tab := tabulate 0 es ++ s.mdl.tab.drop es.length, n := BitVec.ofNat 9 es.length,
                        total := BitVec.ofNat 40 (accumulate 0 es), valid := true } }
      (BitVec.ofNat 40 (accumulate 0 es)) (BitVec.ofNat 40 es.length))

/-- TOTAL (40_model_ops.md R113). -/
def planTotal (s : State) : Host.Outcome Plan Fault Refusal :=
  if s.mdl.valid then .next (answer s s.mdl.total 0#40)
  else .next (raise s (some .total) .noModel)

/-- RANGEOF (40_model_ops.md R114). -/
def planRangeof (sym : Sym) (s : State) : Host.Outcome Plan Fault Refusal :=
  if s.mdl.valid then
    match s.mdl.rangeOf sym with
    | none => .next (raise s (some .rangeof) .unknownSymbol)
    | some (cl, ch) => .next (answer s cl ch)
  else .next (raise s (some .rangeof) .noModel)

/-- SYMAT (40_model_ops.md R115). -/
def planSymat (v : Cum) (s : State) : Host.Outcome Plan Fault Refusal :=
  if s.mdl.valid then
    if s.mdl.total ≤ v then .next (raise s (some .symat) .valueOutOfRange)
    else
      match s.mdl.symbolAt v.toNat with
      | none => .fault .noEntryForValue
      | some sym => .next (answer s (symData sym) 0#40)
  else .next (raise s (some .symat) .noModel)

/-- The meaning of BUILD. -/
def execBuild (es : List EntryWord) (s : State) : Host.Outcome State Fault Refusal := complete (planBuild es s)

/-- The meaning of TOTAL. -/
def execTotal (s : State) : Host.Outcome State Fault Refusal := complete (planTotal s)

/-- The meaning of RANGEOF. -/
def execRangeof (sym : Sym) (s : State) : Host.Outcome State Fault Refusal := complete (planRangeof sym s)

/-- The meaning of SYMAT. -/
def execSymat (v : Cum) (s : State) : Host.Outcome State Fault Refusal := complete (planSymat v s)

end Sys2Proof.Machine
end

