-- ==== Sys2Proof/Machine/Dispatch.lean ====
section
/-! DEFINITION. One arm per command: its meaning, called directly. -/

namespace Sys2Proof.Machine

/-- A command run to completion on the block (00_scope.md R5). -/
def exec (i : Instr) (s : State) : Host.Outcome State Fault Refusal :=
  match i with
  | .build entries => Sys2Proof.Machine.execBuild entries s
  | .total => Sys2Proof.Machine.execTotal s
  | .rangeof sym => Sys2Proof.Machine.execRangeof sym s
  | .symat value => Sys2Proof.Machine.execSymat value s
  | .einit => Sys2Proof.Machine.execEinit s
  | .encode sym => Sys2Proof.Machine.execEncode sym s
  | .efinish => Sys2Proof.Machine.execEfinish s
  | .dinit => Sys2Proof.Machine.execDinit s
  | .decode => Sys2Proof.Machine.execDecode s

end Sys2Proof.Machine
end

