-- ==== Sys2Proof/WellFormed.lean ====
section
/-! DEFINITION. Which terms of Instr have an encoding. -/

namespace Sys2Proof

/-- The largest `count` of a BUILD header, `W[9:0]` (30_encoding.md R85). -/
def maxCount : Nat := 1023

/-- BUILD has at most 1023 entry words (R85). Every other operand fits its field by its type: all 512 symbols and all `2^40`
values are legal encodings (R83, R84), and an entry word may hold anything (R86). -/
def Instr.wf : Instr → Bool
  | .build entries => decide (entries.length ≤ maxCount)
  | .total => true
  | .rangeof _ => true
  | .symat _ => true
  | .einit => true
  | .encode _ => true
  | .efinish => true
  | .dinit => true
  | .decode => true

end Sys2Proof
end

