-- ==== Sys2Proof/Decode.lean ====
section
/-! DEFINITION. From command words to commands and back (30_encoding.md R80 to R90), total on any words, rejecting by name. -/

namespace Sys2Proof

/-- The formats of a command word (30_encoding.md R82 to R85). -/
inductive Format where
  | z | s | v | b
deriving DecidableEq, Repr

/-- The format column of the opcode map (30_encoding.md R87). -/
def Op.format : Op → Format
  | .build => .b
  | .total => .z
  | .rangeof => .s
  | .symat => .v
  | .einit => .z
  | .encode => .s
  | .efinish => .z
  | .dinit => .z
  | .decode => .z

/-- The `op` column of the opcode map, `W[63:56]` (30_encoding.md R81, R87). -/
def Op.code : Op → BitVec 8
  | .build => 0x01#8
  | .total => 0x02#8
  | .rangeof => 0x03#8
  | .symat => 0x04#8
  | .einit => 0x10#8
  | .encode => 0x11#8
  | .efinish => 0x12#8
  | .dinit => 0x20#8
  | .decode => 0x21#8

/-- The `match` column of the opcode map (30_encoding.md R87). -/
def Op.matchWord : Op → Word
  | .build => 0x0100000000000000#64
  | .total => 0x0200000000000000#64
  | .rangeof => 0x0300000000000000#64
  | .symat => 0x0400000000000000#64
  | .einit => 0x1000000000000000#64
  | .encode => 0x1100000000000000#64
  | .efinish => 0x1200000000000000#64
  | .dinit => 0x2000000000000000#64
  | .decode => 0x2100000000000000#64

/-- The `mask` column of the opcode map (30_encoding.md R87). -/
def Op.maskWord : Op → Word
  | .build => 0xFFFFFFFFFFFFFC00#64
  | .total => 0xFFFFFFFFFFFFFFFF#64
  | .rangeof => 0xFFFFFFFFFFFFFE00#64
  | .symat => 0xFFFFFF0000000000#64
  | .einit => 0xFFFFFFFFFFFFFFFF#64
  | .encode => 0xFFFFFFFFFFFFFE00#64
  | .efinish => 0xFFFFFFFFFFFFFFFF#64
  | .dinit => 0xFFFFFFFFFFFFFFFF#64
  | .decode => 0xFFFFFFFFFFFFFFFF#64

/-- All operations, in the table's order. -/
def Op.all : List Op :=
  [.build, .total, .rangeof, .symat, .einit, .encode, .efinish, .dinit, .decode]

/-- The operation an `op` field selects, if it is assigned (30_encoding.md R81, R88). -/
def opOfCode (c : BitVec 8) : Option Op :=
  Op.all.find? fun o => o.code == c

/-- The reserved bits of a word of a format are all 0 (30_encoding.md R81 to R85). -/
def reservedClear (f : Format) (w : Word) : Bool :=
  match f with
  | .z => w.extractLsb' 0 56 == 0#56
  | .s => w.extractLsb' 9 47 == 0#47
  | .v => w.extractLsb' 40 16 == 0#16
  | .b => w.extractLsb' 10 46 == 0#46

/-- The `count` field of a BUILD header, `W[9:0]` (30_encoding.md R85). -/
def countField (w : Word) : Nat := (w.extractLsb' 0 10).toNat

/-- The `sym` field of format S, `W[8:0]` (30_encoding.md R83). -/
def symField (w : Word) : Sym := w.extractLsb' 0 9

/-- The `value` field of format V, `W[39:0]` (30_encoding.md R84). -/
def valueField (w : Word) : Cum := w.extractLsb' 0 40

/-- An entry word, format E (30_encoding.md R86); never decoded as a command, whatever its content. -/
def decodeEntry (x : Word) : EntryWord :=
  { resv := x.extractLsb' 41 23, sym := x.extractLsb' 32 9, freq := x.extractLsb' 0 32 }

/-- Why no command is read from a list of words. -/
inductive DecodeError where
  /-- There is no word. -/
  | noWord
  /-- The word is illegal: its `op` value is not in the table (30_encoding.md R88). -/
  | unassignedOp (code : BitVec 8)
  /-- The word is illegal: a listed `op` with a reserved bit set (30_encoding.md R88). -/
  | reservedBitSet (op : Op)
  /-- A legal BUILD header is followed by fewer words than its count: the block waits for them (30_encoding.md R85, R96). -/
  | entriesMissing (count present : Nat)
deriving DecidableEq, Repr

/-- One command from the front of a list of words, with the words after it (30_encoding.md R80 to R89). -/
def decode : List Word → Except DecodeError (Instr × List Word)
  | [] => .error .noWord
  | w :: ws =>
    match opOfCode (w.extractLsb' 56 8) with
    | none => .error (.unassignedOp (w.extractLsb' 56 8))
    | some op =>
      if reservedClear op.format w then
        match op with
        | .build =>
          if countField w ≤ ws.length then
            .ok (.build ((ws.take (countField w)).map decodeEntry), ws.drop (countField w))
          else
            .error (.entriesMissing (countField w) ws.length)
        | .total => .ok (.total, ws)
        | .rangeof => .ok (.rangeof (symField w), ws)
        | .symat => .ok (.symat (valueField w), ws)
        | .einit => .ok (.einit, ws)
        | .encode => .ok (.encode (symField w), ws)
        | .efinish => .ok (.efinish, ws)
        | .dinit => .ok (.dinit, ws)
        | .decode => .ok (.decode, ws)
      else
        .error (.reservedBitSet op)

/-- The length of a command in words, told from its first word alone: `1 + count` for a legal BUILD header, 1 for every other
word, an illegal one among them (30_encoding.md R88, R89). -/
def lengthWords (w : Word) : Nat :=
  if opOfCode (w.extractLsb' 56 8) = some .build ∧ reservedClear .b w = true then 1 + countField w else 1

/-- An entry word laid out: `(resv << 41) OR (sym << 32) OR freq` (30_encoding.md R86). -/
def encodeEntry (e : EntryWord) : Word :=
  (e.resv.setWidth 64 <<< 41) ||| (e.sym.setWidth 64 <<< 32) ||| e.freq.setWidth 64

/-- The first word of a command: the row's `match` word OR its operand (30_encoding.md R82 to R85, R87, R94). -/
def encodeHead : Instr → Word
  | .build entries => Op.build.matchWord ||| (BitVec.ofNat 10 entries.length).setWidth 64
  | .total => Op.total.matchWord
  | .rangeof s => Op.rangeof.matchWord ||| s.setWidth 64
  | .symat v => Op.symat.matchWord ||| v.setWidth 64
  | .einit => Op.einit.matchWord
  | .encode s => Op.encode.matchWord ||| s.setWidth 64
  | .efinish => Op.efinish.matchWord
  | .dinit => Op.dinit.matchWord
  | .decode => Op.decode.matchWord

/-- The operand words that follow the first word: BUILD's entry words in the order written, none else (30_encoding.md R85,
R89). -/
def encodeOperands : Instr → List Word
  | .build entries => entries.map encodeEntry
  | .total => []
  | .rangeof _ => []
  | .symat _ => []
  | .einit => []
  | .encode _ => []
  | .efinish => []
  | .dinit => []
  | .decode => []

/-- The words of a command, first to last. -/
def encode (i : Instr) : List Word := encodeHead i :: encodeOperands i

/-- `k` words cut from a number, bit 0 of the number being bit 0 of the first word (log 14). -/
def wordsFrom : Nat → Nat → List Word
  | 0, _ => []
  | k + 1, w => BitVec.ofNat 64 w :: wordsFrom k (w >>> 64)

/-- The words of the one instruction whose bits are `w`, numbered as the opcode table numbers them; the bits from `nbits` on
are 0, so BUILD's entry words beyond them are words of zeros (log 14). -/
def tableWords (nbits w : Nat) : List Word :=
  wordsFrom (lengthWords (BitVec.ofNat 64 (w % 2 ^ nbits))) (w % 2 ^ nbits)

/-- The instruction the decoder reads from an instruction whose bits are `w`; none where it refuses. -/
def decodeTableWord (nbits w : Nat) : Option Instr :=
  match decode (tableWords nbits w) with
  | .ok (i, _) => some i
  | .error _ => none

end Sys2Proof
end

