-- ==== Sys2Proof/Machine/Fetch.lean ====
section
/-! DEFINITION. What the block takes from the host's moves (30_encoding.md R85, R88, R96; 70_reset_and_hazards.md R221, R236): the
next command, an illegal word, or a BUILD that waits; and a command's plan, for a reset that strikes during it. -/

namespace Sys2Proof.Machine

/-- The words at the front of the host's moves, up to the first move that is no word. -/
def portWords : List HostMove → List Word
  | .word w :: rest => w :: portWords rest
  | _ => []

/-- The host's moves from the first one that is no word. -/
def afterWords : List HostMove → List HostMove
  | .word _ :: rest => afterWords rest
  | moves => moves

/-- What the words at the front of the port are. -/
inductive Fetched where
  /-- There is no word. -/
  | idle
  /-- A command, with the moves after its last word. -/
  | command (i : Instr) (rest : List HostMove)
  /-- An illegal word, with the moves after it (30_encoding.md R88). -/
  | illegal (rest : List HostMove)
  /-- A BUILD whose entry words are not all there, with the moves after the words it has taken (30_encoding.md R85). -/
  | waiting (rest : List HostMove)
deriving DecidableEq, Repr

/-- The command whose words stand at the front of the host's moves (30_encoding.md R85 to R89). -/
def fetch (moves : List HostMove) : Fetched :=
  match decode (portWords moves) with
  | .ok (i, _) => .command i (moves.drop (encode i).length)
  | .error .noWord => .idle
  | .error (.unassignedOp _) => .illegal (moves.drop 1)
  | .error (.reservedBitSet _) => .illegal (moves.drop 1)
  | .error (.entriesMissing _ _) => .waiting (afterWords moves)

/-- The plan of a command. -/
def planOf (i : Instr) (s : State) : Host.Outcome Plan Fault Refusal :=
  match i with
  | .build entries => planBuild entries s
  | .total => planTotal s
  | .rangeof sym => planRangeof sym s
  | .symat value => planSymat value s
  | .einit => planEinit s
  | .encode sym => planEncode sym s
  | .efinish => planEfinish s
  | .dinit => planDinit s
  | .decode => planDecode s

/-- An illegal word: IllegalCommand, raised by the command decoder (30_encoding.md R88, 60_exceptions.md R190). -/
def illegalCommand (s : State) : Host.Outcome State Fault Refusal :=
  complete (.next (raise s none .illegalCommand))

/-- A BUILD waits for its next entry word (30_encoding.md R96): with no further move the block goes on waiting; a reset abandons it
(70_reset_and_hazards.md R221); LoadSource is no move the host has now (R236; log 6). `s` still holds the moves from the header on,
`rest` those after the words taken. -/
def waitForEntries (s : State) (rest : List HostMove) : Host.Outcome State Fault Refusal :=
  match rest with
  | [] => .next s
  | .reset :: rest' => .next { s with port := rest' }.hardReset
  | .resetDuring _ :: rest' => .next { s with port := rest' }.hardReset
  | .loadSource _ :: _ => .fault .sourceLoadedWhileBusy
  | .word _ :: _ => .next s

/-- `rst` during the command whose words stand next on the port, after `k` of its port transfers (70_reset_and_hazards.md R221;
log 7). With no command there, the block is idle and this is a plain reset; an illegal word makes no transfer; a BUILD still
waiting for entry words loses the words it has taken. -/
def resetDuringCommand (k : Nat) (s : State) : Host.Outcome State Fault Refusal :=
  match fetch s.port with
  | .idle => .next s.hardReset
  | .command i rest => abandon k { s with port := rest } (planOf i { s with port := rest })
  | .illegal rest => .next { s with port := rest }.hardReset
  | .waiting rest => .next { s with port := rest }.hardReset

end Sys2Proof.Machine
end

