-- ==== Sys2Proof/Machine/Step.lean ====
section
/-! DEFINITION. One step: the next move of the host, taken to its end (00_scope.md R5, 10_state.md R20, R21). -/

namespace Sys2Proof.Machine

/-- One step of the block. With no move of the host it is idle. A command runs to completion, an illegal word is answered with
IllegalCommand, a reset and a LoadSource take effect between commands. -/
def step (s : State) : Host.Outcome State Fault Refusal :=
  match s.port with
  | [] => .next s
  | .loadSource bits :: rest => .next ({ s with port := rest }.loadSource bits)
  | .reset :: rest => .next { s with port := rest }.hardReset
  | .resetDuring k :: rest => resetDuringCommand k { s with port := rest }
  | .word w :: rest =>
    match fetch (.word w :: rest) with
    | .idle => .next s
    | .command i rest' => exec i { s with port := rest' }
    | .illegal rest' => illegalCommand { s with port := rest' }
    | .waiting rest' => waitForEntries s rest'

/-- The state with the words of one instruction presented on the command port before every other move of the host (log 5). -/
def State.withFetchWord (s : State) (nbits w : Nat) : State :=
  { s with port := (tableWords nbits w).map .word ++ s.port }

end Sys2Proof.Machine
end

