-- ==== Sys2Proof/Machine/Assembler.lean ====
section
/-! DEFINITION. The spec's assembler lines and pseudo-instructions and the words they emit (30_encoding.md R94, R95). The lines are
trees, not text: comments, number bases and character constants are spelling (log 18). -/

namespace Sys2Proof.Machine

/-- One line (30_encoding.md R94, R95). Operands are the numbers written, whatever their size; `EOS` is 256. -/
inductive AsmLine where
  /-- `BUILD s0:f0, ..., sk:fk`; with no pairs, the empty mapping. -/
  | build (pairs : List (Nat × Int))
  | total
  | rangeof (s : Nat)
  | symat (v : Nat)
  | einit
  | encode (s : Nat)
  | efinish
  | dinit
  | decode
  /-- `.word w` -/
  | rawWord (w : Nat)
  /-- `ENCSEQ s1, ..., sk` -/
  | encseq (ss : List Nat)
  /-- `ENCSTREAM s1, ..., sk` -/
  | encstream (ss : List Nat)
  /-- `DECODE*k` -/
  | decodeTimes (k : Nat)
deriving DecidableEq, Repr

/-- A symbol operand; an error above 511 (30_encoding.md R94). -/
def asmSym (s : Nat) : Option Sym :=
  if s ≤ 511 then some (BitVec.ofNat 9 s) else none

/-- A value operand; an error from `2^40` on (30_encoding.md R94). -/
def asmValue (v : Nat) : Option Cum :=
  if v < 2 ^ 40 then some (BitVec.ofNat 40 v) else none

/-- One pair `s:f` of BUILD; an error when `f` is outside 32-bit two's complement (30_encoding.md R94). -/
def asmPair (p : Nat × Int) : Option EntryWord :=
  match asmSym p.1 with
  | none => none
  | some s =>
    if -(2 ^ 31) ≤ p.2 ∧ p.2 < 2 ^ 31 then some { resv := 0#23, sym := s, freq := BitVec.ofInt 32 p.2 } else none

/-- All of a list of operands, or an error. -/
def asmAll {α β : Type} (f : α → Option β) : List α → Option (List β)
  | [] => some []
  | x :: rest =>
    match f x, asmAll f rest with
    | some y, some ys => some (y :: ys)
    | _, _ => none

/-- The ENCODE commands of a sequence of symbols (30_encoding.md R95). -/
def asmEncodes (ss : List Nat) : Option (List Instr) :=
  match asmAll asmSym ss with
  | none => none
  | some syms => some (syms.map fun s => Instr.encode s)

/-- The words a line emits; none is an assembly error: nothing is truncated (30_encoding.md R94, R95). -/
def AsmLine.words : AsmLine → Option (List Word)
  | .build pairs =>
    match asmAll asmPair pairs with
    | none => none
    | some es => if es.length ≤ maxCount then some (Sys2Proof.encode (Instr.build es)) else none
  | .total => some (Sys2Proof.encode Instr.total)
  | .rangeof s => (asmSym s).map fun s => Sys2Proof.encode (Instr.rangeof s)
  | .symat v => (asmValue v).map fun v => Sys2Proof.encode (Instr.symat v)
  | .einit => some (Sys2Proof.encode Instr.einit)
  | .encode s => (asmSym s).map fun s => Sys2Proof.encode (Instr.encode s)
  | .efinish => some (Sys2Proof.encode Instr.efinish)
  | .dinit => some (Sys2Proof.encode Instr.dinit)
  | .decode => some (Sys2Proof.encode Instr.decode)
  | .rawWord w => if w < 2 ^ 64 then some [BitVec.ofNat 64 w] else none
  | .encseq ss => (asmEncodes ss).map fun is => is.flatMap Sys2Proof.encode
  | .encstream ss =>
    (asmEncodes ss).map fun is =>
      ([Instr.einit] ++ is ++ [Instr.encode eos, Instr.efinish]).flatMap Sys2Proof.encode
  | .decodeTimes k => some ((List.replicate k Instr.decode).flatMap Sys2Proof.encode)

end Sys2Proof.Machine
end

