-- ==== Sys2Proof/Safety.lean ====
section
/-! DEFINITION. What counts as a legal state and a safe run, in the terms the claims use: the model invariant (10_state.md R25), the
interval invariants (R38, R39), the loops of the coders in numbers (41_encoder_ops.md R138, R139; 42_decoder_ops.md R164, R165), the
streams of sessions (10_state.md R33), runs of command lists (10_state.md R21). -/

namespace Sys2Proof.Machine

/-- The opcode map of 30_encoding.md R87, written out: mnemonic, match, mask. -/
def opcodeMap : List (Op × Word × Word) :=
  [(.build, 0x0100000000000000#64, 0xFFFFFFFFFFFFFC00#64),
   (.total, 0x0200000000000000#64, 0xFFFFFFFFFFFFFFFF#64),
   (.rangeof, 0x0300000000000000#64, 0xFFFFFFFFFFFFFE00#64),
   (.symat, 0x0400000000000000#64, 0xFFFFFF0000000000#64),
   (.einit, 0x1000000000000000#64, 0xFFFFFFFFFFFFFFFF#64),
   (.encode, 0x1100000000000000#64, 0xFFFFFFFFFFFFFE00#64),
   (.efinish, 0x1200000000000000#64, 0xFFFFFFFFFFFFFFFF#64),
   (.dinit, 0x2000000000000000#64, 0xFFFFFFFFFFFFFFFF#64),
   (.decode, 0x2100000000000000#64, 0xFFFFFFFFFFFFFFFF#64)]

/-- The word matches no row of the opcode map (30_encoding.md R88). -/
def IllegalWord (w : Word) : Prop := ∀ row ∈ opcodeMap, w &&& row.2.2 ≠ row.2.1

/-- The entry words make a mapping BUILD accepts (40_model_ops.md R112): not empty, no reserved bit set, symbols at most 256,
frequencies at least 1, no symbol twice. -/
structure GoodMapping (es : List EntryWord) : Prop where
  nonempty : es ≠ []
  reserved : ∀ e ∈ es, e.resv = 0#23
  alphabet : ∀ e ∈ es, e.sym.toNat ≤ 256
  positive : ∀ e ∈ es, 1 ≤ e.freq.toInt
  distinct : (es.map fun e => e.sym).Nodup

/-- The sum of the frequencies of entry words, as an integer (40_model_ops.md R110). -/
def freqSum (es : List EntryWord) : Int := (es.map fun e => e.freq.toInt).sum

/-- The model invariant of 10_state.md R25, over the meaningful entries. -/
structure ModelOk (m : Mdl) : Prop where
  size : 1 ≤ m.n.toNat ∧ m.n.toNat ≤ 257
  present : m.entries.length = m.n.toNat
  first : (m.entries.head?.map fun e => e.cl) = some 0#40
  nonempty : ∀ e ∈ m.entries, e.cl.toNat < e.ch.toNat
  contiguous : m.entries.IsChain fun a b => a.ch = b.cl
  last : (m.entries.getLast?.map fun e => e.ch) = some m.total
  positive : 1 ≤ m.total.toNat
  distinct : (m.entries.map fun e => e.sym).Nodup
  alphabet : ∀ e ∈ m.entries, e.sym.toNat ≤ 256

/-- A renormalised interval (10_state.md R39 (a)): `low < HALF ≤ high ≤ MASK`, and not (`low ≥ QUARTER` and `high < 3 × QUARTER`). -/
structure Settled (n low high : Nat) : Prop where
  low_half : low < half n
  half_high : half n ≤ high
  high_mask : high ≤ mask n
  not_middle : ¬ (quarter n ≤ low ∧ high < 3 * quarter n)

/-- A pending count fits its register: below `2^PEND_BITS`, or anything when unbounded (00_scope.md R9, 10_state.md R27). -/
def PendingFits (pendBits : Option Nat) (pending : Nat) : Prop := ∀ b, pendBits = some b → pending < 2 ^ b

/-- The states the block can be in: the table has its 257 slots and a valid model is one (10_state.md R22, R25); every register fits
its width (R26, R27, R30); an open or finished encoder and an open decoder have a renormalised interval (R38, R39 (a)); an open
decoder's code lies in its interval (R39 (b)). -/
structure State.Inv (s : State) : Prop where
  slots : s.mdl.tab.length = 257
  model : s.mdl.valid = true → ModelOk s.mdl
  encLowFits : s.enc.low ≤ mask s.params.numbits
  encHighFits : s.enc.high ≤ mask s.params.numbits
  pendingFits : PendingFits s.params.pendBits s.enc.pending
  decLowFits : s.dec.low ≤ mask s.params.numbits
  decHighFits : s.dec.high ≤ mask s.params.numbits
  decCodeFits : s.dec.code ≤ mask s.params.numbits
  encSettled : s.enc.phase = .active ∨ s.enc.phase = .done → Settled s.params.numbits s.enc.low s.enc.high
  decSettled : s.dec.phase = .active → Settled s.params.numbits s.dec.low s.dec.high
  decInside : s.dec.phase = .active → s.dec.low ≤ s.dec.code ∧ s.dec.code ≤ s.dec.high

/-- The E1/E2 loop of ENCODE in numbers (41_encoder_ops.md R138): from `low high pend`, writing `bits`, to `low' high' pend'` in `k`
iterations. -/
inductive ShiftRun (n : Nat) : Nat → Nat → Nat → List Bool → Nat → Nat → Nat → Nat → Prop where
  | stop {low high pend : Nat} (h : ¬ (low < half n ↔ high < half n)) : ShiftRun n low high pend [] low high pend 0
  | e1 {low high pend low' high' pend' k : Nat} {bits : List Bool} (hl : low < half n) (hh : high < half n)
      (more : ShiftRun n (2 * low) (2 * high + 1) 0 bits low' high' pend' k) :
      ShiftRun n low high pend ((false :: List.replicate pend true) ++ bits) low' high' pend' (k + 1)
  | e2 {low high pend low' high' pend' k : Nat} {bits : List Bool} (hl : half n ≤ low) (hh : half n ≤ high)
      (more : ShiftRun n (2 * (low - half n)) (2 * (high - half n) + 1) 0 bits low' high' pend' k) :
      ShiftRun n low high pend ((true :: List.replicate pend false) ++ bits) low' high' pend' (k + 1)

/-- The E3 loop of ENCODE in numbers, with an unbounded counter (41_encoder_ops.md R136, R139): from `low high pend` to
`low' high' pend'` in `k` iterations. -/
inductive FoldRun (n : Nat) : Nat → Nat → Nat → Nat → Nat → Nat → Nat → Prop where
  | stop {low high pend : Nat} (h : ¬ (quarter n ≤ low ∧ low < half n ∧ half n ≤ high ∧ high < 3 * quarter n)) :
      FoldRun n low high pend low high pend 0
  | e3 {low high pend low' high' pend' k : Nat} (hq : quarter n ≤ low) (hl : low < half n) (hh : half n ≤ high)
      (ht : high < 3 * quarter n)
      (more : FoldRun n (2 * (low - quarter n)) (2 * (high - quarter n) + 1) (pend + 1) low' high' pend' k) :
      FoldRun n low high pend low' high' pend' (k + 1)

/-- The E1/E2 loop of DECODE in numbers (42_decoder_ops.md R164): from `low high code src` to `low' high' code' src'` in `k`
iterations, one bit read in each. -/
inductive DecShiftRun (n : Nat) : Nat → Nat → Nat → List Bool → Nat → Nat → Nat → List Bool → Nat → Prop where
  | stop {low high code : Nat} {src : List Bool} (h : ¬ (low < half n ↔ high < half n)) :
      DecShiftRun n low high code src low high code src 0
  | e1 {low high code low' high' code' k : Nat} {src src' : List Bool} (hl : low < half n) (hh : high < half n)
      (more : DecShiftRun n (2 * low) (2 * high + 1) (2 * code + (src.headD false).toNat) src.tail low' high' code' src' k) :
      DecShiftRun n low high code src low' high' code' src' (k + 1)
  | e2 {low high code low' high' code' k : Nat} {src src' : List Bool} (hl : half n ≤ low) (hh : half n ≤ high)
      (more : DecShiftRun n (2 * (low - half n)) (2 * (high - half n) + 1)
        (2 * (code - half n) + (src.headD false).toNat) src.tail low' high' code' src' k) :
      DecShiftRun n low high code src low' high' code' src' (k + 1)

/-- The E3 loop of DECODE in numbers (42_decoder_ops.md R165): one bit read in each iteration. -/
inductive DecFoldRun (n : Nat) : Nat → Nat → Nat → List Bool → Nat → Nat → Nat → List Bool → Nat → Prop where
  | stop {low high code : Nat} {src : List Bool}
      (h : ¬ (quarter n ≤ low ∧ low < half n ∧ half n ≤ high ∧ high < 3 * quarter n)) :
      DecFoldRun n low high code src low high code src 0
  | e3 {low high code low' high' code' k : Nat} {src src' : List Bool} (hq : quarter n ≤ low) (hl : low < half n)
      (hh : half n ≤ high) (ht : high < 3 * quarter n)
      (more : DecFoldRun n (2 * (low - quarter n)) (2 * (high - quarter n) + 1)
        (2 * (code - quarter n) + (src.headD false).toNat) src.tail low' high' code' src' k) :
      DecFoldRun n low high code src low' high' code' src' (k + 1)

/-- A response `(OK, d0, d1)`. -/
def okResponse (d0 d1 : Cum) : Response := { status := .ok, d0 := d0, d1 := d1 }

/-- A response `(status, 0, 0)` (60_exceptions.md R180). -/
def errorResponse (st : Status) : Response := { status := st, d0 := 0#40, d1 := 0#40 }

/-- The first of these moves is `rst` (70_reset_and_hazards.md R221). -/
def StartsWithReset (moves : List HostMove) : Prop :=
  ∃ rest, moves = .reset :: rest ∨ ∃ k, moves = .resetDuring k :: rest

/-- The host's next move is `rst`: between commands, during the next command, or while a BUILD waits for its entry words
(70_reset_and_hazards.md R220, R221). -/
def HostResets (moves : List HostMove) : Prop :=
  StartsWithReset moves ∨ ∃ rest, fetch moves = .waiting rest ∧ StartsWithReset rest

/-- Commands executed in list order, each to completion (10_state.md R21), with their responses; none when one of them stops. -/
def execAll : List Instr → State → Option (State × List (Option Response))
  | [], s => some (s, [])
  | i :: rest, s =>
    match exec i s with
    | .next t =>
      match execAll rest t with
      | some (u, rs) => some (u, t.rsp :: rs)
      | none => none
    | _ => none

/-- The events after the last OPEN of a BitSink trace (10_state.md R33). -/
def lastSession (events : List SnkEvent) : List SnkEvent :=
  events.foldl (fun acc e => if e = .opened then [] else acc ++ [e]) []

/-- The bits of the W events of a list of events (10_state.md R33). -/
def writtenBits : List SnkEvent → List Bool
  | [] => []
  | .w0 :: rest => false :: writtenBits rest
  | .w1 :: rest => true :: writtenBits rest
  | .opened :: rest => writtenBits rest
  | .closed :: rest => writtenBits rest

/-- The stream of the last session of a BitSink trace (10_state.md R33). -/
def sessionStream (snk : List SnkEvent) : List Bool := writtenBits (lastSession snk)

/-- What the BitSink has seen of its protocol: `some true` is open, `some false` closed or never opened, none means that a bit or a
CLOSE came while it was not open (20_memory.md R54, R55). -/
def sinkAfter : Option Bool → SnkEvent → Option Bool
  | none, _ => none
  | some _, .opened => some true
  | some true, .w0 => some true
  | some true, .w1 => some true
  | some true, .closed => some false
  | some false, .w0 => none
  | some false, .w1 => none
  | some false, .closed => none

/-- The BitSink's condition after a trace from power-on. -/
def sinkCondition (snk : List SnkEvent) : Option Bool := snk.foldl sinkAfter (some false)

/-- Bits and CLOSE only ever reach an open sink; an active encoder's sink is open, a finished one's is closed (10_state.md R29,
20_memory.md R54, R55). -/
structure State.SinkInv (s : State) : Prop where
  legal : sinkCondition s.snk ≠ none
  active : s.enc.phase = .active → sinkCondition s.snk = some true
  done : s.enc.phase = .done → sinkCondition s.snk = some false

/-- Two states that differ only in what the spec leaves unspecified (70_reset_and_hazards.md R220, 93_implementation_defined.md U20
to U23): the model store without a valid model, table slots from MDL.n on, the registers of a unit that is not ACTIVE, and the
model's own counter of free values. -/
structure Similar (s t : State) : Prop where
  params : s.params = t.params
  valid : s.mdl.valid = t.mdl.valid
  size : s.mdl.valid = true → s.mdl.n = t.mdl.n
  total : s.mdl.valid = true → s.mdl.total = t.mdl.total
  entries : s.mdl.valid = true → s.mdl.entries = t.mdl.entries
  encPhase : s.enc.phase = t.enc.phase
  enc : s.enc.phase = .active → s.enc = t.enc
  decPhase : s.dec.phase = t.dec.phase
  dec : s.dec.phase = .active → s.dec = t.dec
  snk : s.snk = t.snk
  src : s.src = t.src
  symout : s.symout = t.symout
  rsp : s.rsp = t.rsp
  port : s.port = t.port

/-- Two outcomes of the same kind, next states similar, reasons equal. -/
def SimilarOutcome (a b : Host.Outcome State Fault Refusal) : Prop :=
  match a, b with
  | .next s, .next t => Similar s t
  | .fault r, .fault q => r = q
  | .refused r, .refused q => r = q
  | _, _ => False

end Sys2Proof.Machine
end

