-- ==== Sys2Proof/Certificates/Slice0/Obligations.lean ====
section
/-! DEFINITION. The statements for the provers. Every statement about a state is about every instance of the block, because the
parameters NUMBITS and PEND_BITS are fields of the state (log 1). No statement rests on a value the spec leaves unspecified (logs 2,
3): after a reset or a failed BUILD nothing is said of the contents of the model store and of the data registers but their widths. -/

open Sys2Proof Sys2Proof.Machine

/-! Encoding. -/

/-- Decode inverts encode for every well-formed command with every operand (30_encoding.md R80 to R90). -/
def Obligations.DecodeInvertsEncode : Prop :=
  ∀ (i : Instr) (rest : List Word), i.wf = true → decode (encode i ++ rest) = .ok (i, rest)

/-- Every list of words that decodes is the encoding of what it decodes to, followed by the words not taken: no two words mean one
command, and no bit of a word is dropped (30_encoding.md R88: every word matches one row or is illegal). -/
def Obligations.EncodeInvertsDecode : Prop :=
  ∀ (ws : List Word) (i : Instr) (rest : List Word), decode ws = .ok (i, rest) → i.wf = true ∧ encode i ++ rest = ws

/-- The opcode map (30_encoding.md R87): a word selects the row where `W AND mask = match`; at most one row is selected; the word
then decodes to that row's command, or is a BUILD header whose entry words are not all there; with no row it is illegal. -/
def Obligations.OpcodeMapSelectsTheCommand : Prop :=
  ∀ (w : Word) (ws : List Word),
    (∀ row ∈ opcodeMap, w &&& row.2.2 = row.2.1 →
      (∀ row' ∈ opcodeMap, w &&& row'.2.2 = row'.2.1 → row' = row) ∧
      ((∃ i rest, decode (w :: ws) = .ok (i, rest) ∧ i.op = row.1) ∨
        (row.1 = .build ∧ ∃ count present, decode (w :: ws) = .error (.entriesMissing count present)))) ∧
    (IllegalWord w →
      (∃ c, decode (w :: ws) = .error (.unassignedOp c)) ∨ ∃ op, decode (w :: ws) = .error (.reservedBitSet op))

/-- The operand fields (30_encoding.md R83 to R86, R89, R90): where each command's operands stand in its words, the frequency being
the only signed one, and how many words it takes. -/
def Obligations.OperandsAreReadFromTheirFields : Prop :=
  ∀ (w : Word) (ws : List Word) (i : Instr) (rest : List Word), decode (w :: ws) = .ok (i, rest) →
    match i with
    | .rangeof s => s.toNat = w.toNat % 2 ^ 9 ∧ rest = ws
    | .encode s => s.toNat = w.toNat % 2 ^ 9 ∧ rest = ws
    | .symat v => v.toNat = w.toNat % 2 ^ 40 ∧ rest = ws
    | .build es =>
      es.length = w.toNat % 2 ^ 10 ∧ rest = ws.drop es.length ∧
      ∀ (j : Nat) (x : Word) (e : EntryWord), ws[j]? = some x → es[j]? = some e →
        e.resv.toNat = x.toNat / 2 ^ 41 ∧ e.sym.toNat = x.toNat / 2 ^ 32 % 2 ^ 9 ∧
        e.freqInt = if x.toNat % 2 ^ 32 < 2 ^ 31 then ((x.toNat % 2 ^ 32 : Nat) : Int)
                    else ((x.toNat % 2 ^ 32 : Nat) : Int) - 2 ^ 32
    | _ => rest = ws

/-- Words written out by the spec decode to the commands it says they are (95_test_vectors.md, section 2.2, "Legal encodings"). -/
def Obligations.WordsOfTheSpecDecode : Prop :=
  decode [0x0100000000000000#64] = .ok (.build [], []) ∧
  decode [0x0200000000000000#64] = .ok (.total, []) ∧
  decode [0x03000000000001FF#64] = .ok (.rangeof 511#9, []) ∧
  decode [0x040000FFFFFFFFFF#64] = .ok (.symat 1099511627775#40, []) ∧
  decode [0x1000000000000000#64] = .ok (.einit, []) ∧
  decode [0x1100000000000100#64] = .ok (.encode 256#9, []) ∧
  decode [0x1200000000000000#64] = .ok (.efinish, []) ∧
  decode [0x2000000000000000#64] = .ok (.dinit, []) ∧
  decode [0x2100000000000000#64] = .ok (.decode, []) ∧
  decode [0x0100000000000001#64, 0x00000100FFFFFFFF#64] = .ok (.build [⟨0#23, 256#9, BitVec.ofInt 32 (-1)⟩], [])

/-- The assembler's words (30_encoding.md R94, R95): a line emits the row's word OR the operand, BUILD its header and then one entry word
per pair, a pseudo-instruction the words of its expansion; an operand out of its field's range is an error and nothing is truncated.
That a `.word` beyond 64 bits is such an error is the model's reading (log 18). -/
def Obligations.AssemblerWords : Prop :=
  (AsmLine.total.words = some [0x0200000000000000#64] ∧ AsmLine.einit.words = some [0x1000000000000000#64] ∧
    AsmLine.efinish.words = some [0x1200000000000000#64] ∧ AsmLine.dinit.words = some [0x2000000000000000#64] ∧
    AsmLine.decode.words = some [0x2100000000000000#64]) ∧
  (∀ s : Nat, s ≤ 511 →
    (AsmLine.rangeof s).words = some [0x0300000000000000#64 ||| BitVec.ofNat 64 s] ∧
    (AsmLine.encode s).words = some [0x1100000000000000#64 ||| BitVec.ofNat 64 s]) ∧
  (∀ s : Nat, 511 < s → (AsmLine.rangeof s).words = none ∧ (AsmLine.encode s).words = none) ∧
  (∀ v : Nat, v < 2 ^ 40 → (AsmLine.symat v).words = some [0x0400000000000000#64 ||| BitVec.ofNat 64 v]) ∧
  (∀ v : Nat, 2 ^ 40 ≤ v → (AsmLine.symat v).words = none) ∧
  (∀ pairs : List (Nat × Int), pairs.length ≤ 1023 → (∀ p ∈ pairs, p.1 ≤ 511 ∧ -(2 ^ 31) ≤ p.2 ∧ p.2 < 2 ^ 31) →
    (AsmLine.build pairs).words =
      some ((0x0100000000000000#64 ||| BitVec.ofNat 64 pairs.length) ::
        pairs.map fun p => (BitVec.ofNat 64 p.1 <<< 32) ||| (BitVec.ofInt 32 p.2).setWidth 64)) ∧
  (∀ pairs : List (Nat × Int), (1023 < pairs.length ∨ ∃ p ∈ pairs, 511 < p.1 ∨ p.2 < -(2 ^ 31) ∨ 2 ^ 31 ≤ p.2) →
    (AsmLine.build pairs).words = none) ∧
  (∀ w : Nat, w < 2 ^ 64 → (AsmLine.rawWord w).words = some [BitVec.ofNat 64 w]) ∧
  (∀ w : Nat, 2 ^ 64 ≤ w → (AsmLine.rawWord w).words = none) ∧
  (∀ ss : List Nat, (∀ s ∈ ss, s ≤ 511) →
    (AsmLine.encseq ss).words = some (ss.map fun s => 0x1100000000000000#64 ||| BitVec.ofNat 64 s) ∧
    (AsmLine.encstream ss).words =
      some (0x1000000000000000#64 :: (ss.map fun s => 0x1100000000000000#64 ||| BitVec.ofNat 64 s) ++
        [0x1100000000000100#64, 0x1200000000000000#64])) ∧
  (∀ ss : List Nat, (∃ s ∈ ss, 511 < s) → (AsmLine.encseq ss).words = none ∧ (AsmLine.encstream ss).words = none) ∧
  ∀ k : Nat, (AsmLine.decodeTimes k).words = some (List.replicate k 0x2100000000000000#64)

/-! The step. -/

/-- A step runs the decoded command: when the words of a well-formed command stand first on the command port, the step is the
command's execution with exactly those words taken (10_state.md R21, 30_encoding.md R89). -/
def Obligations.StepRunsTheDecodedCommand : Prop :=
  ∀ (s : State) (i : Instr) (rest : List HostMove), i.wf = true → s.port = (encode i).map .word ++ rest →
    step s = exec i { s with port := rest }

/-- A table word presented by withFetchWord is run by the very next step (log 5). -/
def Obligations.StepRunsThePresentedTableWord : Prop :=
  ∀ (s : State) (nbits w : Nat) (i : Instr), decodeTableWord nbits w = some i →
    step (s.withFetchWord nbits w) = exec i s

/-- Illegal words (30_encoding.md R88, 60_exceptions.md R190): one word is taken, nothing else changes, no port transfer is made, the
response is IllegalCommand; a BUILD look-alike takes no entry words. The all-zero and the all-ones word are illegal. -/
def Obligations.IllegalWordIsRefused : Prop :=
  (∀ (s : State) (w : Word) (rest : List HostMove), s.port = .word w :: rest → IllegalWord w →
    step s = .next { s with port := rest, rsp := some (errorResponse .illegalCommand) }) ∧
  (∀ (s t : State) (w : Word) (rest : List HostMove), s.port = .word w :: rest → ¬ IllegalWord w → step s = .next t →
    t.rsp = some (errorResponse .illegalCommand) → s.rsp = some (errorResponse .illegalCommand) ∧ t = s) ∧
  IllegalWord 0#64 ∧ IllegalWord (BitVec.allOnes 64)

/-- A BUILD whose entry words are not all there waits for them without a response, and a reset abandons it (30_encoding.md R85, R96;
70_reset_and_hazards.md R221). The model's choices in it: a step that waits leaves the state as it is, the words taken so far still
listed (log 4); a resetDuring after those words is a plain reset, whatever its k (log 7); LoadSource is no move the host has while a
command is in progress, so the model stops (log 6). -/
def Obligations.BuildWaitsForItsEntryWords : Prop :=
  ∀ (s : State) (w : Word) (ws : List Word) (rest : List HostMove),
    w &&& 0xFFFFFFFFFFFFFC00#64 = 0x0100000000000000#64 → ws.length < w.toNat % 2 ^ 10 →
    s.port = (w :: ws).map .word ++ rest →
      (rest = [] → step s = .next s) ∧
      (∀ rest', rest = .reset :: rest' → step s = .next { s with port := rest' }.hardReset) ∧
      (∀ k rest', rest = .resetDuring k :: rest' → step s = .next { s with port := rest' }.hardReset) ∧
      (∀ bits rest', rest = .loadSource bits :: rest' → step s = .fault .sourceLoadedWhileBusy)

/-- Between commands: with no move of the host the block is idle; LoadSource is an assignment to SRC (70_reset_and_hazards.md R236). -/
def Obligations.IdleAndLoadSource : Prop :=
  (∀ s : State, s.port = [] → step s = .next s) ∧
  ∀ (s : State) (bits : List Bool) (rest : List HostMove), s.port = .loadSource bits :: rest →
    step s = .next { s with src := bits, port := rest }

/-- Hardware reset (70_reset_and_hazards.md R220): at power-on and at a later reset there is no model, both phases are IDLE and no
response is pending; the traces are empty at power-on and left as they are later, SRC and the constants are not changed; the
unspecified registers are within their widths. -/
def Obligations.HardwareReset : Prop :=
  (∀ p : Params, (State.powerOn p).params = p ∧ (State.powerOn p).mdl.valid = false ∧ (State.powerOn p).enc.phase = .idle ∧
    (State.powerOn p).dec.phase = .idle ∧ (State.powerOn p).snk = [] ∧ (State.powerOn p).symout = [] ∧
    (State.powerOn p).rsp = none) ∧
  ∀ (s : State) (rest : List HostMove), s.port = .reset :: rest →
    ∃ t, step s = .next t ∧ t.mdl.valid = false ∧ t.enc.phase = .idle ∧ t.dec.phase = .idle ∧ t.rsp = none ∧
      t.snk = s.snk ∧ t.symout = s.symout ∧ t.src = s.src ∧ t.params = s.params ∧ t.port = rest ∧ t.mdl.tab.length = 257 ∧
      t.enc.low ≤ mask s.params.numbits ∧ t.enc.high ≤ mask s.params.numbits ∧
      PendingFits s.params.pendBits t.enc.pending ∧ t.dec.low ≤ mask s.params.numbits ∧
      t.dec.high ≤ mask s.params.numbits ∧ t.dec.code ≤ mask s.params.numbits

/-- Reset during a command (70_reset_and_hazards.md R221): there is no response and the state is that of a reset; of the transfers
the whole command would make, a first part stays in the traces and in SRC, all of them if `k` is large enough, none if it is 0. -/
def Obligations.ResetDuringACommandCutsItShort : Prop :=
  ∀ (s u : State) (i : Instr) (k : Nat) (rest : List HostMove), i.wf = true →
    s.port = .resetDuring k :: ((encode i).map .word ++ rest) → exec i { s with port := rest } = .next u →
    ∃ t, step s = .next t ∧ t.mdl.valid = false ∧ t.enc.phase = .idle ∧ t.dec.phase = .idle ∧ t.rsp = none ∧ t.port = rest ∧
      t.params = s.params ∧
      s.snk <+: t.snk ∧ t.snk <+: u.snk ∧ s.symout <+: t.symout ∧ t.symout <+: u.symout ∧
      u.src <:+ t.src ∧ t.src <:+ s.src ∧
      (k = 0 → t.snk = s.snk ∧ t.symout = s.symout ∧ t.src = s.src) ∧
      (u.snk.length - s.snk.length + 2 * s.params.numbits + 1 ≤ k → t.snk = u.snk ∧ t.symout = u.symout ∧ t.src = u.src)

/-- No rule reads what the spec leaves unspecified (70_reset_and_hazards.md R220, 93_implementation_defined.md U20 to U23): two states
that differ only there take similar steps, with equal responses, traces and stops. -/
def Obligations.UnspecifiedStateIsNeverRead : Prop :=
  ∀ s t : State, Similar s t → SimilarOutcome (step s) (step t)

/-! The model unit. -/

/-- BUILD on a good mapping (40_model_ops.md R110 to R112): entry `i` gets symbol `s_i` and the interval from the sum of the
frequencies before it to the sum up to it, in the order presented; n, total, valid and the response say so; nothing else changes. -/
def Obligations.BuildStoresTheModel : Prop :=
  ∀ (es : List EntryWord) (s : State), GoodMapping es →
    ∃ t, exec (.build es) s = .next t ∧ t = { s with mdl := t.mdl, rsp := t.rsp } ∧ t.mdl.valid = true ∧
      t.mdl.n.toNat = es.length ∧ ((t.mdl.total.toNat : Nat) : Int) = freqSum es ∧
      (∀ (i : Nat) (e : EntryWord), es[i]? = some e → ∃ a, t.mdl.tab[i]? = some a ∧ a.sym = e.sym ∧
        ((a.cl.toNat : Nat) : Int) = freqSum (es.take i) ∧ ((a.ch.toNat : Nat) : Int) = freqSum (es.take (i + 1))) ∧
      ∃ d1, t.rsp = some (okResponse t.mdl.total d1) ∧ d1.toNat = es.length

/-- InvalidModel (60_exceptions.md R181): raised by BUILD only, exactly on a mapping that is empty or has a frequency at most 0, a
symbol above 256, a symbol twice or a reserved bit set; the model store is left invalid and nothing else changes (but the model's
own counter of free values). -/
def Obligations.BadMappingLeavesNoModel : Prop :=
  (∀ (es : List EntryWord) (s : State), ¬ GoodMapping es →
    ∃ t, exec (.build es) s = .next t ∧ t.rsp = some (errorResponse .invalidModel) ∧ t.mdl.valid = false ∧
      t = { s with mdl := t.mdl, rsp := t.rsp, free := t.free }) ∧
  ∀ (i : Instr) (s t : State) (r : Response), exec i s = .next t → t.rsp = some r → r.status = .invalidModel →
    ∃ es, i = .build es ∧ ¬ GoodMapping es

/-- More than 257 entries always end in InvalidModel, by the pigeonhole principle (40_model_ops.md R112). -/
def Obligations.MoreThan257EntriesIsInvalid : Prop :=
  ∀ (es : List EntryWord) (s : State), 257 < es.length →
    ∃ t, exec (.build es) s = .next t ∧ t.rsp = some (errorResponse .invalidModel) ∧ t.mdl.valid = false

/-- The model invariant (10_state.md R25): every step keeps "the table has 257 slots and a valid model is a model". -/
def Obligations.StepKeepsTheModelInvariant : Prop :=
  ∀ s t : State, s.mdl.tab.length = 257 → (s.mdl.valid = true → ModelOk s.mdl) → step s = .next t →
    t.mdl.tab.length = 257 ∧ (t.mdl.valid = true → ModelOk t.mdl)

/-- TOTAL (40_model_ops.md R113): the total of the model, which is the sum of the frequencies `ch - cl` of its entries (R110). -/
def Obligations.TotalAnswersTheSum : Prop :=
  ∀ s : State,
    (s.mdl.valid = true → exec .total s = .next { s with rsp := some (okResponse s.mdl.total 0#40) }) ∧
    (s.mdl.valid = false → exec .total s = .next { s with rsp := some (errorResponse .noModel) }) ∧
    (s.mdl.valid = true → ModelOk s.mdl →
      s.mdl.total.toNat = (s.mdl.entries.map fun e => e.ch.toNat - e.cl.toNat).sum ∧ 1 ≤ s.mdl.total.toNat)

/-- RANGEOF (40_model_ops.md R114): the interval of the symbol's entry, UnknownSymbol when there is none, which changes no phase and
leaves the model valid; symbols above 256 are always unknown. -/
def Obligations.RangeofAnswersTheInterval : Prop :=
  ∀ (s : State) (sym : Sym), (s.mdl.valid = true → ModelOk s.mdl) →
    (s.mdl.valid = true → ∀ e ∈ s.mdl.entries, e.sym = sym →
      exec (.rangeof sym) s = .next { s with rsp := some (okResponse e.cl e.ch) }) ∧
    (s.mdl.valid = true → (∀ e ∈ s.mdl.entries, e.sym ≠ sym) →
      exec (.rangeof sym) s = .next { s with rsp := some (errorResponse .unknownSymbol) }) ∧
    (s.mdl.valid = true → 256 < sym.toNat →
      exec (.rangeof sym) s = .next { s with rsp := some (errorResponse .unknownSymbol) }) ∧
    (s.mdl.valid = false → exec (.rangeof sym) s = .next { s with rsp := some (errorResponse .noModel) })

/-- SYMAT (40_model_ops.md R115, 20_memory.md R51): below the total exactly one entry contains the value and its symbol is answered; a
boundary belongs to the entry it opens; 0 gives the first symbol, total - 1 the last; from the total on, ValueOutOfRange. -/
def Obligations.SymatAnswersTheSymbol : Prop :=
  ∀ (s : State) (v : Cum), (s.mdl.valid = true → ModelOk s.mdl) →
    (s.mdl.valid = true → v.toNat < s.mdl.total.toNat →
      (∃ e ∈ s.mdl.entries, e.cl.toNat ≤ v.toNat ∧ v.toNat < e.ch.toNat) ∧
      ∀ e ∈ s.mdl.entries, e.cl.toNat ≤ v.toNat → v.toNat < e.ch.toNat →
        exec (.symat v) s = .next { s with rsp := some (okResponse (BitVec.ofNat 40 e.sym.toNat) 0#40) }) ∧
    (s.mdl.valid = true → v = 0#40 → ∀ e, s.mdl.entries.head? = some e →
      exec (.symat v) s = .next { s with rsp := some (okResponse (BitVec.ofNat 40 e.sym.toNat) 0#40) }) ∧
    (s.mdl.valid = true → v.toNat + 1 = s.mdl.total.toNat → ∀ e, s.mdl.entries.getLast? = some e →
      exec (.symat v) s = .next { s with rsp := some (okResponse (BitVec.ofNat 40 e.sym.toNat) 0#40) }) ∧
    (s.mdl.valid = true → s.mdl.total.toNat ≤ v.toNat →
      exec (.symat v) s = .next { s with rsp := some (errorResponse .valueOutOfRange) }) ∧
    (s.mdl.valid = false → exec (.symat v) s = .next { s with rsp := some (errorResponse .noModel) })

/-! The helper functions and constants. -/

/-- The constants of an instance (00_scope.md R7). -/
def Obligations.InstanceConstants : Prop :=
  (∀ n : Nat, 1 ≤ n → mask n = 2 ^ n - 1 ∧ half n = 2 ^ (n - 1) ∧ quarter n = 2 ^ n / 4 ∧ maxTotal n = quarter n) ∧
  (∀ n : Nat, 2 ≤ n → quarter n = 2 ^ (n - 2)) ∧ quarter 1 = 0 ∧
  mask 17 = 131071 ∧ half 17 = 65536 ∧ quarter 17 = 32768 ∧ maxTotal 17 = 32768

/-- TopEq and Straddle (41_encoder_ops.md R133, R134): by bits and in numbers, false for a 1-bit register, and what the test comes
down to after the E1/E2 loop. -/
def Obligations.TopEqAndStraddleInNumbers : Prop :=
  ∀ n low high : Nat, 1 ≤ n → low ≤ mask n → high ≤ mask n →
    (topEq n low high = true ↔ low.testBit (n - 1) = high.testBit (n - 1)) ∧
    (topEq n low high = true ↔ (low < half n ↔ high < half n)) ∧
    (2 ≤ n → (straddle n low high = true ↔ low / 2 ^ (n - 2) = 0b01 ∧ high / 2 ^ (n - 2) = 0b10)) ∧
    (straddle n low high = true ↔ quarter n ≤ low ∧ low < half n ∧ half n ≤ high ∧ high < 3 * quarter n) ∧
    (n = 1 → straddle n low high = false) ∧
    (topEq n low high = false → low ≤ high →
      (straddle n low high = true ↔ 2 ≤ n ∧ low.testBit (n - 2) = true ∧ high.testBit (n - 2) = false))

/-- Bounds of Narrow (41_encoder_ops.md R141): from a renormalised interval and an accepted total, the interval narrows and is not
empty, and the widths of the intermediates hold. -/
def Obligations.NarrowStaysInside : Prop :=
  ∀ n low high cl ch total : Nat, Settled n low high → 1 ≤ total → total ≤ quarter n → cl < ch → ch ≤ total →
    quarter n + 2 ≤ high - low + 1 ∧ high - low + 1 ≤ 2 ^ n ∧ ch * (high - low + 1) ≤ 2 ^ (2 * n - 2) ∧
    low ≤ (narrow low high cl ch total).1 ∧ (narrow low high cl ch total).1 ≤ (narrow low high cl ch total).2 ∧
    (narrow low high cl ch total).2 ≤ high

/-- The value computation inverts Narrow (42_decoder_ops.md R162): for a code in the interval the value is below the total, and an
entry contains the value exactly when its narrowed interval contains the code. The premise `total ≤ range` is the model's own: it
keeps Narrow's subtraction of 1 within the naturals (log 9), and it holds for every total the coders accept. -/
def Obligations.ValueInvertsNarrow : Prop :=
  ∀ low code high cl ch total : Nat, low ≤ code → code ≤ high → cl < ch → ch ≤ total → total ≤ high - low + 1 →
    decodeValue low high code total < total ∧
    (cl ≤ decodeValue low high code total ∧ decodeValue low high code total < ch ↔
      (narrow low high cl ch total).1 ≤ code ∧ code ≤ (narrow low high cl ch total).2)

/-- Termination of the loops (41_encoder_ops.md R140; for DECODE by 42_decoder_ops.md R161 (a)): from any interval of n-bit numbers the
loops that ENCODE and DECODE execute end by their own tests, having run the E1/E2 loop and the E3 loop of the rules in numbers; every
iteration doubles `high - low + 1` exactly, so there are at most n iterations, both loops together, and n only from `low = high`.
DECODE's loops move the interval as ENCODE's do and read one bit per iteration. No other run of the two loops exists: the last clause
says the same of every one. -/
def Obligations.LoopsDoubleTheRange : Prop :=
  (∀ (n low high pend code : Nat) (src : List Bool), 1 ≤ n → low ≤ high → high ≤ mask n →
    ∃ (w1 w2 : EncWork) (v1 v2 : DecWork) (k1 k2 : Nat),
      encShiftLoop n n { low := low, high := high, pend := pend, bits := [] } = w1 ∧
      encFoldLoop n none n w1 = some w2 ∧
      topEq n w1.low w1.high = false ∧ topEq n w2.low w2.high = false ∧ straddle n w2.low w2.high = false ∧
      ShiftRun n low high pend w1.bits w1.low w1.high w1.pend k1 ∧
      FoldRun n w1.low w1.high w1.pend w2.low w2.high w2.pend k2 ∧ w2.bits = w1.bits ∧
      w1.high - w1.low + 1 = 2 ^ k1 * (high - low + 1) ∧ w2.high - w2.low + 1 = 2 ^ k2 * (w1.high - w1.low + 1) ∧
      Settled n w2.low w2.high ∧ k1 + k2 ≤ n ∧ (k1 + k2 = n → low = high) ∧
      decShiftLoop n n { low := low, high := high, code := code, src := src, reads := 0 } = v1 ∧
      decFoldLoop n n v1 = v2 ∧
      v1.low = w1.low ∧ v1.high = w1.high ∧ v1.reads = k1 ∧ v2.low = w2.low ∧ v2.high = w2.high ∧ v2.reads = k1 + k2) ∧
  ∀ (n low high pend l1 h1 p1 k1 l2 h2 p2 k2 : Nat) (bits : List Bool), 1 ≤ n → low ≤ high → high ≤ mask n →
    ShiftRun n low high pend bits l1 h1 p1 k1 → FoldRun n l1 h1 p1 l2 h2 p2 k2 →
    h1 - l1 + 1 = 2 ^ k1 * (high - low + 1) ∧ h2 - l2 + 1 = 2 ^ k2 * (h1 - l1 + 1) ∧
    l1 < half n ∧ half n ≤ h1 ∧ Settled n l2 h2 ∧ k1 + k2 ≤ n ∧ (k1 + k2 = n → low = high)

/-! The encoder unit. -/

/-- EINIT (41_encoder_ops.md R130): from every phase, with no look at the model. -/
def Obligations.EinitOpensTheEncoder : Prop :=
  ∀ s : State, exec .einit s =
    .next { s with enc := { low := 0, high := 2 ^ s.params.numbits - 1, pending := 0, phase := .active },
                   snk := s.snk ++ [.opened], rsp := some (okResponse 0#40 0#40) }

/-- ENCODE follows its rule (41_encoder_ops.md R131, R132, R138, R139): from an active encoder and an accepted model it narrows to the
symbol's share and runs the E1/E2 loop and then the E3 loop to their ends, in at most n iterations; it writes exactly the E1/E2 bits;
only when the final pending count does not fit its counter does it raise PendingOverflow, having written nothing. -/
def Obligations.EncodeNarrowsAndRenormalises : Prop :=
  ∀ (s : State) (sym : Sym) (e : TabEntry), s.Inv → s.enc.phase = .active → s.mdl.valid = true →
    e ∈ s.mdl.entries → e.sym = sym → s.mdl.total.toNat ≤ quarter s.params.numbits →
    ∃ (bits : List Bool) (l1 h1 p1 k1 l2 h2 p2 k2 : Nat),
      ShiftRun s.params.numbits
        (s.enc.low + e.cl.toNat * (s.enc.high - s.enc.low + 1) / s.mdl.total.toNat)
        (s.enc.low + e.ch.toNat * (s.enc.high - s.enc.low + 1) / s.mdl.total.toNat - 1)
        s.enc.pending bits l1 h1 p1 k1 ∧
      FoldRun s.params.numbits l1 h1 p1 l2 h2 p2 k2 ∧ k1 + k2 ≤ s.params.numbits ∧
      (PendingFits s.params.pendBits p2 →
        exec (.encode sym) s =
          .next { s with enc := { low := l2, high := h2, pending := p2, phase := .active },
                         snk := s.snk ++ bits.map (fun b => if b then SnkEvent.w1 else SnkEvent.w0),
                         rsp := some (okResponse 0#40 0#40) }) ∧
      (¬ PendingFits s.params.pendBits p2 → bits = [] ∧
        exec (.encode sym) s =
          .next { s with enc := { s.enc with phase := .fault }, rsp := some (errorResponse .pendingOverflow) })

/-- ENCODE completes (41_encoder_ops.md R131, R140, R143; 70_reset_and_hazards.md R240): with room for n more pending bits it answers
OK, stays active with a renormalised interval, appends at most `n + pending` bits to SNK and changes nothing else. -/
def Obligations.EncodeCompletes : Prop :=
  ∀ (s : State) (sym : Sym), s.Inv → s.enc.phase = .active → s.mdl.valid = true →
    (∃ e ∈ s.mdl.entries, e.sym = sym) → s.mdl.total.toNat ≤ quarter s.params.numbits →
    PendingFits s.params.pendBits (s.enc.pending + s.params.numbits) →
    ∃ (t : State) (bits : List Bool), exec (.encode sym) s = .next t ∧
      t = { s with enc := t.enc, snk := s.snk ++ bits.map (fun b => if b then SnkEvent.w1 else SnkEvent.w0),
                   rsp := some (okResponse 0#40 0#40) } ∧
      t.enc.phase = .active ∧ Settled s.params.numbits t.enc.low t.enc.high ∧
      bits.length ≤ s.params.numbits + s.enc.pending ∧ t.enc.pending ≤ s.enc.pending + s.params.numbits

/-- EFINISH (41_encoder_ops.md R142): one bit 1, then CLOSE; the interval and the pending count stay; elsewhere than in ACTIVE it is
refused with BadPhase. -/
def Obligations.EfinishWritesOneBitAndCloses : Prop :=
  ∀ s : State,
    (s.enc.phase = .active → exec .efinish s =
      .next { s with enc := { low := s.enc.low, high := s.enc.high, pending := s.enc.pending, phase := .done },
                     snk := s.snk ++ [.w1, .closed], rsp := some (okResponse 0#40 0#40) }) ∧
    (s.enc.phase ≠ .active → exec .efinish s = .next { s with rsp := some (errorResponse .badPhase) })

/-! The decoder unit. -/

/-- DINIT (42_decoder_ops.md R160, 20_memory.md R56, R57): exactly NUMBITS reads, the first bit to the top of code, bits past the end of
SRC being 0; from every phase, with no look at the model. -/
def Obligations.DinitFillsTheCode : Prop :=
  ∀ s : State, ∃ code : Nat,
    exec .dinit s =
      .next { s with dec := { low := 0, high := 2 ^ s.params.numbits - 1, code := code, phase := .active },
                     src := s.src.drop s.params.numbits, symout := s.symout ++ [.opened],
                     rsp := some (okResponse 0#40 0#40) } ∧
    code < 2 ^ s.params.numbits ∧
    ∀ j : Nat, j < s.params.numbits → code.testBit (s.params.numbits - 1 - j) = s.src[j]?.getD false

/-- The sentinel (42_decoder_ops.md R163): it is answered and nothing is written, emitted or read; DECODE again answers it again. -/
def Obligations.DecodeAnswersTheSentinel : Prop :=
  ∀ (s : State) (e : TabEntry), s.Inv → s.dec.phase = .active → s.mdl.valid = true →
    s.mdl.total.toNat ≤ quarter s.params.numbits → e ∈ s.mdl.entries → e.sym = 256#9 →
    e.cl.toNat ≤ ((s.dec.code - s.dec.low + 1) * s.mdl.total.toNat - 1) / (s.dec.high - s.dec.low + 1) →
    ((s.dec.code - s.dec.low + 1) * s.mdl.total.toNat - 1) / (s.dec.high - s.dec.low + 1) < e.ch.toNat →
    exec .decode s = .next { s with rsp := some (okResponse 256#40 0#40) } ∧
    exec .decode { s with rsp := some (okResponse 256#40 0#40) } = .next { s with rsp := some (okResponse 256#40 0#40) }

/-- DECODE follows its rule (42_decoder_ops.md R161, R162, R164, R165, R168): the entry that contains the value gives the symbol, which
is emitted and answered; the interval narrows to the entry's share and both loops run to their ends, in at most n iterations, one bit
of SRC read in each. -/
def Obligations.DecodeNarrowsAndRenormalises : Prop :=
  ∀ (s : State) (e : TabEntry), s.Inv → s.dec.phase = .active → s.mdl.valid = true →
    s.mdl.total.toNat ≤ quarter s.params.numbits → e ∈ s.mdl.entries → e.sym ≠ 256#9 →
    e.cl.toNat ≤ ((s.dec.code - s.dec.low + 1) * s.mdl.total.toNat - 1) / (s.dec.high - s.dec.low + 1) →
    ((s.dec.code - s.dec.low + 1) * s.mdl.total.toNat - 1) / (s.dec.high - s.dec.low + 1) < e.ch.toNat →
    ∃ (l1 h1 c1 k1 l2 h2 c2 k2 : Nat) (src1 : List Bool),
      DecShiftRun s.params.numbits
        (s.dec.low + e.cl.toNat * (s.dec.high - s.dec.low + 1) / s.mdl.total.toNat)
        (s.dec.low + e.ch.toNat * (s.dec.high - s.dec.low + 1) / s.mdl.total.toNat - 1)
        s.dec.code s.src l1 h1 c1 src1 k1 ∧
      DecFoldRun s.params.numbits l1 h1 c1 src1 l2 h2 c2 (s.src.drop (k1 + k2)) k2 ∧ k1 + k2 ≤ s.params.numbits ∧
      exec .decode s =
        .next { s with dec := { low := l2, high := h2, code := c2, phase := .active }, src := s.src.drop (k1 + k2),
                       symout := s.symout ++ [.sym e.sym],
                       rsp := some (okResponse (BitVec.ofNat 40 e.sym.toNat) 0#40) }

/-- The decoder is total (42_decoder_ops.md R167): in ACTIVE, with a valid model the coders accept, every DECODE answers OK with a symbol
of the model, whatever SRC holds, and leaves a state of which the same is true. -/
def Obligations.DecodeIsTotal : Prop :=
  ∀ s : State, s.Inv → s.dec.phase = .active → s.mdl.valid = true → s.mdl.total.toNat ≤ quarter s.params.numbits →
    ∃ (t : State) (e : TabEntry), exec .decode s = .next t ∧ e ∈ s.mdl.entries ∧
      t.rsp = some (okResponse (BitVec.ofNat 40 e.sym.toNat) 0#40) ∧
      t.Inv ∧ t.dec.phase = .active ∧ t.mdl = s.mdl ∧ t.params = s.params

/-! Errors. -/

/-- NoModel (60_exceptions.md R184): raised by TOTAL, RANGEOF, SYMAT, ENCODE, DECODE when there is no valid model, and by no other
command; a refusal, so an active session stays active. -/
def Obligations.NoModelIsARefusal : Prop :=
  (∀ s : State, s.mdl.valid = false →
    exec .total s = .next { s with rsp := some (errorResponse .noModel) } ∧
    (∀ x, exec (.rangeof x) s = .next { s with rsp := some (errorResponse .noModel) }) ∧
    (∀ v, exec (.symat v) s = .next { s with rsp := some (errorResponse .noModel) }) ∧
    (s.enc.phase = .active → ∀ x, exec (.encode x) s = .next { s with rsp := some (errorResponse .noModel) }) ∧
    (s.dec.phase = .active → exec .decode s = .next { s with rsp := some (errorResponse .noModel) })) ∧
  ∀ (i : Instr) (s t : State) (r : Response), exec i s = .next t → t.rsp = some r → r.status = .noModel →
    s.mdl.valid = false ∧ t = { s with rsp := some (errorResponse .noModel) } ∧
    (i = .total ∨ (∃ x, i = .rangeof x) ∨ (∃ v, i = .symat v) ∨ (∃ x, i = .encode x) ∨ i = .decode)

/-- BadPhase (60_exceptions.md R185): raised by ENCODE and EFINISH when the encoder is not ACTIVE and by DECODE when the decoder is not,
and by no other command; a refusal. -/
def Obligations.BadPhaseIsARefusal : Prop :=
  (∀ s : State, s.enc.phase ≠ .active →
    (∀ x, exec (.encode x) s = .next { s with rsp := some (errorResponse .badPhase) }) ∧
    exec .efinish s = .next { s with rsp := some (errorResponse .badPhase) }) ∧
  (∀ s : State, s.dec.phase ≠ .active → exec .decode s = .next { s with rsp := some (errorResponse .badPhase) }) ∧
  ∀ (i : Instr) (s t : State) (r : Response), exec i s = .next t → t.rsp = some r → r.status = .badPhase →
    t = { s with rsp := some (errorResponse .badPhase) } ∧
    ((s.enc.phase ≠ .active ∧ ((∃ x, i = .encode x) ∨ i = .efinish)) ∨ (s.dec.phase ≠ .active ∧ i = .decode))

/-- ValueOutOfRange (60_exceptions.md R186): raised by SYMAT when the value is at least the total, never by DECODE; a refusal. -/
def Obligations.ValueOutOfRangeIsARefusal : Prop :=
  (∀ (s : State) (v : Cum), s.mdl.valid = true → s.mdl.total.toNat ≤ v.toNat →
    exec (.symat v) s = .next { s with rsp := some (errorResponse .valueOutOfRange) }) ∧
  ∀ (i : Instr) (s t : State) (r : Response), exec i s = .next t → t.rsp = some r → r.status = .valueOutOfRange →
    ∃ v, i = .symat v ∧ s.mdl.total.toNat ≤ v.toNat ∧ t = { s with rsp := some (errorResponse .valueOutOfRange) }

/-- UnknownSymbol (60_exceptions.md R182): raised by RANGEOF and ENCODE when no entry of the valid model has the symbol, never by DECODE or
SYMAT; from ENCODE it is session-fatal, from RANGEOF it changes nothing. -/
def Obligations.UnknownSymbolIsFatalOnlyToEncode : Prop :=
  (∀ (s : State) (x : Sym), s.mdl.valid = true → (∀ e ∈ s.mdl.entries, e.sym ≠ x) →
    exec (.rangeof x) s = .next { s with rsp := some (errorResponse .unknownSymbol) } ∧
    (s.enc.phase = .active → exec (.encode x) s =
      .next { s with enc := { s.enc with phase := .fault }, rsp := some (errorResponse .unknownSymbol) })) ∧
  ∀ (i : Instr) (s t : State) (r : Response), exec i s = .next t → t.rsp = some r → r.status = .unknownSymbol →
    ∃ x, (i = .rangeof x ∨ i = .encode x) ∧ s.mdl.valid = true ∧ ∀ e ∈ s.mdl.entries, e.sym ≠ x

/-- PrecisionExhausted (60_exceptions.md R183, 41_encoder_ops.md R137): raised by ENCODE and DECODE exactly when the total is above
MAX_TOTAL, after the look-up of ENCODE's symbol, and by no other command; session-fatal. -/
def Obligations.PrecisionGuard : Prop :=
  (∀ (s : State) (x : Sym), s.enc.phase = .active → s.mdl.valid = true → (∃ e ∈ s.mdl.entries, e.sym = x) →
    quarter s.params.numbits < s.mdl.total.toNat → exec (.encode x) s =
      .next { s with enc := { s.enc with phase := .fault }, rsp := some (errorResponse .precisionExhausted) }) ∧
  (∀ s : State, s.dec.phase = .active → s.mdl.valid = true → quarter s.params.numbits < s.mdl.total.toNat →
    exec .decode s =
      .next { s with dec := { s.dec with phase := .fault }, rsp := some (errorResponse .precisionExhausted) }) ∧
  ∀ (i : Instr) (s t : State) (r : Response), exec i s = .next t → t.rsp = some r → r.status = .precisionExhausted →
    ((∃ x, i = .encode x) ∨ i = .decode) ∧ s.mdl.valid = true ∧ quarter s.params.numbits < s.mdl.total.toNat

/-- What each error changes, and nothing else (60_exceptions.md R188, R189): no trace, no bit of SRC, no register but the one the table
names. The unspecified contents after InvalidModel and the model's own counter are left open. -/
def Obligations.ErrorsArePrecise : Prop :=
  ∀ (i : Instr) (s t : State) (r : Response), exec i s = .next t → t.rsp = some r → r.status ≠ .ok →
    r = errorResponse r.status ∧
    match r.status with
    | .ok => False
    | .illegalCommand => False
    | .invalidModel =>
      (∃ es, i = .build es) ∧ t.mdl.valid = false ∧ t = { s with mdl := t.mdl, free := t.free, rsp := some r }
    | .unknownSymbol =>
      ((∃ x, i = .encode x) ∧ t = { s with enc := { s.enc with phase := .fault }, rsp := some r }) ∨
      ((∃ x, i = .rangeof x) ∧ t = { s with rsp := some r })
    | .precisionExhausted =>
      ((∃ x, i = .encode x) ∧ t = { s with enc := { s.enc with phase := .fault }, rsp := some r }) ∨
      (i = .decode ∧ t = { s with dec := { s.dec with phase := .fault }, rsp := some r })
    | .pendingOverflow => (∃ x, i = .encode x) ∧ t = { s with enc := { s.enc with phase := .fault }, rsp := some r }
    | .noModel => t = { s with rsp := some r }
    | .badPhase => t = { s with rsp := some r }
    | .valueOutOfRange => t = { s with rsp := some r }

/-- PendingOverflow (60_exceptions.md R187, 41_encoder_ops.md R139): only from ENCODE, only with a finite counter, session-fatal, and
precise: nothing has been written. -/
def Obligations.PendingOverflowNeedsAFiniteCounter : Prop :=
  ∀ (i : Instr) (s t : State) (r : Response), exec i s = .next t → t.rsp = some r → r.status = .pendingOverflow →
    (∃ x, i = .encode x) ∧ t = { s with enc := { s.enc with phase := .fault }, rsp := some r } ∧
    ∃ b, s.params.pendBits = some b ∧ (s.enc.pending < 2 ^ b → 2 ^ b ≤ s.enc.pending + s.params.numbits)

/-- Responses (30_encoding.md R92): every command, in every state that meets the invariants, runs and produces one; with an error its data are 0, with OK they are those of the
table; packed, the status is in bits 83 to 80, d1 in 79 to 40, d0 in 39 to 0. -/
def Obligations.EveryCommandResponds : Prop :=
  (∀ (i : Instr) (s : State), s.Inv → ∃ t r, exec i s = .next t ∧ t.rsp = some r) ∧
  (∀ (i : Instr) (s t : State), exec i s = .next t →
    ∃ r, t.rsp = some r ∧ (r.status ≠ .ok → r.d0 = 0#40 ∧ r.d1 = 0#40) ∧
      (r.status = .ok →
        match i with
        | .build _ => r.d0 = t.mdl.total ∧ r.d1.toNat = t.mdl.n.toNat
        | .total => r.d0 = s.mdl.total ∧ r.d1 = 0#40
        | .rangeof x => ∃ e ∈ s.mdl.entries, e.sym = x ∧ r.d0 = e.cl ∧ r.d1 = e.ch
        | .symat v => (∃ e ∈ s.mdl.entries, e.cl.toNat ≤ v.toNat ∧ v.toNat < e.ch.toNat ∧ r.d0.toNat = e.sym.toNat) ∧
            r.d1 = 0#40
        | .einit => r.d0 = 0#40 ∧ r.d1 = 0#40
        | .encode _ => r.d0 = 0#40 ∧ r.d1 = 0#40
        | .efinish => r.d0 = 0#40 ∧ r.d1 = 0#40
        | .dinit => r.d0 = 0#40 ∧ r.d1 = 0#40
        | .decode => r.d1 = 0#40 ∧
            ((r.d0 = 256#40 ∧ t.symout = s.symout) ∨
              ∃ x : Sym, x ≠ 256#9 ∧ r.d0.toNat = x.toNat ∧ t.symout = s.symout ++ [.sym x]))) ∧
  ∀ r : Response, r.packed.extractLsb' 80 4 = r.status.code ∧ r.packed.extractLsb' 40 40 = r.d1 ∧
    r.packed.extractLsb' 0 40 = r.d0

/-- The status codes (30_encoding.md R93): their numbers, and which command raises which; the codes 9 to 15 are never produced. -/
def Obligations.StatusesOfEachCommand : Prop :=
  (Status.ok.code = 0#4 ∧ Status.invalidModel.code = 1#4 ∧ Status.unknownSymbol.code = 2#4 ∧
    Status.precisionExhausted.code = 3#4 ∧ Status.noModel.code = 4#4 ∧ Status.badPhase.code = 5#4 ∧
    Status.valueOutOfRange.code = 6#4 ∧ Status.pendingOverflow.code = 7#4 ∧ Status.illegalCommand.code = 8#4) ∧
  (∀ st : Status, st.code.toNat ≤ 8) ∧
  ∀ (i : Instr) (s t : State) (r : Response), exec i s = .next t → t.rsp = some r →
    match i with
    | .build _ => r.status ∈ [Status.ok, .invalidModel]
    | .total => r.status ∈ [Status.ok, .noModel]
    | .rangeof _ => r.status ∈ [Status.ok, .noModel, .unknownSymbol]
    | .symat _ => r.status ∈ [Status.ok, .noModel, .valueOutOfRange]
    | .einit => r.status = .ok
    | .encode _ => r.status ∈ [Status.ok, .badPhase, .noModel, .unknownSymbol, .precisionExhausted, .pendingOverflow]
    | .efinish => r.status ∈ [Status.ok, .badPhase]
    | .dinit => r.status = .ok
    | .decode => r.status ∈ [Status.ok, .badPhase, .noModel, .precisionExhausted]

/-- The lifecycle (10_state.md R29, R32): each phase is entered only by its own command: ACTIVE by EINIT or DINIT, DONE by EFINISH, FAULT
by a failing ENCODE or DECODE; IDLE is entered by no command. -/
def Obligations.PhasesAreEnteredOnlyByTheirCommands : Prop :=
  ∀ (i : Instr) (s t : State), exec i s = .next t →
    (t.enc.phase ≠ s.enc.phase →
      (t.enc.phase = .active ∧ i = .einit) ∨ (t.enc.phase = .done ∧ i = .efinish ∧ s.enc.phase = .active) ∨
      (t.enc.phase = .fault ∧ (∃ x, i = .encode x) ∧ s.enc.phase = .active ∧
        ∃ r, t.rsp = some r ∧ (r.status = .unknownSymbol ∨ r.status = .precisionExhausted ∨ r.status = .pendingOverflow))) ∧
    (t.dec.phase ≠ s.dec.phase →
      (t.dec.phase = .active ∧ i = .dinit) ∨
      (t.dec.phase = .fault ∧ i = .decode ∧ s.dec.phase = .active ∧
        ∃ r, t.rsp = some r ∧ r.status = .precisionExhausted))

/-- Leaving FAULT (60_exceptions.md R194): a unit leaves it only by its own constructor or by reset, and the store becomes valid again only
by a BUILD that responds OK; a reset leaves both phases IDLE; ENCODE, EFINISH and DECODE are refused in FAULT; a new session starts
from the constructor's values. -/
def Obligations.FaultIsLeftOnlyByConstruction : Prop :=
  (∀ s t : State, step s = .next t →
    (s.enc.phase = .fault → t.enc.phase ≠ .fault →
      (∃ rest, fetch s.port = .command .einit rest) ∨ HostResets s.port) ∧
    (s.dec.phase = .fault → t.dec.phase ≠ .fault →
      (∃ rest, fetch s.port = .command .dinit rest) ∨ HostResets s.port) ∧
    (s.mdl.valid = false → t.mdl.valid = true →
      ∃ es rest r, fetch s.port = .command (.build es) rest ∧ t.rsp = some r ∧ r.status = .ok) ∧
    (HostResets s.port → t.enc.phase = .idle ∧ t.dec.phase = .idle ∧ t.mdl.valid = false ∧ t.rsp = none)) ∧
  (∀ s : State, s.enc.phase = .fault →
    (∀ x, exec (.encode x) s = .next { s with rsp := some (errorResponse .badPhase) }) ∧
    exec .efinish s = .next { s with rsp := some (errorResponse .badPhase) }) ∧
  (∀ s : State, s.dec.phase = .fault → exec .decode s = .next { s with rsp := some (errorResponse .badPhase) }) ∧
  (∀ s : State, ∃ t, exec .einit s = .next t ∧
    t.enc = { low := 0, high := 2 ^ s.params.numbits - 1, pending := 0, phase := .active }) ∧
  ∀ s : State, ∃ t, exec .dinit s = .next t ∧ t.dec.low = 0 ∧ t.dec.high = 2 ^ s.params.numbits - 1 ∧
    t.dec.phase = .active

/-! Frames. -/

/-- Frame of BUILD, TOTAL, RANGEOF, SYMAT: they read and write nothing of ENC, DEC, SNK, SRC, SYMOUT, and only BUILD writes the model
store (40_model_ops.md R112 to R115; 10_state.md R24; 20_memory.md R61). -/
def Obligations.ModelCommandsFrame : Prop :=
  ∀ (i : Instr) (s t : State),
    ((∃ es, i = .build es) ∨ i = .total ∨ (∃ x, i = .rangeof x) ∨ (∃ v, i = .symat v)) → exec i s = .next t →
    t.params = s.params ∧ t.enc = s.enc ∧ t.dec = s.dec ∧ t.snk = s.snk ∧ t.src = s.src ∧ t.symout = s.symout ∧
    t.port = s.port ∧ ((∀ es, i ≠ .build es) → t.mdl = s.mdl ∧ t.free = s.free)

/-- Frame of EINIT, ENCODE, EFINISH: nothing of MDL, DEC, SRC, SYMOUT changes, SNK only grows at its end, and EFINISH leaves the interval
and the pending count (41_encoder_ops.md R130, R131, R142; 60_exceptions.md R188). -/
def Obligations.EncoderCommandsFrame : Prop :=
  ∀ (i : Instr) (s t : State), (i = .einit ∨ (∃ x, i = .encode x) ∨ i = .efinish) → exec i s = .next t →
    t.params = s.params ∧ t.mdl = s.mdl ∧ t.dec = s.dec ∧ t.src = s.src ∧ t.symout = s.symout ∧ t.port = s.port ∧
    t.free = s.free ∧ s.snk <+: t.snk ∧
    (i = .efinish → t.enc.low = s.enc.low ∧ t.enc.high = s.enc.high ∧ t.enc.pending = s.enc.pending)

/-- Frame of DINIT, DECODE: nothing of MDL, ENC, SNK changes, SYMOUT only grows at its end, by at most one event, and SRC only loses bits
at its front (42_decoder_ops.md R160, R161; 60_exceptions.md R188). -/
def Obligations.DecoderCommandsFrame : Prop :=
  ∀ (i : Instr) (s t : State), (i = .dinit ∨ i = .decode) → exec i s = .next t →
    t.params = s.params ∧ t.mdl = s.mdl ∧ t.enc = s.enc ∧ t.snk = s.snk ∧ t.port = s.port ∧ t.free = s.free ∧
    (t.symout = s.symout ∨ ∃ ev, t.symout = s.symout ++ [ev]) ∧ ∃ k, t.src = s.src.drop k

/-! Whole-machine rules and invariants. -/

/-- The traces are append-only through every step, resets included; SRC is changed by the block only at its front; the constants of the
instance never change (10_state.md R28, R33 to R35; 70_reset_and_hazards.md R220, R221). -/
def Obligations.TracesOnlyGrow : Prop :=
  ∀ s t : State, step s = .next t →
    s.snk <+: t.snk ∧ s.symout <+: t.symout ∧ t.params = s.params ∧
    ((∃ k, t.src = s.src.drop k) ∨ ∃ bits rest, s.port = .loadSource bits :: rest ∧ t.src = bits)

/-- The instance at power-on meets the invariants. The unspecified registers' zeros (log 2) are the model's choice and only their widths
matter here. -/
def Obligations.PowerOnMeetsTheInvariants : Prop :=
  ∀ p : Params, (State.powerOn p).Inv ∧ (State.powerOn p).SinkInv

/-- The interval invariants (10_state.md R38, R39): every step, whatever the command and its response, keeps them, together with the
model invariant and the widths of the registers. -/
def Obligations.StepKeepsTheIntervals : Prop :=
  ∀ s t : State, s.Inv → step s = .next t → t.Inv ∧
    (t.enc.phase = .active ∨ t.enc.phase = .done → t.enc.low ≤ t.enc.high ∧ t.enc.high ≤ mask t.params.numbits) ∧
    (t.dec.phase = .active → t.dec.low ≤ t.dec.high ∧ t.dec.high ≤ mask t.params.numbits)

/-- No run stops: from a state that meets the invariants a step never refuses and never faults, but for the host move the spec gives no
meaning (42_decoder_ops.md R167; 60_exceptions.md R180; log 6). -/
def Obligations.StepNeverStops : Prop :=
  ∀ s : State, s.Inv →
    (∀ r, step s ≠ .refused r) ∧ ∀ r, step s = .fault r → r = .sourceLoadedWhileBusy ∧ ∃ rest, fetch s.port = .waiting rest

/-- The BitSink protocol (20_memory.md R54, R55; 10_state.md R29): through every step, resets in the middle of a command included, bits
and CLOSE only ever reach an open sink, so no closed sink is closed again. -/
def Obligations.StepKeepsTheSinkProtocol : Prop :=
  ∀ s t : State, s.SinkInv → step s = .next t → t.SinkInv

/-- The sentinel is never emitted, and what is emitted is a symbol of the model, by DECODE (10_state.md R35, 20_memory.md R58,
42_decoder_ops.md R163). -/
def Obligations.SentinelIsNeverEmitted : Prop :=
  (∀ s t : State, (∀ x, SymEvent.sym x ∈ s.symout → x ≠ 256#9) → step s = .next t →
    ∀ x, SymEvent.sym x ∈ t.symout → x ≠ 256#9) ∧
  ∀ (i : Instr) (s t : State) (x : Sym), exec i s = .next t → t.symout = s.symout ++ [.sym x] →
    i = .decode ∧ x ≠ 256#9 ∧ ∃ e ∈ s.mdl.entries, e.sym = x

/-- Determinism of encoding (41_encoder_ops.md R143): the same symbols under the same model give the same bits and the same responses,
whatever the block did before. -/
def Obligations.EncodingIsDeterministic : Prop :=
  ∀ (s1 s2 : State) (syms : List Sym), s1.params = s2.params → s1.mdl = s2.mdl →
    ∃ t1 t2 rs, execAll ([Instr.einit] ++ syms.map (fun x => Instr.encode x) ++ [Instr.efinish]) s1 = some (t1, rs) ∧
      execAll ([Instr.einit] ++ syms.map (fun x => Instr.encode x) ++ [Instr.efinish]) s2 = some (t2, rs) ∧
      sessionStream t1.snk = sessionStream t2.snk ∧
      t1.snk.drop s1.snk.length = t2.snk.drop s2.snk.length

/-- THE ROUND TRIP (42_decoder_ops.md R166): for every instance, every model and every sequence of symbols other than the sentinel, if
EINIT, the ENCODEs, ENCODE of the sentinel and EFINISH all respond OK, then a block of the same instance with the same model, its SRC
holding the session's stream followed by any number of zeros, answers DINIT and as many DECODEs as there are symbols and one more with
exactly the symbols and then the sentinel, and emits exactly the symbols. -/
def Obligations.RoundTrip : Prop :=
  ∀ (s t d : State) (rs : List (Option Response)) (syms : List Sym) (zeros : Nat),
    s.mdl.valid = true → ModelOk s.mdl → (∀ x ∈ syms, x ≠ 256#9) →
    execAll ([Instr.einit] ++ syms.map (fun x => Instr.encode x) ++ [Instr.encode 256#9, Instr.efinish]) s = some (t, rs) →
    (∀ r ∈ rs, r = some (okResponse 0#40 0#40)) →
    d.params = s.params → d.mdl = s.mdl → d.src = sessionStream t.snk ++ List.replicate zeros false →
    ∃ u, execAll ([Instr.dinit] ++ List.replicate (syms.length + 1) Instr.decode) d =
        some (u, [some (okResponse 0#40 0#40)] ++
          syms.map (fun x => some (okResponse (BitVec.ofNat 40 x.toNat) 0#40)) ++ [some (okResponse 256#40 0#40)]) ∧
      u.symout = d.symout ++ [.opened] ++ syms.map (fun x => SymEvent.sym x)
end

