-- ==== Sys2Proof/Laws/Assembler.lean ====
section
/-! SUPPORT. What the assembler's operand checks answer (30_encoding.md R94). -/

namespace Sys2Proof.Machine

theorem asmSym_of_le {s : Nat} (h : s ≤ 511) : asmSym s = some (BitVec.ofNat 9 s) := if_pos h

theorem asmSym_of_gt {s : Nat} (h : 511 < s) : asmSym s = none := if_neg (by omega)

theorem asmValue_of_lt {v : Nat} (h : v < 2 ^ 40) : asmValue v = some (BitVec.ofNat 40 v) := if_pos h

theorem asmValue_of_ge {v : Nat} (h : 2 ^ 40 ≤ v) : asmValue v = none := if_neg (by omega)

theorem asmPair_of_fits {p : Nat × Int} (hs : p.1 ≤ 511) (hf : -(2 ^ 31) ≤ p.2 ∧ p.2 < 2 ^ 31) :
    asmPair p = some { resv := 0#23, sym := BitVec.ofNat 9 p.1, freq := BitVec.ofInt 32 p.2 } := by
  simp only [asmPair, asmSym_of_le hs, if_pos hf]

theorem asmPair_of_not_fits {p : Nat × Int} (h : 511 < p.1 ∨ p.2 < -(2 ^ 31) ∨ 2 ^ 31 ≤ p.2) : asmPair p = none := by
  by_cases hs : p.1 ≤ 511
  · simp only [asmPair, asmSym_of_le hs]
    exact if_neg (by omega)
  · simp only [asmPair, asmSym_of_gt (Nat.lt_of_not_le hs)]

/-- Operands that all pass give all their values, in order. -/
theorem asmAll_eq_some {α β : Type} {f : α → Option β} (g : α → β) :
    ∀ {l : List α}, (∀ x ∈ l, f x = some (g x)) → asmAll f l = some (l.map g)
  | [], _ => rfl
  | x :: rest, h => by
    simp [asmAll, h x (.head _), asmAll_eq_some g fun y hy => h y (.tail _ hy)]

/-- One operand that fails makes the line an error. -/
theorem asmAll_eq_none {α β : Type} {f : α → Option β} : ∀ {l : List α}, (∃ x ∈ l, f x = none) → asmAll f l = none
  | x :: rest, h => by
    cases hx : f x with
    | none => simp [asmAll, hx]
    | some y =>
      have : asmAll f rest = none := by
        obtain ⟨z, hz, hn⟩ := h
        rcases List.mem_cons.mp hz with rfl | hz
        · rw [hx] at hn; cases hn
        · exact asmAll_eq_none ⟨z, hz, hn⟩
      simp [asmAll, hx, this]

end Sys2Proof.Machine
end

