-- ==== Sys2Proof/Laws/Decode.lean ====
section
/-! SUPPORT. The fields of a laid-out word. -/

namespace Sys2Proof

/-- An entry word reads back as it was laid out (30_encoding.md R86). -/
@[simp] theorem decodeEntry_encodeEntry (e : EntryWord) : decodeEntry (encodeEntry e) = e := by
  obtain ⟨r, s, f⟩ := e
  simp only [decodeEntry, encodeEntry, EntryWord.mk.injEq]
  refine ⟨?_, ?_, ?_⟩ <;> ext i hi <;> simp (disch := omega) [BitVec.getElem_extractLsb']
  · intros; omega
  · rintro (⟨_, _⟩ | ⟨_, _⟩) <;> omega

/-- Every 64-bit word is the layout of the entry word read from it: an entry word has no illegal content. -/
@[simp] theorem encodeEntry_decodeEntry (x : Word) : encodeEntry (decodeEntry x) = x := by
  apply BitVec.eq_of_getLsbD_eq
  intro i hi
  simp only [decodeEntry, encodeEntry, BitVec.getLsbD_or, BitVec.getLsbD_shiftLeft, BitVec.getLsbD_setWidth,
    BitVec.getLsbD_extractLsb']
  by_cases h1 : i < 32
  · simp [h1, hi, show i < 41 by omega]
  · by_cases h2 : i < 41
    · simp [h1, h2, hi, show i - 32 < 9 by omega, show 32 + (i - 32) = i by omega]
      omega
    · simp [h1, h2, hi, show i - 41 < 23 by omega, show ¬ (i - 32 < 9) by omega, show 41 + (i - 41) = i by omega]
      omega
/-- A field that fits in the low `k` bits does not touch the bits above them. -/
theorem setWidth_and_high {k : Nat} (x : BitVec k) : x.setWidth 64 &&& (BitVec.allOnes 64 <<< k) = 0#64 := by
  apply BitVec.eq_of_getLsbD_eq
  intro i hi
  simp only [BitVec.getLsbD_and, BitVec.getLsbD_setWidth, BitVec.getLsbD_shiftLeft, BitVec.getLsbD_allOnes,
    BitVec.getLsbD_zero]
  by_cases h : i < k
  · simp [h]
  · simp [BitVec.getLsbD_of_ge x i (by omega)]

/-- A row's match word with an operand in its low `k` bits selects the row, whatever the operand. -/
theorem operand_selects_row {k : Nat} (m : Word) (x : BitVec k) (hm : m &&& (BitVec.allOnes 64 <<< k) = m) :
    (m ||| x.setWidth 64) &&& (BitVec.allOnes 64 <<< k) = m := by
  rw [BitVec.and_comm, BitVec.and_or_distrib_left, BitVec.and_comm, hm, BitVec.and_comm, setWidth_and_high]
  simp

theorem opOfCode_code (o : Op) : opOfCode o.code = some o := by cases o <;> decide

/-- An operation is read from its own code only. -/
theorem opOfCode_eq_some {c : BitVec 8} {o : Op} (h : opOfCode c = some o) : c = o.code := by
  have := List.find?_some h
  exact (by simpa using this : o.code = c).symm

end Sys2Proof
end

