-- ==== Sys2Proof/Laws/State.lean ====
section
/-! SUPPORT. The fields of the state after each shared operation, so that no proof unfolds a record update. -/

namespace Sys2Proof.Machine

@[simp] theorem transfer_params (s : State) (x : Transfer) : (s.transfer x).params = s.params := by cases x <;> rfl
@[simp] theorem transfer_mdl (s : State) (x : Transfer) : (s.transfer x).mdl = s.mdl := by cases x <;> rfl
@[simp] theorem transfer_enc (s : State) (x : Transfer) : (s.transfer x).enc = s.enc := by cases x <;> rfl
@[simp] theorem transfer_dec (s : State) (x : Transfer) : (s.transfer x).dec = s.dec := by cases x <;> rfl
@[simp] theorem transfer_rsp (s : State) (x : Transfer) : (s.transfer x).rsp = s.rsp := by cases x <;> rfl
@[simp] theorem transfer_port (s : State) (x : Transfer) : (s.transfer x).port = s.port := by cases x <;> rfl
@[simp] theorem transfer_free (s : State) (x : Transfer) : (s.transfer x).free = s.free := by cases x <;> rfl

@[simp] theorem transfers_nil (s : State) : s.transfers [] = s := rfl
@[simp] theorem transfers_cons (s : State) (x : Transfer) (xs : List Transfer) :
    s.transfers (x :: xs) = (s.transfer x).transfers xs := rfl

theorem transfers_append (s : State) (xs ys : List Transfer) :
    s.transfers (xs ++ ys) = (s.transfers xs).transfers ys := by
  simp [State.transfers, List.foldl_append]

@[simp] theorem transfers_params (s : State) (xs : List Transfer) : (s.transfers xs).params = s.params := by
  induction xs generalizing s with
  | nil => rfl
  | cons x xs ih => rw [transfers_cons, ih, transfer_params]

@[simp] theorem transfers_mdl (s : State) (xs : List Transfer) : (s.transfers xs).mdl = s.mdl := by
  induction xs generalizing s with
  | nil => rfl
  | cons x xs ih => rw [transfers_cons, ih, transfer_mdl]

@[simp] theorem transfers_enc (s : State) (xs : List Transfer) : (s.transfers xs).enc = s.enc := by
  induction xs generalizing s with
  | nil => rfl
  | cons x xs ih => rw [transfers_cons, ih, transfer_enc]

@[simp] theorem transfers_dec (s : State) (xs : List Transfer) : (s.transfers xs).dec = s.dec := by
  induction xs generalizing s with
  | nil => rfl
  | cons x xs ih => rw [transfers_cons, ih, transfer_dec]

@[simp] theorem transfers_rsp (s : State) (xs : List Transfer) : (s.transfers xs).rsp = s.rsp := by
  induction xs generalizing s with
  | nil => rfl
  | cons x xs ih => rw [transfers_cons, ih, transfer_rsp]

@[simp] theorem transfers_port (s : State) (xs : List Transfer) : (s.transfers xs).port = s.port := by
  induction xs generalizing s with
  | nil => rfl
  | cons x xs ih => rw [transfers_cons, ih, transfer_port]

@[simp] theorem transfers_free (s : State) (xs : List Transfer) : (s.transfers xs).free = s.free := by
  induction xs generalizing s with
  | nil => rfl
  | cons x xs ih => rw [transfers_cons, ih, transfer_free]

@[simp] theorem hardReset_params (s : State) : s.hardReset.params = s.params := rfl
@[simp] theorem hardReset_mdl (s : State) : s.hardReset.mdl = noModelStore s.free := rfl
@[simp] theorem hardReset_encPhase (s : State) : s.hardReset.enc.phase = .idle := rfl
@[simp] theorem hardReset_decPhase (s : State) : s.hardReset.dec.phase = .idle := rfl
@[simp] theorem hardReset_snk (s : State) : s.hardReset.snk = s.snk := rfl
@[simp] theorem hardReset_src (s : State) : s.hardReset.src = s.src := rfl
@[simp] theorem hardReset_symout (s : State) : s.hardReset.symout = s.symout := rfl
@[simp] theorem hardReset_rsp (s : State) : s.hardReset.rsp = none := rfl
@[simp] theorem hardReset_port (s : State) : s.hardReset.port = s.port := rfl

@[simp] theorem noModelStore_valid (draw : Nat) : (noModelStore draw).valid = false := rfl
@[simp] theorem freeTable_length (draw : Nat) : (freeTable draw).length = modelCap := by simp [freeTable]
@[simp] theorem noModelStore_tab_length (draw : Nat) : (noModelStore draw).tab.length = modelCap := freeTable_length draw

@[simp] theorem invalidateModel_params (s : State) : s.invalidateModel.params = s.params := rfl
@[simp] theorem invalidateModel_mdl (s : State) : s.invalidateModel.mdl = noModelStore s.free := rfl
@[simp] theorem invalidateModel_enc (s : State) : s.invalidateModel.enc = s.enc := rfl
@[simp] theorem invalidateModel_dec (s : State) : s.invalidateModel.dec = s.dec := rfl
@[simp] theorem invalidateModel_snk (s : State) : s.invalidateModel.snk = s.snk := rfl
@[simp] theorem invalidateModel_src (s : State) : s.invalidateModel.src = s.src := rfl
@[simp] theorem invalidateModel_symout (s : State) : s.invalidateModel.symout = s.symout := rfl
@[simp] theorem invalidateModel_rsp (s : State) : s.invalidateModel.rsp = s.rsp := rfl
@[simp] theorem invalidateModel_port (s : State) : s.invalidateModel.port = s.port := rfl

@[simp] theorem loadSource_src (s : State) (bits : List Bool) : (s.loadSource bits).src = bits := rfl
@[simp] theorem loadSource_mdl (s : State) (bits : List Bool) : (s.loadSource bits).mdl = s.mdl := rfl
@[simp] theorem loadSource_enc (s : State) (bits : List Bool) : (s.loadSource bits).enc = s.enc := rfl
@[simp] theorem loadSource_dec (s : State) (bits : List Bool) : (s.loadSource bits).dec = s.dec := rfl
@[simp] theorem loadSource_params (s : State) (bits : List Bool) : (s.loadSource bits).params = s.params := rfl
@[simp] theorem loadSource_snk (s : State) (bits : List Bool) : (s.loadSource bits).snk = s.snk := rfl
@[simp] theorem loadSource_symout (s : State) (bits : List Bool) : (s.loadSource bits).symout = s.symout := rfl
@[simp] theorem loadSource_rsp (s : State) (bits : List Bool) : (s.loadSource bits).rsp = s.rsp := rfl
@[simp] theorem loadSource_port (s : State) (bits : List Bool) : (s.loadSource bits).port = s.port := rfl

@[simp] theorem completed_params (p : Plan) : p.completed.params = p.regs.params := by simp [Plan.completed]
@[simp] theorem completed_mdl (p : Plan) : p.completed.mdl = p.regs.mdl := by simp [Plan.completed]
@[simp] theorem completed_enc (p : Plan) : p.completed.enc = p.regs.enc := by simp [Plan.completed]
@[simp] theorem completed_dec (p : Plan) : p.completed.dec = p.regs.dec := by simp [Plan.completed]
@[simp] theorem completed_port (p : Plan) : p.completed.port = p.regs.port := by simp [Plan.completed]
@[simp] theorem completed_free (p : Plan) : p.completed.free = p.regs.free := by simp [Plan.completed]
@[simp] theorem completed_rsp (p : Plan) : p.completed.rsp = some p.rsp := rfl
@[simp] theorem completed_snk (p : Plan) : p.completed.snk = (p.regs.transfers p.xfers).snk := rfl
@[simp] theorem completed_src (p : Plan) : p.completed.src = (p.regs.transfers p.xfers).src := rfl
@[simp] theorem completed_symout (p : Plan) : p.completed.symout = (p.regs.transfers p.xfers).symout := rfl

end Sys2Proof.Machine
end

