-- ==== Sys2Proof/Laws/Ops.lean ====
section
/-! SUPPORT. What each shared operation can do, said once: transfers in a row, running a plan to completion, abandoning it, raising
an error, fetching. -/

namespace Sys2Proof.Machine

/-- A row of BitSink events only appends them to SNK. -/
theorem transfers_snkEvents (s : State) (es : List SnkEvent) :
    s.transfers (es.map .snk) = { s with snk := s.snk ++ es } := by
  induction es generalizing s with
  | nil => simp
  | cons e es ih => simp [ih, State.transfer]

/-- A row of written bits only appends their events to SNK. -/
theorem transfers_bits (s : State) (bits : List Bool) :
    s.transfers (bits.map fun b => .snk (SnkEvent.ofBit b)) = { s with snk := s.snk ++ bits.map SnkEvent.ofBit } := by
  have h := transfers_snkEvents s (bits.map SnkEvent.ofBit)
  rwa [List.map_map] at h

theorem srcRead_snd (src : List Bool) : (srcRead src).2 = src.tail := by cases src <;> rfl

theorem srcRead_fst (src : List Bool) : (srcRead src).1 = src.headD false := by cases src <;> rfl

/-- A row of `k` reads only removes the first `k` bits of SRC. -/
theorem transfers_reads (s : State) (k : Nat) :
    s.transfers (List.replicate k .srcRead) = { s with src := s.src.drop k } := by
  induction k generalizing s with
  | zero => simp
  | succ k ih => simp [List.replicate_succ, ih, State.transfer, srcRead_snd]

/-- Whatever transfers are made, SNK and SYMOUT only grow at their ends and SRC only loses bits at its front. -/
theorem transfers_traces (s : State) (xs : List Transfer) :
    s.snk <+: (s.transfers xs).snk ∧ s.symout <+: (s.transfers xs).symout ∧
      ∃ k, (s.transfers xs).src = s.src.drop k := by
  induction xs generalizing s with
  | nil => exact ⟨List.prefix_refl _, List.prefix_refl _, 0, rfl⟩
  | cons x xs ih =>
    obtain ⟨h1, h2, k, h3⟩ := ih (s.transfer x)
    rw [transfers_cons]
    cases x with
    | snk e => exact ⟨(List.prefix_append _ _).trans h1, h2, k, h3⟩
    | srcRead => exact ⟨h1, h2, k + 1, by rw [h3]; simp [State.transfer, srcRead_snd]⟩
    | sym e => exact ⟨h1, (List.prefix_append _ _).trans h2, k, h3⟩

/-- A command completes exactly when its plan does. -/
theorem complete_eq_next {o : Host.Outcome Plan Fault Refusal} {t : State} :
    complete o = .next t ↔ ∃ p, o = .next p ∧ t = p.completed := by
  cases o <;> simp [complete, eq_comm]

theorem complete_eq_fault {o : Host.Outcome Plan Fault Refusal} {r : Fault} :
    complete o = .fault r ↔ o = .fault r := by
  cases o <;> simp [complete]

theorem complete_eq_refused {o : Host.Outcome Plan Fault Refusal} {r : Refusal} :
    complete o = .refused r ↔ o = .refused r := by
  cases o <;> simp [complete]

/-- An abandoned command leaves the reset state over the ports as its first `k` transfers left them. -/
theorem abandon_eq_next {k : Nat} {s t : State} {o : Host.Outcome Plan Fault Refusal} :
    abandon k s o = .next t ↔ ∃ p, o = .next p ∧ t = (s.transfers (p.xfers.take k)).hardReset := by
  cases o <;> simp [abandon, eq_comm]

/-- Answering OK with no effect leaves everything but the response. -/
@[simp] theorem answer_completed (s : State) (d0 d1 : Cum) :
    (answer s d0 d1).completed = { s with rsp := some { status := .ok, d0 := d0, d1 := d1 } } := rfl

/-- Raising an error makes the state change of 60_exceptions.md R188 and responds with data 0. -/
@[simp] theorem raise_completed (s : State) (op : Option Op) (st : Status) :
    (raise s op st).completed =
      { s.errorEffect op st with rsp := some { status := st, d0 := 0#40, d1 := 0#40 } } := rfl

/-- Everything an error can change, one case per row of 60_exceptions.md R188. -/
theorem errorEffect_cases (s : State) (op : Option Op) (st : Status) :
    s.errorEffect op st = s ∨
    (op = some .build ∧ st = .invalidModel ∧ s.errorEffect op st = s.invalidateModel) ∨
    (op = some .encode ∧ (st = .unknownSymbol ∨ st = .precisionExhausted ∨ st = .pendingOverflow) ∧
      s.errorEffect op st = { s with enc := { s.enc with phase := .fault } }) ∨
    (op = some .decode ∧ st = .precisionExhausted ∧
      s.errorEffect op st = { s with dec := { s.dec with phase := .fault } }) := by
  rcases op with _ | op
  · exact .inl rfl
  · cases op <;> cases st <;> simp [State.errorEffect]

/-- Refusals change nothing (60_exceptions.md R188, last row). -/
@[simp] theorem errorEffect_noModel (s : State) (op : Option Op) : s.errorEffect op .noModel = s := by
  rcases op with _ | op
  · rfl
  · cases op <;> rfl

@[simp] theorem errorEffect_badPhase (s : State) (op : Option Op) : s.errorEffect op .badPhase = s := by
  rcases op with _ | op
  · rfl
  · cases op <;> rfl

@[simp] theorem errorEffect_valueOutOfRange (s : State) (op : Option Op) : s.errorEffect op .valueOutOfRange = s := by
  rcases op with _ | op
  · rfl
  · cases op <;> rfl

@[simp] theorem errorEffect_illegalCommand (s : State) (op : Option Op) : s.errorEffect op .illegalCommand = s := by
  rcases op with _ | op
  · rfl
  · cases op <;> rfl

/-- Every meaning is its plan run to completion. -/
theorem exec_eq_complete (i : Instr) (s : State) : exec i s = complete (planOf i s) := by
  cases i <;> rfl

/-- The words presented first are the words the fetch sees. -/
theorem portWords_append (ws : List Word) (rest : List HostMove) :
    portWords (ws.map .word ++ rest) = ws ++ portWords rest := by
  induction ws with
  | nil => rfl
  | cons w ws ih => simp [portWords, ih]

/-- Taking the first words of the port leaves the rest. -/
theorem drop_words (ws : List Word) (rest : List HostMove) :
    (ws.map HostMove.word ++ rest).drop ws.length = rest := by
  simp

/-- A fetch finds a command exactly when the words on the port decode to it, and takes exactly its words. -/
theorem fetch_eq_command {moves : List HostMove} {i : Instr} {rest : List HostMove} :
    fetch moves = .command i rest ↔
      (∃ ws, decode (portWords moves) = .ok (i, ws)) ∧ rest = moves.drop (encode i).length := by
  unfold fetch
  cases h : decode (portWords moves) with
  | ok p =>
    obtain ⟨j, ws⟩ := p
    constructor
    · intro hc
      injection hc with h1 h2
      subst h1
      exact ⟨⟨ws, rfl⟩, h2.symm⟩
    · rintro ⟨⟨ws', hw⟩, hr⟩
      injection hw with hw
      injection hw with h1 _
      subst h1
      rw [hr]
  | error e => cases e <;> simp

end Sys2Proof.Machine
end

