-- ==== Sys2Proof/Laws/Interval.lean ====
section
/-! SUPPORT. The interval operations as arithmetic, and what the loops of the coders keep. -/

namespace Sys2Proof.Machine

theorem two_half {n : Nat} (hn : 1 ≤ n) : 2 * half n = 2 ^ n := by
  obtain ⟨m, rfl⟩ : ∃ m, n = m + 1 := ⟨n - 1, by omega⟩
  simp [half, Nat.pow_succ, Nat.mul_comm]

theorem four_quarter {n : Nat} (hn : 2 ≤ n) : 4 * quarter n = 2 ^ n := by
  obtain ⟨m, rfl⟩ : ∃ m, n = m + 2 := ⟨n - 2, by omega⟩
  have : (2 : Nat) ^ (m + 2) = 4 * 2 ^ m := by rw [Nat.pow_add]; omega
  simp [quarter, this]

theorem two_quarter {n : Nat} (hn : 2 ≤ n) : 2 * quarter n = half n := by
  have h1 := four_quarter hn
  have h2 := two_half (n := n) (by omega)
  omega

theorem mask_succ (n : Nat) : mask n + 1 = 2 ^ n := by
  have : 1 ≤ 2 ^ n := Nat.one_le_two_pow
  simp only [mask]
  omega

/-- `Shl` doubles and drops the bit that leaves position `n - 1`. -/
theorem shl_eq (n v : Nat) : shl n v = 2 * v % 2 ^ n := by
  simp [shl, mask, Nat.shiftLeft_eq, Nat.mul_comm]

/-- `Fold` doubles and drops the bits that leave position `n - 2`. -/
theorem fold_eq {n : Nat} (hn : 1 ≤ n) (v : Nat) : fold n v = 2 * v % 2 ^ (n - 1) := by
  have h : mask n >>> 1 = 2 ^ (n - 1) - 1 := by
    have h1 := two_half hn
    have h2 : 1 ≤ 2 ^ n := Nat.one_le_two_pow
    simp only [half] at h1
    simp only [mask, Nat.shiftRight_eq_div_pow, Nat.pow_one]
    omega
  rw [fold, h, Nat.and_two_pow_sub_one_eq_mod, Nat.shiftLeft_eq]
  simp [Nat.mul_comm]

/-- The top bit of an `n`-bit value says whether it is at least HALF. -/
theorem topBit_eq {n v : Nat} (hn : 1 ≤ n) (hv : v < 2 ^ n) : topBit n v = decide (half n ≤ v) := by
  have h1 := two_half hn
  simp only [half] at h1
  have hp : 0 < 2 ^ (n - 1) := by positivity
  simp only [topBit, bitField, half, Nat.sub_self, Nat.shiftRight_eq_div_pow]
  by_cases h : 2 ^ (n - 1) ≤ v
  · have : v / 2 ^ (n - 1) = 1 := Nat.div_eq_of_lt_le (by omega) (by omega)
    simp [this, h]
  · have : v / 2 ^ (n - 1) = 0 := Nat.div_eq_of_lt (by omega)
    simp [this, h]

/-- What every E1/E2 iteration of ENCODE keeps, the loop keeps. -/
theorem encShiftLoop_keeps {n : Nat} {P : EncWork → Prop}
    (keep : ∀ w, topEq n w.low w.high = true → P w → P (encShift n w)) :
    ∀ k w, P w → P (encShiftLoop n k w)
  | 0, _, h => h
  | k + 1, w, h => by
    unfold encShiftLoop
    split
    · exact encShiftLoop_keeps keep k _ (keep w ‹_› h)
    · exact h

/-- What every E3 iteration of ENCODE that does not overflow keeps, the loop keeps when it ends. -/
theorem encFoldLoop_keeps {n : Nat} {pb : Option Nat} {P : EncWork → Prop}
    (keep : ∀ w, straddle n w.low w.high = true → pendingFull pb w.pend = false → P w → P (encFold n w)) :
    ∀ k w w', encFoldLoop n pb k w = some w' → P w → P w'
  | 0, w, w', he, h => by cases he; exact h
  | k + 1, w, w', he, h => by
    unfold encFoldLoop at he
    by_cases hs : straddle n w.low w.high = true
    · rw [if_pos hs] at he
      by_cases hp : pendingFull pb w.pend = true
      · rw [if_pos hp] at he; cases he
      · rw [if_neg hp] at he
        exact encFoldLoop_keeps keep k _ _ he (keep w hs (by simpa using hp) h)
    · rw [if_neg hs] at he; cases he; exact h

/-- The E3 loop of ENCODE writes no bit. -/
theorem encFoldLoop_bits {n : Nat} {pb : Option Nat} {k : Nat} {w w' : EncWork}
    (h : encFoldLoop n pb k w = some w') : w'.bits = w.bits :=
  encFoldLoop_keeps (P := fun v => v.bits = w.bits) (fun _ _ _ hv => hv) k w w' h rfl

/-- What every E1/E2 iteration of DECODE keeps, the loop keeps. -/
theorem decShiftLoop_keeps {n : Nat} {P : DecWork → Prop}
    (keep : ∀ w, topEq n w.low w.high = true → P w → P (decShift n w)) :
    ∀ k w, P w → P (decShiftLoop n k w)
  | 0, _, h => h
  | k + 1, w, h => by
    unfold decShiftLoop
    split
    · exact decShiftLoop_keeps keep k _ (keep w ‹_› h)
    · exact h

/-- What every E3 iteration of DECODE keeps, the loop keeps. -/
theorem decFoldLoop_keeps {n : Nat} {P : DecWork → Prop}
    (keep : ∀ w, straddle n w.low w.high = true → P w → P (decFold n w)) :
    ∀ k w, P w → P (decFoldLoop n k w)
  | 0, _, h => h
  | k + 1, w, h => by
    unfold decFoldLoop
    split
    · exact decFoldLoop_keeps keep k _ (keep w ‹_› h)
    · exact h

/-- DECODE's loops take one bit of SRC per read counted. -/
theorem decodeWork_src (n : Nat) (d : Dec) (src : List Bool) (cl ch total : Cum) :
    (decodeWork n d src cl ch total).src = src.drop (decodeWork n d src cl ch total).reads := by
  unfold decodeWork
  refine decFoldLoop_keeps (P := fun w => w.src = src.drop w.reads) (fun w _ h => ?_) _ _ ?_
  · simp [decFold, srcRead_snd, h]
  · refine decShiftLoop_keeps (P := fun w => w.src = src.drop w.reads) (fun w _ h => ?_) _ _ rfl
    simp [decShift, srcRead_snd, h]

/-- DECODE's E1/E2 loop moves the interval exactly as ENCODE's does. -/
theorem decShiftLoop_interval (n : Nat) : ∀ (k : Nat) (w : DecWork) (v : EncWork), w.low = v.low → w.high = v.high →
    (decShiftLoop n k w).low = (encShiftLoop n k v).low ∧ (decShiftLoop n k w).high = (encShiftLoop n k v).high
  | 0, _, _, hl, hh => ⟨hl, hh⟩
  | k + 1, w, v, hl, hh => by
    unfold decShiftLoop encShiftLoop
    rw [hl, hh]
    split
    · exact decShiftLoop_interval n k _ _ (by simp [decShift, encShift, hl]) (by simp [decShift, encShift, hh])
    · exact ⟨hl, hh⟩

/-- DECODE's E3 loop moves the interval exactly as ENCODE's does with an unbounded counter. -/
theorem decFoldLoop_interval (n : Nat) : ∀ (k : Nat) (w : DecWork) (v : EncWork), w.low = v.low → w.high = v.high →
    ∃ v', encFoldLoop n none k v = some v' ∧ (decFoldLoop n k w).low = v'.low ∧ (decFoldLoop n k w).high = v'.high
  | 0, _, v, hl, hh => ⟨v, rfl, hl, hh⟩
  | k + 1, w, v, hl, hh => by
    unfold decFoldLoop encFoldLoop
    rw [hl, hh]
    split
    · simpa [pendingFull] using
        decFoldLoop_interval n k (decFold n w) (encFold n v) (by simp [decFold, encFold, hl]) (by simp [decFold, encFold, hh])
    · exact ⟨v, rfl, hl, hh⟩

end Sys2Proof.Machine
end

