-- ==== Sys2Proof/Laws/PerInstr.lean ====
section
/-! SUPPORT. Statements for all commands, one lemma per constructor of Instr. -/

namespace Sys2Proof.Laws

/-- Every command's first word selects its own row of the opcode map (30_encoding.md R87), and BUILD alone has operand words, one
per entry (R85, R89). -/
def RowWord.Statement (i : Instr) : Prop :=
  encodeHead i &&& i.op.maskWord = i.op.matchWord ∧
    (encode i).length = match i with
      | .build entries => 1 + entries.length
      | _ => 1

theorem RowWord.build (entries : List EntryWord) : RowWord.Statement (.build entries) :=
  ⟨operand_selects_row (k := 10) _ _ (by decide), by simp [encode, encodeOperands, Nat.add_comm]⟩

theorem RowWord.total : RowWord.Statement .total := ⟨by decide, rfl⟩

theorem RowWord.rangeof (sym : Sym) : RowWord.Statement (.rangeof sym) :=
  ⟨operand_selects_row (k := 9) _ sym (by decide), rfl⟩

theorem RowWord.symat (value : Cum) : RowWord.Statement (.symat value) :=
  ⟨operand_selects_row (k := 40) _ value (by decide), rfl⟩

theorem RowWord.einit : RowWord.Statement .einit := ⟨by decide, rfl⟩

theorem RowWord.encode (sym : Sym) : RowWord.Statement (.encode sym) :=
  ⟨operand_selects_row (k := 9) _ sym (by decide), rfl⟩

theorem RowWord.efinish : RowWord.Statement .efinish := ⟨by decide, rfl⟩

theorem RowWord.dinit : RowWord.Statement .dinit := ⟨by decide, rfl⟩

theorem RowWord.decode : RowWord.Statement .decode := ⟨by decide, rfl⟩

end Sys2Proof.Laws
end

