-- ==== Sys2Proof/Laws/Step.lean ====
section
/-! SUPPORT. Everything a step can do, said once. -/

namespace Sys2Proof.Machine

/-- Words that start with a word never decode to "there is no word". -/
theorem decode_cons_ne_noWord (w : Word) (ws : List Word) : decode (w :: ws) ≠ .error .noWord := by
  simp only [decode]
  cases opOfCode (w.extractLsb' 56 8) with
  | none => simp
  | some op =>
    simp only
    split
    · cases op <;> simp only [ne_eq, reduceCtorEq, not_false_eq_true]
      split <;> simp
    · simp

/-- A word at the front of the port is never taken for an empty port. -/
theorem fetch_word_ne_idle (w : Word) (rest : List HostMove) : fetch (.word w :: rest) ≠ .idle := by
  have h := decode_cons_ne_noWord w (portWords rest)
  unfold fetch
  simp only [portWords]
  cases hd : decode (w :: portWords rest) with
  | ok p => simp
  | error e =>
    cases e with
    | noWord => exact absurd hd h
    | unassignedOp c => simp
    | reservedBitSet o => simp
    | entriesMissing c p => simp

/-- Everything a step that answers a next state can have done: nothing on an empty port, one host move, one command, one illegal
word, or a BUILD that waits or is reset while it waits. -/
theorem step_next_cases {s t : State} (h : step s = .next t) :
    (s.port = [] ∧ t = s) ∨
    (∃ bits rest, s.port = .loadSource bits :: rest ∧ t = { s with port := rest }.loadSource bits) ∨
    (∃ rest, s.port = .reset :: rest ∧ t = { s with port := rest }.hardReset) ∨
    (∃ k rest, s.port = .resetDuring k :: rest ∧ resetDuringCommand k { s with port := rest } = .next t) ∨
    (∃ i rest, fetch s.port = .command i rest ∧ exec i { s with port := rest } = .next t) ∨
    (∃ rest, fetch s.port = .illegal rest ∧
      t = { s with port := rest, rsp := some { status := .illegalCommand, d0 := 0#40, d1 := 0#40 } }) ∨
    (∃ rest, fetch s.port = .waiting rest ∧ waitForEntries s rest = .next t) := by
  unfold step at h
  split at h
  case h_1 hp => injection h with h; exact .inl ⟨hp, h.symm⟩
  case h_2 bits rest hp => injection h with h; exact .inr (.inl ⟨bits, rest, hp, h.symm⟩)
  case h_3 rest hp => injection h with h; exact .inr (.inr (.inl ⟨rest, hp, h.symm⟩))
  case h_4 k rest hp => exact .inr (.inr (.inr (.inl ⟨k, rest, hp, h⟩)))
  case h_5 w rest hp =>
    rw [hp]
    split at h
    case h_1 hf => exact absurd hf (fetch_word_ne_idle w rest)
    case h_2 i rest' hf => exact .inr (.inr (.inr (.inr (.inl ⟨i, rest', hf, h⟩))))
    case h_3 rest' hf =>
      injection h with h
      exact .inr (.inr (.inr (.inr (.inr (.inl ⟨rest', hf, h.symm⟩)))))
    case h_4 rest' hf => exact .inr (.inr (.inr (.inr (.inr (.inr ⟨rest', hf, h⟩)))))

/-- Everything a reset during a command can leave: the reset state over the ports as the command's first transfers left them, or,
with no command there, over the ports as they were. -/
theorem resetDuring_next_cases {k : Nat} {s t : State} (h : resetDuringCommand k s = .next t) :
    (∃ port, t = { s with port := port }.hardReset) ∨
    (∃ i rest p, fetch s.port = .command i rest ∧ planOf i { s with port := rest } = .next p ∧
      t = ({ s with port := rest }.transfers (p.xfers.take k)).hardReset) := by
  unfold resetDuringCommand at h
  split at h
  case h_1 => injection h with h; exact .inl ⟨s.port, h.symm⟩
  case h_2 i rest hf =>
    obtain ⟨p, hp, ht⟩ := abandon_eq_next.mp h
    exact .inr ⟨i, rest, p, hf, hp, ht⟩
  case h_3 rest hf => injection h with h; exact .inl ⟨rest, h.symm⟩
  case h_4 rest hf => injection h with h; exact .inl ⟨rest, h.symm⟩

/-- Everything a BUILD that waits can come to: it goes on waiting, or the reset that comes next abandons it. -/
theorem waitForEntries_next_cases {s t : State} {rest : List HostMove} (h : waitForEntries s rest = .next t) :
    (t = s ∧ ¬ StartsWithReset rest) ∨
    ∃ rest', (rest = .reset :: rest' ∨ ∃ k, rest = .resetDuring k :: rest') ∧ t = { s with port := rest' }.hardReset := by
  unfold waitForEntries at h
  split at h
  · injection h with h; exact .inl ⟨h.symm, by simp [StartsWithReset]⟩
  · injection h with h; exact .inr ⟨_, .inl rfl, h.symm⟩
  · injection h with h; exact .inr ⟨_, .inr ⟨_, rfl⟩, h.symm⟩
  · cases h
  · injection h with h; exact .inl ⟨h.symm, by simp [StartsWithReset]⟩

end Sys2Proof.Machine
end

