-- ==== Sys2Proof/Tests/Slice0.lean ====
section
/-! SUPPORT. The model's own tests. Expected results are the vectors V<n> of spec/95_test_vectors.md, the worked examples of the rules
named, or the words of 30_encoding.md R87 and R94; and one witness for the hypotheses of each statement. -/

namespace Sys2Proof.Tests

open Sys2Proof Sys2Proof.Machine

/-- Whether an outcome is a next state of which `p` holds. -/
def nextIs (o : Host.Outcome State Fault Refusal) (p : State → Bool) : Bool :=
  match o with
  | .next t => p t
  | _ => false

/-- An instance with the given NUMBITS, PEND_BITS = 32. -/
def instanceOf (n : Nat) (h : 1 ≤ n ∧ n ≤ 32) : Params := ⟨n, some 32, h, by decide⟩

/-- Entry word `s:f` of the assembler. -/
def pair (s f : Nat) : EntryWord := ⟨0#23, BitVec.ofNat 9 s, BitVec.ofNat 32 f⟩

/-- The entries of the model `65:5, 66:2, 67:1, 256:1` (band3's scenario, V1). -/
def scenarioEntries : List EntryWord := [pair 65 5, pair 66 2, pair 67 1, pair 256 1]

/-- The table of that model as V1 gives it, in a store of 257 slots. -/
def scenarioModel : Mdl :=
  { tab := [⟨65#9, 0#40, 5#40⟩, ⟨66#9, 5#40, 7#40⟩, ⟨67#9, 7#40, 8#40⟩, ⟨256#9, 8#40, 9#40⟩] ++
      List.replicate 253 ⟨0#9, 0#40, 0#40⟩,
    n := 4#9, total := 9#40, valid := true }

/-- Both units active on the scenario's model: the encoder just after EINIT, the decoder with the given interval, code and source. -/
def scenario (low high code : Nat) (src : List Bool) : State :=
  { State.reset with
    mdl := scenarioModel
    enc := { low := 0, high := 0x1FFFF, pending := 0, phase := .active }
    dec := { low := low, high := high, code := code, phase := .active }
    src := src }

/-- The decoder of V20 after DINIT. -/
def scenarioStart : State := scenario 0 0x1FFFF 0x07700 []

/-! Well-formedness (30_encoding.md R85). -/

theorem test_wf_refuses_1024_entries : (Instr.build (List.replicate 1024 (pair 0 1))).wf = false := by
  simp [Instr.wf, maxCount, -List.reduceReplicate]

theorem test_wf_admits_1023_entries : (Instr.build (List.replicate 1023 (pair 0 1))).wf = true := by
  simp [Instr.wf, maxCount, -List.reduceReplicate]

/-! Decoding: words written out from R87 and V1, V3, V5. -/

theorem test_decode_build :
    decode [0x0100000000000002#64, 0x0000004100000005#64, 0x00000100FFFFFFFF#64, 0x0200000000000000#64] =
      .ok (.build [⟨0#23, 65#9, 5#32⟩, ⟨0#23, 256#9, BitVec.ofInt 32 (-1)⟩], [0x0200000000000000#64]) := by decide

theorem test_decode_build_reserved_entry_bit :
    decode [0x0100000000000001#64, 0x0000020000000001#64] = .ok (.build [⟨1#23, 0#9, 1#32⟩], []) := by decide

theorem test_decode_total : decode [0x0200000000000000#64] = .ok (.total, []) := by decide
theorem test_decode_rangeof : decode [0x030000000000012C#64] = .ok (.rangeof 300#9, []) := by decide
theorem test_decode_symat : decode [0x0400000000008000#64] = .ok (.symat 32768#40, []) := by decide
theorem test_decode_einit : decode [0x1000000000000000#64] = .ok (.einit, []) := by decide
theorem test_decode_encode : decode [0x1100000000000041#64] = .ok (.encode 65#9, []) := by decide
theorem test_decode_efinish : decode [0x1200000000000000#64] = .ok (.efinish, []) := by decide
theorem test_decode_dinit : decode [0x2000000000000000#64] = .ok (.dinit, []) := by decide
theorem test_decode_decode : decode [0x2100000000000000#64] = .ok (.decode, []) := by decide

theorem test_decode_unassigned : decode [0x0500000000000000#64] = .error (.unassignedOp 5#8) := by decide
theorem test_decode_encode_bit9 : decode [0x1100000000000241#64] = .error (.reservedBitSet .encode) := by decide
theorem test_decode_build_bit10 : decode [0x0100000000000401#64] = .error (.reservedBitSet .build) := by decide
theorem test_decode_symat_bit40 : decode [0x0400010000000000#64] = .error (.reservedBitSet .symat) := by decide
theorem test_decode_build_waits : decode [0x0100000000000001#64] = .error (.entriesMissing 1 0) := by decide

theorem test_table_word_build : decodeTableWord 64 0x0100000000000001 = some (.build [⟨0#23, 0#9, 0#32⟩]) := by decide
theorem test_table_word_encode : decodeTableWord 64 0x1100000000000100 = some (.encode 256#9) := by decide

/-- R95: `ENCSTREAM 65` expands to EINIT, ENCODE 65, ENCODE 256, EFINISH. -/
theorem test_assemble_encstream :
    (AsmLine.encstream [65]).words =
      some [0x1000000000000000#64, 0x1100000000000041#64, 0x1100000000000100#64, 0x1200000000000000#64] := by decide

/-! BUILD, TOTAL, RANGEOF, SYMAT (V1 to V3). -/

theorem test_build_scenario :
    nextIs (exec (.build scenarioEntries) State.reset) (fun t => t.rsp == some ⟨.ok, 9#40, 4#40⟩ &&
      t.mdl.tab.take 4 == scenarioModel.tab.take 4 && t.mdl.n == 4#9 && t.mdl.total == 9#40 && t.mdl.valid) = true := by decide

theorem test_build_failure_destroys_model :
    nextIs (exec (.build [pair 65 0]) scenarioStart) (fun t =>
      t.rsp == some ⟨.invalidModel, 0#40, 0#40⟩ && !t.mdl.valid && t.enc == scenarioStart.enc) = true := by decide

theorem test_build_duplicate : badMapping [pair 65 5, pair 65 2] = true := by decide
theorem test_build_symbol_257 : badMapping [pair 257 1] = true := by decide

theorem test_total : nextIs (exec .total scenarioStart) (fun t => t.rsp == some ⟨.ok, 9#40, 0#40⟩) = true := by decide
theorem test_total_no_model : nextIs (exec .total State.reset) (fun t => t.rsp == some ⟨.noModel, 0#40, 0#40⟩) = true := by decide

theorem test_rangeof_66 : nextIs (exec (.rangeof 66#9) scenarioStart) (fun t => t.rsp == some ⟨.ok, 5#40, 7#40⟩) = true := by decide
theorem test_rangeof_68 :
    nextIs (exec (.rangeof 68#9) scenarioStart) (fun t =>
      t.rsp == some ⟨.unknownSymbol, 0#40, 0#40⟩ && t.enc.phase == .active) = true := by decide

theorem test_symat_boundary_5 : nextIs (exec (.symat 5#40) scenarioStart) (fun t => t.rsp == some ⟨.ok, 66#40, 0#40⟩) = true := by decide
theorem test_symat_total :
    nextIs (exec (.symat 9#40) scenarioStart) (fun t => t.rsp == some ⟨.valueOutOfRange, 0#40, 0#40⟩) = true := by decide

/-! EINIT, ENCODE, EFINISH (V10, V12, V16, V30, V31, V33). -/

theorem test_einit :
    nextIs (exec .einit State.reset) (fun t => t.enc == ⟨0, 0x1FFFF, 0, .active⟩ && t.snk == [.opened]) = true := by decide

/-- V10, third ENCODE: two E1/E2 iterations, bits 01. -/
theorem test_encode_66_writes_01 :
    nextIs (exec (.encode 66#9) { scenarioStart with enc := ⟨0, 0x13C09, 0, .active⟩ }) (fun t =>
      t.enc == ⟨0x0BE4C, 0x1D737, 0, .active⟩ && t.snk == [.w0, .w1] && t.rsp == some ⟨.ok, 0#40, 0#40⟩) = true := by decide

/-- V10, last ENCODE: the E3 fold with its fill bit (41_encoder_ops.md R136). -/
theorem test_encode_256_folds :
    nextIs (exec (.encode 256#9) { scenarioStart with enc := ⟨0x0C650, 0x1C007, 0, .active⟩ }) (fun t =>
      t.enc == ⟨0x02240, 0x1003F, 1, .active⟩ && t.snk == [.w1, .w1]) = true := by decide

/-- V16, `NUMBITS = 8`: the pending bit follows the written bit as its complement. -/
theorem test_pending_bit_is_drained :
    encodeWork (instanceOf 8 (by decide)) ⟨0x5C, 0xE5, 1, .active⟩ 20#40 50#40 64#40 =
      some ⟨0x0E, 0x8D, 0, [true, false]⟩ := by decide

/-- V33: the counter holds 63 with `PEND_BITS = 6`. -/
theorem test_pending_overflow :
    encodeWork ⟨17, some 6, by decide, by decide⟩ ⟨0, 0x1FFFF, 63, .active⟩ 1#40 3#40 4#40 = none := by decide

theorem test_efinish_leaves_pending :
    nextIs (exec .efinish { scenarioStart with enc := ⟨0x02240, 0x1003F, 1, .active⟩ }) (fun t =>
      t.enc == ⟨0x02240, 0x1003F, 1, .done⟩ && t.snk == [.w1, .closed]) = true := by decide
theorem test_efinish_idle : nextIs (exec .efinish State.reset) (fun t => t.rsp == some ⟨.badPhase, 0#40, 0#40⟩) = true := by decide

/-! DINIT, DECODE (V20, V22, V25). -/

theorem test_dinit :
    nextIs (exec .dinit { State.reset with src := [false, false, true, true, true, false, true, true, true] }) (fun t =>
      t.dec == ⟨0, 0x1FFFF, 0x07700, .active⟩ && t.src == [] && t.symout == [.opened]) = true := by decide

/-- V20, third DECODE: two padding reads. -/
theorem test_decode_66_reads_padding :
    nextIs (exec .decode (scenario 0 0x13C09 0x0EE00 [])) (fun t =>
      t.dec == ⟨0x0BE4C, 0x1D737, 0x1B800, .active⟩ && t.symout == [.sym 66#9] && t.rsp == some ⟨.ok, 66#40, 0#40⟩) = true := by
  decide

/-- V20, fifth DECODE: the sentinel changes nothing. -/
theorem test_decode_sentinel :
    nextIs (exec .decode (scenario 0x0C650 0x1C007 0x1C000 [true])) (fun t =>
      t.dec == ⟨0x0C650, 0x1C007, 0x1C000, .active⟩ && t.src == [true] && t.symout == [] &&
      t.rsp == some ⟨.ok, 256#40, 0#40⟩) = true := by decide

/-- V22, first DECODE: one E3 fold of code. -/
theorem test_code_fold : (decFold 17 ⟨0x08000, 0x17FFF, 0x0EE00, [], 0⟩).code = 0x0DC00 := by decide

/-! The step (V5, V38, R221). -/

theorem test_step_illegal_word :
    nextIs (step { State.reset with port := [.word 0xFFFFFFFFFFFFFFFF#64, .word 0x1000000000000000#64] }) (fun t =>
      t.rsp == some ⟨.illegalCommand, 0#40, 0#40⟩ && t.port == [.word 0x1000000000000000#64]) = true := by decide

theorem test_step_reset_keeps_traces :
    nextIs (step { scenarioStart with port := [.reset], snk := [.opened, .w0] }) (fun t =>
      t.enc.phase == .idle && !t.mdl.valid && t.snk == [.opened, .w0] && t.rsp == none) = true := by decide

/-- R221: reset after the first of the two transfers of EFINISH leaves a stream with no CLOSE. -/
theorem test_reset_during_efinish :
    nextIs (step { scenarioStart with port := [.resetDuring 1, .word 0x1200000000000000#64], snk := [.opened] }) (fun t =>
      t.snk == [.opened, .w1] && t.enc.phase == .idle && t.rsp == none && t.port == []) = true := by decide

theorem test_step_runs_table_word :
    nextIs (step (State.reset.withFetchWord 64 0x1000000000000000)) (fun t => t.enc.phase == .active && t.port == []) = true := by
  decide

/-! Witnesses: for each statement with hypotheses, a state and operands that meet them. -/

theorem scenarioModel_ok : ModelOk scenarioModel where
  size := by decide
  present := by decide
  first := by decide
  nonempty := by decide
  contiguous := by decide
  last := by decide
  positive := by decide
  distinct := by decide
  alphabet := by decide

theorem settled_start : Settled 17 0 0x1FFFF where
  low_half := by decide
  half_high := by decide
  high_mask := by decide
  not_middle := by decide

/-- The scenario's state meets the invariants, whatever the decoder's settled interval and code inside it. -/
theorem scenario_inv {low high code : Nat} (src : List Bool) (h : Settled 17 low high) (h1 : low ≤ code) (h2 : code ≤ high) :
    (scenario low high code src).Inv where
  slots := by simp [scenario, scenarioModel, -List.reduceReplicate]
  model := fun _ => scenarioModel_ok
  encLowFits := Nat.zero_le _
  encHighFits := by show (0x1FFFF : Nat) ≤ mask 17; decide
  pendingFits := fun b hb => by cases hb; show 0 < 2 ^ 32; decide
  decLowFits := le_trans h1 (le_trans h2 h.high_mask)
  decHighFits := h.high_mask
  decCodeFits := le_trans h2 h.high_mask
  encSettled := fun _ => settled_start
  decSettled := fun _ => h
  decInside := fun _ => ⟨h1, h2⟩

theorem scenarioStart_inv : scenarioStart.Inv := scenario_inv [] settled_start (by decide) (by decide)

theorem witness_DecodeInvertsEncode : (Instr.build (List.replicate 1023 (pair 511 1))).wf = true := by
  simp [Instr.wf, maxCount, -List.reduceReplicate]

theorem witness_EncodeInvertsDecode :
    decode [0x0100000000000001#64, 0x00000100FFFFFFFF#64] = .ok (.build [⟨0#23, 256#9, BitVec.ofInt 32 (-1)⟩], []) := by decide

theorem witness_OpcodeMapSelectsTheCommand :
    (∃ row ∈ opcodeMap, 0x040000FFFFFFFFFF#64 &&& row.2.2 = row.2.1) ∧
    (∃ row ∈ opcodeMap, 0x01000000000003FF#64 &&& row.2.2 = row.2.1) ∧ IllegalWord 0x0400010000000000#64 := by
  unfold IllegalWord; decide

theorem witness_OperandsAreReadFromTheirFields :
    decode [0x03000000000001FF#64] = .ok (.rangeof 511#9, []) ∧ decode [0x1100000000000000#64] = .ok (.encode 0#9, []) ∧
    decode [0x040000FFFFFFFFFF#64] = .ok (.symat 0xFFFFFFFFFF#40, []) ∧
    decode [0x0100000000000002#64, 0x000000FF7FFFFFFF#64, 0xFFFFFFFF80000000#64] =
      .ok (.build [⟨0#23, 255#9, 0x7FFFFFFF#32⟩, ⟨0x7FFFFF#23, 0x1FF#9, 0x80000000#32⟩], []) ∧
    decode [0x2100000000000000#64] = .ok (.decode, []) := by decide

theorem witness_AssemblerWords :
    (AsmLine.encode 511).words = some [0x11000000000001FF#64] ∧ (AsmLine.encode 512).words = none ∧
    (AsmLine.symat (2 ^ 40 - 1)).words = some [0x040000FFFFFFFFFF#64] ∧ (AsmLine.symat (2 ^ 40)).words = none ∧
    (AsmLine.build [(511, -(2 ^ 31)), (0, 2 ^ 31 - 1)]).words =
      some [0x0100000000000002#64, 0x000001FF80000000#64, 0x000000007FFFFFFF#64] ∧
    (AsmLine.build [(65, 1), (512, 1)]).words = none ∧ (AsmLine.build [(65, 2 ^ 31)]).words = none ∧
    (AsmLine.build [(65, -(2 ^ 31) - 1)]).words = none ∧ 1023 < (List.replicate 1024 ((0, 1) : Nat × Int)).length ∧
    (AsmLine.rawWord (2 ^ 64 - 1)).words = some [0xFFFFFFFFFFFFFFFF#64] ∧ (AsmLine.rawWord (2 ^ 64)).words = none ∧
    (AsmLine.encseq [511]).words = some [0x11000000000001FF#64] ∧ (AsmLine.encstream [0, 512]).words = none := by
  refine ⟨by decide, by decide, by decide, by decide, by decide, by decide, by decide, by decide, ?_, by decide, by decide,
    by decide, by decide⟩
  simp [-List.reduceReplicate]

theorem witness_StepRunsTheDecodedCommand :
    (Instr.encode 65#9).wf = true ∧
    ({ scenarioStart with port := [.word 0x1100000000000041#64, .reset] } : State).port =
      (encode (.encode 65#9)).map .word ++ [HostMove.reset] := by decide

theorem witness_StepRunsThePresentedTableWord : decodeTableWord 64 0x1100000000000041 = some (.encode 65#9) := by decide

theorem witness_IllegalWordIsRefused :
    (∃ s : State, s.port = .word 0x0500000000000000#64 :: [] ∧ IllegalWord 0x0500000000000000#64) ∧
    ∃ s t : State, s.port = .word 0x0100000000000001#64 :: [] ∧ ¬ IllegalWord 0x0100000000000001#64 ∧ step s = .next t ∧
      t.rsp = some (errorResponse .illegalCommand) := by
  refine ⟨⟨{ State.reset with port := [.word 0x0500000000000000#64] }, rfl, by unfold IllegalWord; decide⟩,
    { State.reset with port := [.word 0x0100000000000001#64], rsp := some (errorResponse .illegalCommand) }, _, rfl,
    by unfold IllegalWord; decide, rfl, rfl⟩

theorem witness_BuildWaitsForItsEntryWords :
    0x0100000000000001#64 &&& 0xFFFFFFFFFFFFFC00#64 = 0x0100000000000000#64 ∧
    ([] : List Word).length < (0x0100000000000001#64).toNat % 2 ^ 10 ∧
    ∀ rest ∈ [[], [HostMove.reset], [HostMove.resetDuring 0], [HostMove.loadSource [true]]],
      ({ State.reset with port := .word 0x0100000000000001#64 :: rest } : State).port =
        [0x0100000000000001#64].map .word ++ rest := by
  refine ⟨by decide, by decide, fun _ _ => rfl⟩

theorem witness_IdleAndLoadSource :
    State.reset.port = [] ∧ ({ State.reset with port := [.loadSource [true]] } : State).port = .loadSource [true] :: [] :=
  ⟨rfl, rfl⟩

theorem witness_HardwareReset : ({ scenarioStart with port := [.reset] } : State).port = .reset :: [] := rfl

/-- Both boundary clauses: `k = 0`, and `k` from the number of transfers on (EFINISH: 2 events and `2 * 17 + 1`). -/
theorem witness_ResetDuringACommandCutsItShort :
    ∃ (s u : State), s.port = .resetDuring 0 :: ((encode .efinish).map .word ++ []) ∧
      exec .efinish { s with port := [] } = .next u ∧ u.snk.length - s.snk.length + 2 * s.params.numbits + 1 ≤ 37 :=
  ⟨{ scenarioStart with port := [.resetDuring 0, .word 0x1200000000000000#64] }, _, by decide, rfl, by decide⟩

/-- Two states that differ in an idle encoder's registers, a table slot beyond MDL.n and the counter of free values. -/
theorem witness_UnspecifiedStateIsNeverRead :
    ∃ s t : State, Similar s t ∧ s ≠ t ∧ s.mdl.valid = true ∧ s.dec.phase = .active := by
  refine ⟨{ scenarioStart with enc := ⟨0, 0, 0, .idle⟩ },
    { scenarioStart with enc := ⟨5, 7, 9, .idle⟩, free := 3 }, ⟨rfl, rfl, fun _ => rfl, fun _ => rfl, fun _ => rfl, rfl,
      fun h => (by cases h), rfl, fun _ => rfl, rfl, rfl, rfl, rfl, rfl⟩, ?_, rfl, rfl⟩
  intro h
  have : (0 : Nat) = 3 := congrArg State.free h
  omega

theorem good_scenarioEntries : GoodMapping scenarioEntries :=
  ⟨by decide, by decide, by decide, by decide, by decide⟩

theorem witness_BuildStoresTheModel : GoodMapping scenarioEntries ∧ GoodMapping [pair 256 1] ∧ GoodMapping [pair 0 2147483647] :=
  ⟨good_scenarioEntries, ⟨by decide, by decide, by decide, by decide, by decide⟩,
    ⟨by decide, by decide, by decide, by decide, by decide⟩⟩

theorem witness_BadMappingLeavesNoModel :
    ¬ GoodMapping [] ∧ ¬ GoodMapping [pair 65 0] ∧ ¬ GoodMapping [pair 257 1] ∧ ¬ GoodMapping [pair 65 5, pair 65 2] ∧
    ¬ GoodMapping [⟨1#23, 65#9, 1#32⟩] ∧
    ∃ t r, exec (.build []) State.reset = .next t ∧ t.rsp = some r ∧ r.status = .invalidModel :=
  ⟨fun h => h.nonempty rfl, fun h => absurd h.positive (by decide), fun h => absurd h.alphabet (by decide),
    fun h => absurd h.distinct (by decide), fun h => absurd h.reserved (by decide), _, _, rfl, rfl, rfl⟩

theorem witness_MoreThan257EntriesIsInvalid : 257 < (List.replicate 258 (pair 0 1)).length := by
  simp [-List.reduceReplicate]

/-- The scenario with a command, a reset or another move on the port. -/
def scenarioWith (moves : List HostMove) : State := { scenarioStart with port := moves }

theorem scenarioWith_inv (moves : List HostMove) : (scenarioWith moves).Inv where
  slots := scenarioStart_inv.slots
  model := scenarioStart_inv.model
  encLowFits := scenarioStart_inv.encLowFits
  encHighFits := scenarioStart_inv.encHighFits
  pendingFits := scenarioStart_inv.pendingFits
  decLowFits := scenarioStart_inv.decLowFits
  decHighFits := scenarioStart_inv.decHighFits
  decCodeFits := scenarioStart_inv.decCodeFits
  encSettled := scenarioStart_inv.encSettled
  decSettled := scenarioStart_inv.decSettled
  decInside := scenarioStart_inv.decInside

theorem witness_StepKeepsTheModelInvariant :
    (scenarioWith [.word 0x0200000000000000#64]).mdl.tab.length = 257 ∧
    ModelOk (scenarioWith [.word 0x0200000000000000#64]).mdl ∧
    ∃ t, step (scenarioWith [.word 0x0200000000000000#64]) = .next t :=
  ⟨scenarioStart_inv.slots, scenarioModel_ok, _, rfl⟩

theorem witness_TotalAnswersTheSum :
    scenarioStart.mdl.valid = true ∧ ModelOk scenarioStart.mdl ∧ State.reset.mdl.valid = false ∧
    (scenarioStart.mdl.entries.map fun e => e.ch.toNat - e.cl.toNat) = [5, 2, 1, 1] :=
  ⟨rfl, scenarioModel_ok, rfl, by decide⟩

theorem witness_RangeofAnswersTheInterval :
    scenarioStart.mdl.valid = true ∧ (⟨256#9, 8#40, 9#40⟩ : TabEntry) ∈ scenarioStart.mdl.entries ∧
    (∀ e ∈ scenarioStart.mdl.entries, e.sym ≠ 68#9) ∧ 256 < (257#9).toNat ∧ State.reset.mdl.valid = false := by decide

theorem witness_SymatAnswersTheSymbol :
    scenarioStart.mdl.valid = true ∧ (8#40).toNat < scenarioStart.mdl.total.toNat ∧
    scenarioStart.mdl.entries.head? = some ⟨65#9, 0#40, 5#40⟩ ∧ (8#40).toNat + 1 = scenarioStart.mdl.total.toNat ∧
    scenarioStart.mdl.entries.getLast? = some ⟨256#9, 8#40, 9#40⟩ ∧ scenarioStart.mdl.total.toNat ≤ (9#40).toNat ∧
    State.reset.mdl.valid = false := by decide

theorem witness_InstanceConstants : 1 ≤ 1 ∧ 2 ≤ 2 ∧ quarter 2 = 1 ∧ quarter 1 = 0 := by decide

theorem witness_TopEqAndStraddleInNumbers :
    (0 ≤ mask 1 ∧ 1 ≤ mask 1 ∧ topEq 1 0 1 = false) ∧
    (0x8000 ≤ mask 17 ∧ 0x17FFF ≤ mask 17 ∧ topEq 17 0x8000 0x17FFF = false ∧ straddle 17 0x8000 0x17FFF = true) := by decide

theorem witness_NarrowStaysInside : Settled 17 0 0x1FFFF ∧ (32768 : Nat) ≤ quarter 17 ∧ (32767 : Nat) < 32768 :=
  ⟨settled_start, by decide, by decide⟩

theorem witness_ValueInvertsNarrow : (3 : Nat) ≤ 3 ∧ (3 : Nat) ≤ 11 ∧ (8 : Nat) < 9 ∧ (9 : Nat) ≤ 11 - 3 + 1 := by decide

/-- The loops on 3-bit registers: `low = high`, where n iterations are reached; the full interval; one E3 iteration; and runs of them. -/
theorem witness_LoopsDoubleTheRange :
    encShiftLoop 3 3 ⟨5, 5, 2, []⟩ = ⟨0, 7, 0, [true, false, false, false, true]⟩ ∧
    encShiftLoop 3 3 ⟨0, 7, 2, []⟩ = ⟨0, 7, 2, []⟩ ∧ encFoldLoop 3 none 3 ⟨2, 5, 0, []⟩ = some ⟨0, 7, 1, []⟩ ∧
    (decShiftLoop 3 3 ⟨5, 5, 5, [], 0⟩).reads = 3 ∧ (decFoldLoop 3 3 ⟨2, 5, 3, [true], 0⟩).reads = 1 ∧
    ShiftRun 3 0 3 1 [false, true] 0 7 0 1 ∧ FoldRun 3 0 7 0 0 7 0 0 ∧ FoldRun 3 2 5 0 0 7 1 1 := by
  refine ⟨by decide, by decide, by decide, by decide, by decide, .e1 (bits := []) (by decide) (by decide) (.stop (by decide)),
    .stop (by decide), .e3 (by decide) (by decide) (by decide) (by decide) (.stop (by decide))⟩

theorem witness_EncodeNarrowsAndRenormalises :
    scenarioStart.Inv ∧ scenarioStart.enc.phase = .active ∧ scenarioStart.mdl.valid = true ∧
    (⟨65#9, 0#40, 5#40⟩ : TabEntry) ∈ scenarioStart.mdl.entries ∧
    scenarioStart.mdl.total.toNat ≤ quarter scenarioStart.params.numbits ∧ PendingFits (some 6) 63 ∧ ¬ PendingFits (some 6) 64 :=
  ⟨scenarioStart_inv, rfl, rfl, by decide, by decide, fun b hb => by cases hb; decide,
    fun h => absurd (h 6 rfl) (by decide)⟩

theorem witness_EncodeCompletes :
    scenarioStart.Inv ∧ scenarioStart.enc.phase = .active ∧ scenarioStart.mdl.valid = true ∧
    (∃ e ∈ scenarioStart.mdl.entries, e.sym = 65#9) ∧
    scenarioStart.mdl.total.toNat ≤ quarter scenarioStart.params.numbits ∧
    PendingFits scenarioStart.params.pendBits (scenarioStart.enc.pending + scenarioStart.params.numbits) :=
  ⟨scenarioStart_inv, rfl, rfl, by decide, by decide, fun b hb => by cases hb; decide⟩

theorem witness_EfinishWritesOneBitAndCloses : scenarioStart.enc.phase = .active ∧ State.reset.enc.phase ≠ .active := by decide

theorem settled_v20 : Settled 17 0x0C650 0x1C007 where
  low_half := by decide
  half_high := by decide
  high_mask := by decide
  not_middle := by decide

/-- V20, fifth DECODE: the value is 8, in the sentinel's entry. -/
theorem witness_DecodeAnswersTheSentinel :
    (scenario 0x0C650 0x1C007 0x1C000 []).Inv ∧
    (⟨256#9, 8#40, 9#40⟩ : TabEntry) ∈ (scenario 0x0C650 0x1C007 0x1C000 []).mdl.entries ∧
    (8 ≤ ((0x1C000 - 0x0C650 + 1) * 9 - 1) / (0x1C007 - 0x0C650 + 1) ∧
      ((0x1C000 - 0x0C650 + 1) * 9 - 1) / (0x1C007 - 0x0C650 + 1) < 9) :=
  ⟨scenario_inv [] settled_v20 (by decide) (by decide), by decide, by decide⟩

/-- V20, first DECODE: the value is 2, in the first entry. -/
theorem witness_DecodeNarrowsAndRenormalises :
    scenarioStart.Inv ∧ scenarioStart.dec.phase = .active ∧ scenarioStart.mdl.valid = true ∧
    scenarioStart.mdl.total.toNat ≤ quarter scenarioStart.params.numbits ∧
    (⟨65#9, 0#40, 5#40⟩ : TabEntry) ∈ scenarioStart.mdl.entries ∧ (65#9 : Sym) ≠ 256#9 ∧
    (0 ≤ ((0x07700 - 0 + 1) * 9 - 1) / (0x1FFFF - 0 + 1) ∧ ((0x07700 - 0 + 1) * 9 - 1) / (0x1FFFF - 0 + 1) < 5) :=
  ⟨scenarioStart_inv, rfl, rfl, by decide, by decide, by decide, by decide⟩

theorem witness_DecodeIsTotal :
    scenarioStart.Inv ∧ scenarioStart.dec.phase = .active ∧ scenarioStart.mdl.valid = true ∧
    scenarioStart.mdl.total.toNat ≤ quarter scenarioStart.params.numbits :=
  ⟨scenarioStart_inv, rfl, rfl, by decide⟩

theorem witness_NoModelIsARefusal :
    ∃ s t r, s.mdl.valid = false ∧ s.enc.phase = .active ∧ s.dec.phase = .active ∧ exec (.encode 65#9) s = .next t ∧
      t.rsp = some r ∧ r.status = .noModel :=
  ⟨{ scenarioStart with mdl := { scenarioModel with valid := false } }, _, _, rfl, rfl, rfl, rfl, rfl, rfl⟩

theorem witness_BadPhaseIsARefusal :
    State.reset.enc.phase ≠ .active ∧ State.reset.dec.phase ≠ .active ∧
    ∃ t r, exec .decode State.reset = .next t ∧ t.rsp = some r ∧ r.status = .badPhase :=
  ⟨by decide, by decide, _, _, rfl, rfl, rfl⟩

theorem witness_ValueOutOfRangeIsARefusal :
    scenarioStart.mdl.valid = true ∧ scenarioStart.mdl.total.toNat ≤ (9#40).toNat ∧
    ∃ t r, exec (.symat 9#40) scenarioStart = .next t ∧ t.rsp = some r ∧ r.status = .valueOutOfRange :=
  ⟨rfl, by decide, _, _, rfl, rfl, rfl⟩

theorem witness_UnknownSymbolIsFatalOnlyToEncode :
    scenarioStart.mdl.valid = true ∧ (∀ e ∈ scenarioStart.mdl.entries, e.sym ≠ 68#9) ∧ scenarioStart.enc.phase = .active ∧
    ∃ t r, exec (.encode 68#9) scenarioStart = .next t ∧ t.rsp = some r ∧ r.status = .unknownSymbol :=
  ⟨rfl, by decide, rfl, _, _, rfl, rfl, rfl⟩

/-- V19: `NUMBITS = 2`, MAX_TOTAL = 1, a model of total 9. -/
def tooNarrow : State := { scenarioStart with params := instanceOf 2 (by decide) }

theorem witness_PrecisionGuard :
    tooNarrow.enc.phase = .active ∧ tooNarrow.dec.phase = .active ∧ tooNarrow.mdl.valid = true ∧
    (∃ e ∈ tooNarrow.mdl.entries, e.sym = 65#9) ∧ quarter tooNarrow.params.numbits < tooNarrow.mdl.total.toNat ∧
    ∃ t r, exec .decode tooNarrow = .next t ∧ t.rsp = some r ∧ r.status = .precisionExhausted :=
  ⟨rfl, rfl, rfl, by decide, by decide, _, _, rfl, rfl, rfl⟩

theorem witness_ErrorsArePrecise :
    ∃ t r, exec .decode tooNarrow = .next t ∧ t.rsp = some r ∧ r.status ≠ .ok :=
  ⟨_, _, rfl, rfl, by decide⟩

/-- V33: model `97:1, 98:2, 256:1`, `PEND_BITS = 6`, 63 bits pending. -/
def fullCounter : State :=
  { scenarioStart with
    params := ⟨17, some 6, by decide, by decide⟩
    mdl := { scenarioModel with
      tab := [⟨97#9, 0#40, 1#40⟩, ⟨98#9, 1#40, 3#40⟩, ⟨256#9, 3#40, 4#40⟩] ++ List.replicate 254 ⟨0#9, 0#40, 0#40⟩,
      n := 3#9, total := 4#40 }
    enc := ⟨0, 0x1FFFF, 63, .active⟩ }

theorem fullCounter_inv : fullCounter.Inv where
  slots := by simp [fullCounter, -List.reduceReplicate]
  model := fun _ =>
    { size := by decide, present := by decide, first := by decide, nonempty := by decide, contiguous := by decide,
      last := by decide, positive := by decide, distinct := by decide, alphabet := by decide }
  encLowFits := Nat.zero_le _
  encHighFits := by decide
  pendingFits := fun b hb => by cases hb; decide
  decLowFits := Nat.zero_le _
  decHighFits := by decide
  decCodeFits := by decide
  encSettled := fun _ => settled_start
  decSettled := fun _ => settled_start
  decInside := fun _ => by decide

/-- The other outcome of ENCODE: no E1/E2 iteration, one E3 iteration to a count of 64, which does not fit 6 bits. -/
theorem witness_EncodeNarrowsAndRenormalises_overflow :
    fullCounter.Inv ∧ fullCounter.enc.phase = .active ∧ fullCounter.mdl.valid = true ∧
    (⟨98#9, 1#40, 3#40⟩ : TabEntry) ∈ fullCounter.mdl.entries ∧
    fullCounter.mdl.total.toNat ≤ quarter fullCounter.params.numbits ∧
    ShiftRun 17 (0 + 1 * (0x1FFFF - 0 + 1) / 4) (0 + 3 * (0x1FFFF - 0 + 1) / 4 - 1) 63 [] 32768 98303 63 0 ∧
    FoldRun 17 32768 98303 63 0 131071 64 1 ∧ ¬ PendingFits fullCounter.params.pendBits 64 :=
  ⟨fullCounter_inv, rfl, rfl, by decide, by decide, .stop (by decide),
    .e3 (by decide) (by decide) (by decide) (by decide) (.stop (by decide)), fun h => absurd (h 6 rfl) (by decide)⟩

theorem witness_PendingOverflowNeedsAFiniteCounter :
    (match exec (.encode 98#9) fullCounter with
      | .next t => t.rsp == some ⟨.pendingOverflow, 0#40, 0#40⟩ && t.enc == ⟨0, 0x1FFFF, 63, .fault⟩ && t.snk == []
      | _ => false) = true := by decide

theorem witness_EveryCommandResponds : scenarioStart.Inv ∧ ∃ t, exec .total scenarioStart = .next t :=
  ⟨scenarioStart_inv, _, rfl⟩

theorem witness_StatusesOfEachCommand :
    ∃ t r, exec .efinish scenarioStart = .next t ∧ t.rsp = some r := ⟨_, _, rfl, rfl⟩

theorem witness_PhasesAreEnteredOnlyByTheirCommands :
    (∃ t, exec .einit State.reset = .next t ∧ t.enc.phase ≠ State.reset.enc.phase) ∧
    ∃ t, exec .decode tooNarrow = .next t ∧ t.dec.phase ≠ tooNarrow.dec.phase :=
  ⟨⟨_, rfl, by decide⟩, _, rfl, by decide⟩

/-- EINIT, a reset, a BUILD; and the three ways a step is a reset. -/
theorem witness_FaultIsLeftOnlyByConstruction :
    (∃ s t : State, step s = .next t ∧ s.enc.phase = .fault ∧ t.enc.phase ≠ .fault) ∧
    (∃ s t : State, step s = .next t ∧ s.dec.phase = .fault ∧ t.dec.phase ≠ .fault) ∧
    (∃ s t : State, step s = .next t ∧ s.mdl.valid = false ∧ t.mdl.valid = true) ∧
    HostResets [.reset] ∧ HostResets [.resetDuring 1, .word 0x1200000000000000#64] ∧
    HostResets [.word 0x0100000000000001#64, .reset] ∧ ¬ HostResets [.word 0x1000000000000000#64] :=
  ⟨⟨{ State.reset with enc := ⟨0, 0, 0, .fault⟩, port := [.word 0x1000000000000000#64] }, _, rfl, rfl, by decide⟩,
    ⟨{ State.reset with dec := ⟨0, 0, 0, .fault⟩, port := [.reset] }, _, rfl, rfl, by decide⟩,
    ⟨{ State.reset with port := [.word 0x0100000000000001#64, .word 0x0000010000000001#64] }, _, rfl, rfl, by decide⟩,
    .inl ⟨_, .inl rfl⟩, .inl ⟨_, .inr ⟨1, rfl⟩⟩, .inr ⟨_, rfl, _, .inl rfl⟩, fun h => by
      rcases h with ⟨_, h | ⟨_, h⟩⟩ | ⟨r, h, _⟩
      · cases h
      · cases h
      · have : fetch [.word 0x1000000000000000#64] = .command .einit [] := by decide
        rw [this] at h
        cases h⟩

theorem witness_ModelCommandsFrame :
    (∃ t, exec (.build scenarioEntries) scenarioStart = .next t) ∧ ∃ t, exec (.symat 8#40) scenarioStart = .next t :=
  ⟨⟨_, rfl⟩, _, rfl⟩

theorem witness_EncoderCommandsFrame :
    (∃ t, exec (.encode 65#9) scenarioStart = .next t) ∧ ∃ t, exec .efinish scenarioStart = .next t := ⟨⟨_, rfl⟩, _, rfl⟩

theorem witness_DecoderCommandsFrame :
    (∃ t, exec .dinit scenarioStart = .next t) ∧ ∃ t, exec .decode scenarioStart = .next t := ⟨⟨_, rfl⟩, _, rfl⟩

theorem witness_TracesOnlyGrow :
    (∃ t, step (scenarioWith [.resetDuring 1, .word 0x2100000000000000#64]) = .next t) ∧
    ∃ t, step (scenarioWith [.loadSource [true]]) = .next t := ⟨⟨_, rfl⟩, _, rfl⟩

theorem witness_StepKeepsTheIntervals :
    (scenarioWith [.word 0x2100000000000000#64]).Inv ∧ ∃ t, step (scenarioWith [.word 0x2100000000000000#64]) = .next t :=
  ⟨scenarioWith_inv _, _, rfl⟩

/-- The one stop: SRC loaded while a BUILD waits (log 6). -/
theorem witness_StepNeverStops :
    (scenarioWith [.word 0x0100000000000001#64, .loadSource []]).Inv ∧
    step (scenarioWith [.word 0x0100000000000001#64, .loadSource []]) = .fault .sourceLoadedWhileBusy :=
  ⟨scenarioWith_inv _, rfl⟩

theorem witness_StepKeepsTheSinkProtocol :
    ∃ s t : State, s.SinkInv ∧ step s = .next t ∧ s.enc.phase = .active :=
  ⟨{ scenarioWith [.word 0x1200000000000000#64] with snk := [.opened, .w1] }, _,
    ⟨by decide, fun _ => by decide, fun h => by cases h⟩, rfl, rfl⟩

theorem witness_SentinelIsNeverEmitted :
    (∃ s t : State, (∀ x, SymEvent.sym x ∈ s.symout → x ≠ 256#9) ∧ step s = .next t) ∧
    ∃ t, exec .decode scenarioStart = .next t ∧ t.symout = scenarioStart.symout ++ [.sym 65#9] :=
  ⟨⟨scenarioWith [.word 0x2100000000000000#64], _, fun x h => (by cases h), rfl⟩, _, rfl, by decide⟩

/-- A used encoder and a fresh one. -/
theorem witness_EncodingIsDeterministic :
    ∃ s1 s2 : State, s1.params = s2.params ∧ s1.mdl = s2.mdl ∧ s1.enc ≠ s2.enc :=
  ⟨scenarioStart, { scenarioStart with enc := ⟨0, 0, 0, .idle⟩, snk := [.opened, .w0] }, rfl, rfl, by decide⟩

/-- V10: the whole scenario answers OK throughout and writes the stream 001110111. -/
theorem witness_RoundTrip :
    (∃ t rs, execAll ([Instr.einit] ++ [65#9, 65#9, 66#9, 67#9].map (fun x => Instr.encode x) ++
        [Instr.encode 256#9, Instr.efinish]) scenarioStart = some (t, rs) ∧
      (∀ r ∈ rs, r = some (okResponse 0#40 0#40)) ∧
      sessionStream t.snk = [false, false, true, true, true, false, true, true, true]) ∧
    scenarioStart.mdl.valid = true ∧ ModelOk scenarioStart.mdl ∧ (∀ x ∈ [65#9, 65#9, 66#9, 67#9], x ≠ (256#9 : Sym)) ∧
    ∃ d : State, d.params = scenarioStart.params ∧ d.mdl = scenarioStart.mdl ∧
      d.src = [false, false, true, true, true, false, true, true, true] ++ List.replicate 0 false :=
  ⟨⟨_, _, rfl, by decide, by decide⟩, rfl, scenarioModel_ok, by decide,
    { scenarioStart with src := [false, false, true, true, true, false, true, true, true] }, rfl, rfl, rfl⟩

end Sys2Proof.Tests
end

section
/-! SUPPORT. The obligations of 00_scope.md. -/

namespace Sys2Proof.Machine

/-- From two bits on, the floor in QUARTER is exact (00_scope.md R7). -/
theorem quarter_eq_two_pow {n : Nat} (hn : 2 ≤ n) : quarter n = 2 ^ (n - 2) := by
  have hsplit : (2 : Nat) ^ n = 2 ^ (n - 2) * 4 := (Nat.pow_sub_mul_pow 2 hn).symm
  have hquarter := four_quarter hn
  omega

/-- Settles O22: the general values are the definitions of R7, the power of two in QUARTER is `quarter_eq_two_pow`, and the values
for `n = 1` and `n = 17` are computed. -/
theorem instanceConstants : Obligations.InstanceConstants :=
  have general : ∀ n : Nat, 1 ≤ n →
      mask n = 2 ^ n - 1 ∧ half n = 2 ^ (n - 1) ∧ quarter n = 2 ^ n / 4 ∧ maxTotal n = quarter n :=
    fun _ _ => ⟨rfl, rfl, rfl, rfl⟩
  have oneBit : quarter 1 = 0 := by decide
  have reference : mask 17 = 131071 ∧ half 17 = 65536 ∧ quarter 17 = 32768 ∧ maxTotal 17 = 32768 := by decide
  ⟨general, fun _ => quarter_eq_two_pow, oneBit, reference⟩

end Sys2Proof.Machine
end

section
/-! SUPPORT. What the plan of a command can be and what a step can do, each said once as the cases of a relation; every frame and every
invariant of the block is then a case analysis. -/

namespace Sys2Proof.Machine

/-- Everything the plan of a command can be: the registers it writes and the transfers it makes, with the tests that led there. -/
inductive PlanForm (s : State) : Instr → Plan → Prop
  /-- A query or a refusal: nothing is written and nothing transferred. -/
  | answers (i : Instr) (r : Response) : PlanForm s i { regs := s, xfers := [], rsp := r }
  /-- A mapping BUILD rejects. -/
  | buildFails (es : List EntryWord) (r : Response) (bad : badMapping es = true) :
      PlanForm s (.build es) { regs := s.invalidateModel, xfers := [], rsp := r }
  /-- A mapping BUILD accepts. -/
  | buildStores (es : List EntryWord) (r : Response) (good : badMapping es = false) :
      PlanForm s (.build es)
        { regs := { s with mdl := { tab := tabulate 0 es ++ s.mdl.tab.drop es.length, n := BitVec.ofNat 9 es.length,
                                    total := BitVec.ofNat 40 (accumulate 0 es), valid := true } },
          xfers := [], rsp := r }
  | einit (r : Response) :
      PlanForm s .einit
        { regs := { s with enc := { low := 0, high := mask s.params.numbits, pending := 0, phase := .active } },
          xfers := [.snk .opened], rsp := r }
  /-- A session-fatal status of ENCODE. -/
  | encodeFails (sym : Sym) (r : Response) (active : s.enc.phase = .active)
      (fatal : r.status = .unknownSymbol ∨ r.status = .precisionExhausted ∨ r.status = .pendingOverflow) :
      PlanForm s (.encode sym) { regs := { s with enc := { s.enc with phase := .fault } }, xfers := [], rsp := r }
  /-- ENCODE narrows to the symbol's interval and renormalises. -/
  | encodeWrites (sym : Sym) (cl ch : Cum) (w : EncWork) (r : Response) (active : s.enc.phase = .active)
      (valid : s.mdl.valid = true) (range : s.mdl.rangeOf sym = some (cl, ch))
      (fits : tooLarge s.params.numbits s.mdl.total = false) (work : encodeWork s.params s.enc cl ch s.mdl.total = some w) :
      PlanForm s (.encode sym)
        { regs := { s with enc := { s.enc with low := w.low, high := w.high, pending := w.pend } },
          xfers := w.bits.map fun b => .snk (SnkEvent.ofBit b), rsp := r }
  | efinish (r : Response) (active : s.enc.phase = .active) :
      PlanForm s .efinish
        { regs := { s with enc := { s.enc with phase := .done } },
          xfers := [.snk (SnkEvent.ofBit true), .snk .closed], rsp := r }
  | dinit (r : Response) :
      PlanForm s .dinit
        { regs := { s with dec := { low := 0, high := mask s.params.numbits,
                                    code := fillCode s.params.numbits s.params.numbits 0 s.src, phase := .active } },
          xfers := List.replicate s.params.numbits .srcRead ++ [.sym .opened], rsp := r }
  /-- The session-fatal status of DECODE. -/
  | decodeFails (r : Response) (active : s.dec.phase = .active) (fatal : r.status = .precisionExhausted) :
      PlanForm s .decode { regs := { s with dec := { s.dec with phase := .fault } }, xfers := [], rsp := r }
  /-- DECODE emits a symbol that is not the sentinel, narrows to its interval and renormalises. -/
  | decodeEmits (sym : Sym) (cl ch : Cum) (r : Response) (active : s.dec.phase = .active) (valid : s.mdl.valid = true)
      (fits : tooLarge s.params.numbits s.mdl.total = false)
      (found : s.mdl.symbolAt (decodeValue s.dec.low s.dec.high s.dec.code s.mdl.total.toNat) = some sym)
      (not_eos : sym ≠ eos) (range : s.mdl.rangeOf sym = some (cl, ch)) :
      PlanForm s .decode
        { regs := { s with dec := { s.dec with
            low := (decodeWork s.params.numbits s.dec s.src cl ch s.mdl.total).low
            high := (decodeWork s.params.numbits s.dec s.src cl ch s.mdl.total).high
            code := (decodeWork s.params.numbits s.dec s.src cl ch s.mdl.total).code } },
          xfers := .sym (.sym sym) ::
            List.replicate (decodeWork s.params.numbits s.dec s.src cl ch s.mdl.total).reads .srcRead,
          rsp := r }

theorem planBuild_form {es : List EntryWord} {s : State} {p : Plan} (h : planBuild es s = .next p) :
    PlanForm s (.build es) p := by
  unfold planBuild at h
  split at h <;> cases h
  · exact .buildFails es _ ‹_›
  · exact .buildStores es _ (eq_false_of_ne_true ‹_›)

theorem planTotal_form {s : State} {p : Plan} (h : planTotal s = .next p) : PlanForm s .total p := by
  unfold planTotal at h
  split at h <;> cases h <;> exact .answers _ _

theorem planRangeof_form {sym : Sym} {s : State} {p : Plan} (h : planRangeof sym s = .next p) :
    PlanForm s (.rangeof sym) p := by
  unfold planRangeof at h
  split at h
  · split at h <;> cases h <;> exact .answers _ _
  · cases h; exact .answers _ _

theorem planSymat_form {v : Cum} {s : State} {p : Plan} (h : planSymat v s = .next p) : PlanForm s (.symat v) p := by
  unfold planSymat at h
  split at h
  · split at h
    · cases h; exact .answers _ _
    · split at h <;> cases h
      exact .answers _ _
  · cases h; exact .answers _ _

theorem planEncode_form {sym : Sym} {s : State} {p : Plan} (h : planEncode sym s = .next p) :
    PlanForm s (.encode sym) p := by
  unfold planEncode at h
  split at h
  · cases h; exact .answers _ _
  have active : s.enc.phase = .active := not_ne_iff.mp ‹_›
  split at h
  · cases h; exact .answers _ _
  have valid : s.mdl.valid = true := eq_true_of_ne_false ‹_›
  split at h
  · cases h; exact .encodeFails sym _ active (.inl rfl)
  next cl ch range =>
    split at h
    · cases h; exact .encodeFails sym _ active (.inr (.inl rfl))
    have fits : tooLarge s.params.numbits s.mdl.total = false := eq_false_of_ne_true ‹_›
    split at h <;> cases h
    · exact .encodeFails sym _ active (.inr (.inr rfl))
    · exact .encodeWrites sym cl ch _ _ active valid range fits ‹_›

theorem planEfinish_form {s : State} {p : Plan} (h : planEfinish s = .next p) : PlanForm s .efinish p := by
  unfold planEfinish at h
  split at h <;> cases h
  · exact .answers _ _
  · exact .efinish _ (not_ne_iff.mp ‹_›)

theorem planDecode_form {s : State} {p : Plan} (h : planDecode s = .next p) : PlanForm s .decode p := by
  unfold planDecode at h
  split at h
  · cases h; exact .answers _ _
  have active : s.dec.phase = .active := not_ne_iff.mp ‹_›
  split at h
  · cases h; exact .answers _ _
  have valid : s.mdl.valid = true := eq_true_of_ne_false ‹_›
  split at h
  · cases h; exact .decodeFails _ active rfl
  have fits : tooLarge s.params.numbits s.mdl.total = false := eq_false_of_ne_true ‹_›
  split at h
  · cases h
  next sym found =>
    split at h
    · cases h; exact .answers _ _
    split at h <;> cases h
    exact .decodeEmits sym _ _ _ active valid fits found ‹_› ‹_›

/-- The plan of every command has one of the forms. -/
theorem planOf_form {i : Instr} {s : State} {p : Plan} (h : planOf i s = .next p) : PlanForm s i p := by
  cases i with
  | build es => exact planBuild_form h
  | total => exact planTotal_form h
  | rangeof sym => exact planRangeof_form h
  | symat v => exact planSymat_form h
  | einit => cases h; exact .einit _
  | encode sym => exact planEncode_form h
  | efinish => exact planEfinish_form h
  | dinit => cases h; exact .dinit _
  | decode => exact planDecode_form h

/-- A command that completes is a plan of one of the forms, completed. -/
theorem exec_form {i : Instr} {s t : State} (h : exec i s = .next t) : ∃ p, PlanForm s i p ∧ t = p.completed := by
  rw [exec_eq_complete, complete_eq_next] at h
  obtain ⟨p, hp, ht⟩ := h
  exact ⟨p, planOf_form hp, ht⟩

/-- Everything a step that answers a next state can have done to the block. -/
inductive StepForm (s : State) : State → Prop
  /-- An idle block, an illegal word, a BUILD that goes on waiting: at most the host's moves and the response change. -/
  | quiet (port : List HostMove) (rsp : Option Response) : StepForm s { s with port := port, rsp := rsp }
  | loadSource (bits : List Bool) (rest : List HostMove) (move : s.port = .loadSource bits :: rest) :
      StepForm s ({ s with port := rest }.loadSource bits)
  /-- A reset, between commands or after some transfers of the command it strikes. -/
  | reset (port : List HostMove) (xs : List Transfer)
      (planned : ∀ x ∈ xs, ∃ i p, PlanForm { s with port := port } i p ∧ x ∈ p.xfers) :
      StepForm s ({ s with port := port }.transfers xs).hardReset
  /-- A command run to completion. -/
  | command (i : Instr) (port : List HostMove) (p : Plan) (form : PlanForm { s with port := port } i p) :
      StepForm s p.completed

/-- A reset during a command is a reset after some of its transfers, or a plain one. -/
theorem resetDuringCommand_form {k : Nat} {s t : State} {moves : List HostMove}
    (h : resetDuringCommand k { s with port := moves } = .next t) : StepForm s t := by
  rcases resetDuring_next_cases h with ⟨port, rfl⟩ | ⟨i, rest, p, -, hp, rfl⟩
  · exact .reset port [] (by simp)
  · exact .reset rest _ fun x hx => ⟨i, p, planOf_form hp, List.mem_of_mem_take hx⟩

/-- Every step has one of the forms. -/
theorem step_form {s t : State} (h : step s = .next t) : StepForm s t := by
  rcases step_next_cases h with ⟨-, rfl⟩ | ⟨bits, rest, move, rfl⟩ | ⟨rest, -, rfl⟩ | ⟨k, rest, -, hk⟩ | ⟨i, rest, -, hi⟩ |
    ⟨rest, -, rfl⟩ | ⟨rest, -, hw⟩
  · exact .quiet t.port t.rsp
  · exact .loadSource bits rest move
  · exact .reset rest [] (by simp)
  · exact resetDuringCommand_form hk
  · obtain ⟨p, form, rfl⟩ := exec_form hi
    exact .command i rest p form
  · exact .quiet rest _
  · rcases waitForEntries_next_cases hw with ⟨rfl, -⟩ | ⟨rest', -, rfl⟩
    · exact .quiet t.port t.rsp
    · exact .reset rest' [] (by simp)

/-- Settles O11: both moves are arms of `step` that run no command. -/
theorem idleAndLoadSource : Obligations.IdleAndLoadSource := by
  refine ⟨fun s idle => ?_, fun s bits rest move => ?_⟩
  · rw [step, idle]
  · rw [step, move]; rfl

/-- Settles O44: among the forms of a plan, only those of EINIT, EFINISH, DINIT and of the session-fatal statuses write a phase. -/
theorem phasesAreEnteredOnlyByTheirCommands : Obligations.PhasesAreEnteredOnlyByTheirCommands := by
  intro i s t h
  obtain ⟨p, form, rfl⟩ := exec_form h
  rw [completed_enc, completed_dec, completed_rsp]
  cases form with
  | answers | buildFails | buildStores | encodeWrites | decodeEmits =>
    exact ⟨fun changed => absurd rfl changed, fun changed => absurd rfl changed⟩
  | einit => exact ⟨fun _ => .inl ⟨rfl, rfl⟩, fun changed => absurd rfl changed⟩
  | encodeFails sym r active fatal =>
    exact ⟨fun _ => .inr (.inr ⟨rfl, ⟨sym, rfl⟩, active, r, rfl, fatal⟩), fun changed => absurd rfl changed⟩
  | efinish r active => exact ⟨fun _ => .inr (.inl ⟨rfl, rfl, active⟩), fun changed => absurd rfl changed⟩
  | dinit => exact ⟨fun changed => absurd rfl changed, fun _ => .inl ⟨rfl, rfl⟩⟩
  | decodeFails r active fatal =>
    exact ⟨fun changed => absurd rfl changed, fun _ => .inr ⟨rfl, rfl, active, r, rfl, fatal⟩⟩

/-- No plan writes the ports or the constants among its registers; only its transfers touch the ports. -/
theorem PlanForm.regs_ports {s : State} {i : Instr} {p : Plan} (form : PlanForm s i p) :
    p.regs.snk = s.snk ∧ p.regs.symout = s.symout ∧ p.regs.src = s.src ∧ p.regs.params = s.params := by
  cases form <;> exact ⟨rfl, rfl, rfl, rfl⟩

/-- Settles O49: whatever the step, only transfers and LoadSource touch the ports, and transfers only append and read. -/
theorem tracesOnlyGrow : Obligations.TracesOnlyGrow := by
  intro s t h
  cases step_form h with
  | quiet port rsp => exact ⟨List.prefix_refl _, List.prefix_refl _, rfl, .inl ⟨0, rfl⟩⟩
  | loadSource bits rest move => exact ⟨List.prefix_refl _, List.prefix_refl _, rfl, .inr ⟨bits, rest, move, rfl⟩⟩
  | reset port xs =>
    obtain ⟨hsnk, hsymout, hsrc⟩ := transfers_traces { s with port := port } xs
    exact ⟨hsnk, hsymout, by simp, .inl hsrc⟩
  | command i port p form =>
    obtain ⟨regs_snk, regs_symout, regs_src, regs_params⟩ := form.regs_ports
    have traces := transfers_traces p.regs p.xfers
    rw [regs_snk, regs_symout, regs_src] at traces
    obtain ⟨hsnk, hsymout, hsrc⟩ := traces
    exact ⟨hsnk, hsymout, by simp [regs_params], .inl hsrc⟩

/-- The event a transfer appends to SYMOUT, if it is one at the symbol port. -/
def Transfer.symEvent? : Transfer → Option SymEvent
  | .snk _ => none
  | .srcRead => none
  | .sym e => some e

@[simp] theorem symEvent?_eq_some {x : Transfer} {e : SymEvent} : x.symEvent? = some e ↔ x = .sym e := by
  cases x <;> simp [Transfer.symEvent?]

/-- Transfers append to SYMOUT exactly their symbol events, in order. -/
theorem transfers_symout (s : State) (xs : List Transfer) :
    (s.transfers xs).symout = s.symout ++ xs.filterMap Transfer.symEvent? := by
  induction xs generalizing s with
  | nil => simp
  | cons x xs ih =>
    rw [transfers_cons, ih]
    cases x with
    | snk e => rfl
    | srcRead => rfl
    | sym e => simp [State.transfer, Transfer.symEvent?]

/-- A look-up by value answers the symbol of an entry whose interval holds the value. -/
theorem symbolAt_eq_some {m : Mdl} {v : Nat} {sym : Sym} (h : m.symbolAt v = some sym) :
    ∃ e ∈ m.entries, e.sym = sym ∧ e.cl.toNat ≤ v ∧ v < e.ch.toNat := by
  unfold Mdl.symbolAt at h
  split at h <;> cases h
  next e he => exact ⟨e, List.mem_of_find?_eq_some he, rfl, by simpa using List.find?_some he⟩

/-- A look-up by symbol answers the interval of an entry of that symbol. -/
theorem rangeOf_eq_some {m : Mdl} {sym : Sym} {cl ch : Cum} (h : m.rangeOf sym = some (cl, ch)) :
    ∃ e ∈ m.entries, e.sym = sym ∧ e.cl = cl ∧ e.ch = ch := by
  unfold Mdl.rangeOf at h
  split at h <;> cases h
  next e he => exact ⟨e, List.mem_of_find?_eq_some he, by simpa using List.find?_some he, rfl, rfl⟩

/-- Only DECODE sends a symbol, and it is a symbol of the model other than the sentinel. -/
theorem PlanForm.sends_symbol {s : State} {i : Instr} {p : Plan} {x : Sym} (form : PlanForm s i p)
    (sent : Transfer.sym (.sym x) ∈ p.xfers) : i = .decode ∧ x ≠ eos ∧ ∃ e ∈ s.mdl.entries, e.sym = x := by
  cases form with
  | answers | buildFails | buildStores | encodeFails | decodeFails => simp at sent
  | einit | encodeWrites | efinish | dinit => simp at sent
  | decodeEmits sym cl ch r active valid fits found not_eos =>
    obtain rfl : x = sym := by simpa using sent
    obtain ⟨e, mem, is_sym, -⟩ := symbolAt_eq_some found
    exact ⟨rfl, not_eos, e, mem, is_sym⟩

/-- A symbol in SYMOUT after some transfers was there before or is sent by one of them. -/
theorem sym_mem_transfers {s : State} {xs : List Transfer} {e : SymEvent} (h : e ∈ (s.transfers xs).symout) :
    e ∈ s.symout ∨ .sym e ∈ xs := by
  simpa [transfers_symout] using h

/-- No step lets the sentinel into SYMOUT: a symbol that was not there is sent by a plan. -/
theorem step_keeps_sentinelFree {s t : State} (free : ∀ x, SymEvent.sym x ∈ s.symout → x ≠ 256#9) (h : step s = .next t) :
    ∀ x, SymEvent.sym x ∈ t.symout → x ≠ 256#9 := by
  intro x mem
  cases step_form h with
  | quiet => exact free x mem
  | loadSource => exact free x mem
  | reset port xs planned =>
    rcases sym_mem_transfers mem with old | sent
    · exact free x old
    · obtain ⟨i, p, form, planned⟩ := planned _ sent
      obtain ⟨-, not_eos, -⟩ := form.sends_symbol planned
      exact not_eos
  | command i port p form =>
    rcases sym_mem_transfers mem with old | sent
    · obtain ⟨-, regs_symout, -⟩ := form.regs_ports
      exact free x (regs_symout ▸ old)
    · obtain ⟨-, not_eos, -⟩ := form.sends_symbol sent
      exact not_eos

/-- Settles O54: what a command appends to SYMOUT is what its plan sends. -/
theorem sentinelIsNeverEmitted : Obligations.SentinelIsNeverEmitted := by
  refine ⟨fun s t free h => step_keeps_sentinelFree free h, fun i s t x h grown => ?_⟩
  obtain ⟨p, form, rfl⟩ := exec_form h
  obtain ⟨-, regs_symout, -⟩ := form.regs_ports
  rw [completed_symout, transfers_symout, regs_symout, List.append_cancel_left_eq] at grown
  have sent : SymEvent.sym x ∈ p.xfers.filterMap Transfer.symEvent? := by simp [grown]
  exact form.sends_symbol (by simpa using sent)

end Sys2Proof.Machine
end

section
/-! SUPPORT. BUILD's table is a model (10_state.md R25, 40_model_ops.md R112). -/

namespace Sys2Proof.Machine

theorem hasDuplicate_eq_false_iff {l : List Sym} : hasDuplicate l = false ↔ l.Nodup := by
  induction l with
  | nil => simp [hasDuplicate]
  | cons x xs ih => simp [hasDuplicate, ih]

theorem badEntry_eq_false_iff {e : EntryWord} :
    badEntry e = false ↔ e.resv = 0#23 ∧ e.sym.toNat ≤ 256 ∧ 1 ≤ e.freqInt := by
  simp [badEntry, and_assoc, Int.lt_iff_add_one_le]

/-- BUILD's tests over all entries are those of a good mapping. -/
theorem badMapping_eq_false_iff {es : List EntryWord} : badMapping es = false ↔ GoodMapping es := by
  have tests : badMapping es = false ↔
      (es ≠ [] ∧ ∀ e ∈ es, badEntry e = false) ∧ (es.map fun e => e.sym).Nodup := by
    simp [badMapping, hasDuplicate_eq_false_iff]
  simp only [tests, badEntry_eq_false_iff]
  exact ⟨fun ⟨⟨nonempty, entry⟩, distinct⟩ =>
      ⟨nonempty, fun e he => (entry e he).1, fun e he => (entry e he).2.1, fun e he => (entry e he).2.2, distinct⟩,
    fun good =>
      ⟨⟨good.nonempty, fun e he => ⟨good.reserved e he, good.alphabet e he, good.positive e he⟩⟩, good.distinct⟩⟩

/-- Distinct symbols up to the sentinel are at most 257. -/
theorem length_le_of_nodup_alphabet {l : List Sym} (distinct : l.Nodup) (alphabet : ∀ x ∈ l, x.toNat ≤ 256) :
    l.length ≤ 257 := by
  have distinct' : (l.map BitVec.toNat).Nodup := distinct.map fun _ _ => BitVec.eq_of_toNat_eq
  have within : l.map BitVec.toNat ⊆ List.range 257 := by
    intro v hv
    obtain ⟨x, hx, rfl⟩ := List.mem_map.mp hv
    exact List.mem_range.mpr (Nat.lt_succ_of_le (alphabet x hx))
  simpa using (List.subperm_of_subset distinct' within).length_le

theorem GoodMapping.length_le {es : List EntryWord} (good : GoodMapping es) : es.length ≤ 257 := by
  simpa using length_le_of_nodup_alphabet good.distinct (by simpa using good.alphabet)

theorem GoodMapping.freq_pos {es : List EntryWord} (good : GoodMapping es) {e : EntryWord} (he : e ∈ es) :
    1 ≤ e.freqInt.toNat := by
  have := good.positive e he
  simp only [EntryWord.freqInt]
  omega

theorem freqInt_toNat_le (e : EntryWord) : e.freqInt.toNat ≤ 2 ^ 31 := by
  have := BitVec.toInt_lt (x := e.freq)
  simp only [EntryWord.freqInt]
  omega

theorem le_accumulate (acc : Nat) (es : List EntryWord) : acc ≤ accumulate acc es := by
  induction es generalizing acc with
  | nil => exact Nat.le_refl _
  | cons e es ih => exact (Nat.le_add_right _ _).trans (ih _)

theorem accumulate_le (acc : Nat) (es : List EntryWord) : accumulate acc es ≤ acc + es.length * 2 ^ 31 := by
  induction es generalizing acc with
  | nil => simp [accumulate]
  | cons e es ih =>
    have := ih (acc + e.freqInt.toNat)
    have := freqInt_toNat_le e
    simp only [accumulate, List.length_cons]
    omega

/-- The total of a good mapping fits the total register. -/
theorem GoodMapping.accumulate_lt {es : List EntryWord} (good : GoodMapping es) : accumulate 0 es < 2 ^ 40 := by
  have := accumulate_le 0 es
  have := good.length_le
  omega

/-- The total of a good mapping is not 0. -/
theorem GoodMapping.accumulate_pos {es : List EntryWord} (good : GoodMapping es) : 1 ≤ accumulate 0 es := by
  cases es with
  | nil => exact absurd rfl good.nonempty
  | cons e es =>
    have := good.freq_pos (List.mem_cons_self (a := e) (l := es))
    exact (by omega : 1 ≤ 0 + e.freqInt.toNat).trans (le_accumulate _ es)

@[simp] theorem tabulate_length (acc : Nat) (es : List EntryWord) : (tabulate acc es).length = es.length := by
  induction es generalizing acc with
  | nil => rfl
  | cons e es ih => simp [tabulate, ih]

@[simp] theorem tabulate_map_sym (acc : Nat) (es : List EntryWord) :
    (tabulate acc es).map (fun e => e.sym) = es.map fun e => e.sym := by
  induction es generalizing acc with
  | nil => rfl
  | cons e es ih => simp [tabulate, ih]

theorem tabulate_head_cl {acc : Nat} {es : List EntryWord} (h : es ≠ []) :
    ((tabulate acc es).head?.map fun e => e.cl) = some (BitVec.ofNat 40 acc) := by
  cases es with
  | nil => exact absurd rfl h
  | cons e es => rfl

theorem tabulate_last_ch {acc : Nat} {es : List EntryWord} (h : es ≠ []) :
    ((tabulate acc es).getLast?.map fun e => e.ch) = some (BitVec.ofNat 40 (accumulate acc es)) := by
  induction es generalizing acc with
  | nil => exact absurd rfl h
  | cons e es ih =>
    cases es with
    | nil => rfl
    | cons e' es => exact ih (by simp)

theorem tabulate_contiguous (acc : Nat) (es : List EntryWord) :
    (tabulate acc es).IsChain fun a b => a.ch = b.cl := by
  induction es generalizing acc with
  | nil => exact .nil
  | cons e es ih =>
    cases es with
    | nil => exact .singleton _
    | cons e' es => exact .cons_cons rfl (ih _)

/-- Positive frequencies make intervals that are not empty, as long as the total fits its register. -/
theorem tabulate_nonempty {acc : Nat} {es : List EntryWord} (positive : ∀ e ∈ es, 1 ≤ e.freqInt.toNat)
    (fits : accumulate acc es < 2 ^ 40) : ∀ e ∈ tabulate acc es, e.cl.toNat < e.ch.toNat := by
  induction es generalizing acc with
  | nil => simp [tabulate]
  | cons x es ih =>
    have first_pos := positive x (by simp)
    have first_fits : acc + x.freqInt.toNat < 2 ^ 40 := (le_accumulate _ es).trans_lt fits
    intro e he
    rcases List.mem_cons.mp he with rfl | he
    · simp only [BitVec.toNat_ofNat]
      omega
    · exact ih (fun e he => positive e (by simp [he])) fits e he

theorem entries_tabulate {es : List EntryWord} (h : es.length ≤ 257) (slots : List TabEntry) (total : Cum) (valid : Bool) :
    Mdl.entries { tab := tabulate 0 es ++ slots, n := BitVec.ofNat 9 es.length, total := total, valid := valid } =
      tabulate 0 es := by
  have count : (BitVec.ofNat 9 es.length).toNat = es.length := by
    rw [BitVec.toNat_ofNat]; omega
  simp [Mdl.entries, count]

/-- What BUILD stores for a good mapping is a model, whatever stands in the slots beyond it. -/
theorem GoodMapping.modelOk {es : List EntryWord} (good : GoodMapping es) (slots : List TabEntry) :
    ModelOk { tab := tabulate 0 es ++ slots, n := BitVec.ofNat 9 es.length, total := BitVec.ofNat 40 (accumulate 0 es),
              valid := true } := by
  have length_le := good.length_le
  have length_pos : 1 ≤ es.length := List.length_pos_iff.mpr good.nonempty
  have count : (BitVec.ofNat 9 es.length).toNat = es.length := by
    rw [BitVec.toNat_ofNat]; omega
  have total : (BitVec.ofNat 40 (accumulate 0 es)).toNat = accumulate 0 es := Nat.mod_eq_of_lt good.accumulate_lt
  have syms : ∀ e ∈ tabulate 0 es, e.sym ∈ es.map fun x => x.sym := fun e he =>
    tabulate_map_sym 0 es ▸ List.mem_map_of_mem he
  constructor <;> simp only [entries_tabulate length_le, count, total]
  case size => exact ⟨length_pos, length_le⟩
  case present => exact tabulate_length 0 es
  case first => exact tabulate_head_cl good.nonempty
  case nonempty => exact tabulate_nonempty (fun e he => good.freq_pos he) good.accumulate_lt
  case contiguous => exact tabulate_contiguous 0 es
  case last => exact tabulate_last_ch good.nonempty
  case positive => exact good.accumulate_pos
  case distinct => simpa using good.distinct
  case alphabet =>
    intro e he
    obtain ⟨x, hx, same⟩ := List.mem_map.mp (syms e he)
    exact same ▸ good.alphabet x hx

/-- The model store holds its 257 slots, and a model when it is valid. -/
def Mdl.StoreOk (m : Mdl) : Prop := m.tab.length = 257 ∧ (m.valid = true → ModelOk m)

/-- A store with no model is in order whatever it contains. -/
theorem noModelStore_ok (draw : Nat) : (noModelStore draw).StoreOk := ⟨noModelStore_tab_length draw, by simp⟩

/-- What BUILD stores for a good mapping is in order. -/
theorem GoodMapping.storeOk {es : List EntryWord} (good : GoodMapping es) {tab : List TabEntry} (slots : tab.length = 257) :
    Mdl.StoreOk { tab := tabulate 0 es ++ tab.drop es.length, n := BitVec.ofNat 9 es.length,
                  total := BitVec.ofNat 40 (accumulate 0 es), valid := true } := by
  refine ⟨?_, fun _ => good.modelOk _⟩
  have := good.length_le
  simp only [List.length_append, tabulate_length, List.length_drop, slots]
  omega

/-- Of all plans only BUILD's write the model store, and they leave it in order. -/
theorem PlanForm.keeps_storeOk {s : State} {i : Instr} {p : Plan} (form : PlanForm s i p) (ok : s.mdl.StoreOk) :
    p.regs.mdl.StoreOk := by
  cases form with
  | buildFails => exact noModelStore_ok _
  | buildStores es r good => exact (badMapping_eq_false_iff.mp good).storeOk ok.1
  | answers | einit | encodeFails | encodeWrites | efinish | dinit | decodeFails | decodeEmits => exact ok

/-- Every step leaves the model store in order. -/
theorem step_keeps_storeOk {s t : State} (ok : s.mdl.StoreOk) (h : step s = .next t) : t.mdl.StoreOk := by
  cases step_form h with
  | quiet => exact ok
  | loadSource => exact ok
  | reset => exact noModelStore_ok _
  | command i port p form =>
    rw [completed_mdl]
    exact form.keeps_storeOk ok

/-- Settles O18: the invariant is `Mdl.StoreOk` of the store. -/
theorem stepKeepsTheModelInvariant : Obligations.StepKeepsTheModelInvariant :=
  fun _ _ slots model h => step_keeps_storeOk ⟨slots, model⟩ h

end Sys2Proof.Machine
end

section
/-! SUPPORT. The interval conditions and iterations as arithmetic, and where the loops of the coders end. -/

namespace Sys2Proof.Machine

theorem half_pos (n : Nat) : 0 < half n := Nat.two_pow_pos _

theorem quarter_pos {n : Nat} (hn : 2 ≤ n) : 0 < quarter n := by
  rw [quarter_eq_two_pow hn]; exact Nat.two_pow_pos _

theorem mask_succ_eq_two_half {n : Nat} (hn : 1 ≤ n) : mask n + 1 = 2 * half n := by
  rw [mask_succ, two_half hn]

theorem testBit_top {n v : Nat} (hn : 1 ≤ n) (hv : v ≤ mask n) : v.testBit (n - 1) = decide (half n ≤ v) := by
  have below : v < 2 ^ n := by have := mask_succ n; omega
  rw [← topBit_eq hn below]
  simp [topBit, bitField, Nat.testBit_eq_decide_div_mod_eq, Nat.shiftRight_eq_div_pow, beq_eq_decide]

/-- TopEq compares the halves the two ends lie in (41_encoder_ops.md R133). -/
theorem topEq_iff {n low high : Nat} (hn : 1 ≤ n) (hl : low ≤ mask n) (hh : high ≤ mask n) :
    topEq n low high = true ↔ (low < half n ↔ high < half n) := by
  have same_bit : topEq n low high = true ↔ low.testBit (n - 1) = high.testBit (n - 1) := by
    simp [topEq, half, Nat.and_two_pow, Nat.testBit_xor]
  rw [same_bit, testBit_top hn hl, testBit_top hn hh, decide_eq_decide, ← not_lt, ← not_lt, not_iff_not]

/-- The two top bits of a value number the quarter it lies in. -/
theorem bitField_top_two {n v : Nat} (hn : 2 ≤ n) (hv : v ≤ mask n) : bitField v (n - 1) (n - 2) = v / quarter n := by
  have width : n - 1 - (n - 2) + 1 = 2 := by omega
  have below : v / quarter n < 2 ^ 2 := by
    have := mask_succ n
    have := four_quarter hn
    rw [Nat.div_lt_iff_lt_mul (quarter_pos hn)]
    omega
  rw [bitField, width, Nat.shiftRight_eq_div_pow, ← quarter_eq_two_pow hn, Nat.mod_eq_of_lt below]

theorem two_le_of_straddle {n low high : Nat} (h : straddle n low high = true) : 2 ≤ n := by
  simp only [straddle, Bool.and_eq_true, decide_eq_true_eq] at h
  exact h.1.1

/-- Straddle says that the two ends lie in the second and the third quarter (41_encoder_ops.md R134). -/
theorem straddle_iff {n low high : Nat} (hn : 2 ≤ n) (hl : low ≤ mask n) (hh : high ≤ mask n) :
    straddle n low high = true ↔ quarter n ≤ low ∧ low < half n ∧ half n ≤ high ∧ high < 3 * quarter n := by
  have h2q := two_quarter hn
  have hq := quarter_pos hn
  simp only [straddle, bitField_top_two hn hl, bitField_top_two hn hh, Bool.and_eq_true, decide_eq_true_eq, beq_iff_eq,
    Nat.div_eq_iff hq]
  omega

theorem two_mul_or_bit (m : Nat) (b : Bool) : 2 * m ||| b.toNat = 2 * m + b.toNat :=
  (Nat.two_pow_add_eq_or_of_lt (i := 1) (Bool.toNat_lt b) m).symm

theorem half_or_of_lt {n v : Nat} (h : v < half n) : half n ||| v = half n + v := by
  simpa [half] using (Nat.two_pow_add_eq_or_of_lt (i := n - 1) h 1).symm

/-- One E1/E2 iteration: the half that the two ends share is taken off every value of the interval, the rest is doubled, and a bit
fills in (41_encoder_ops.md R138, 42_decoder_ops.md R164). -/
theorem shift_eq_of_topEq {n low high : Nat} (hn : 1 ≤ n) (nested : low ≤ high) (hh : high ≤ mask n)
    (top : topEq n low high = true) :
    ∃ base ≤ low, high < base + half n ∧ shiftLow n low = 2 * (low - base) ∧ shiftHigh n high = 2 * (high - base) + 1 ∧
      ∀ v, low ≤ v → v ≤ high → ∀ b : Bool, shl n v ||| b.toNat = 2 * (v - base) + b.toNat := by
  have hmask := mask_succ_eq_two_half hn
  have hpow := two_half hn
  have shared : ∃ base ≤ low, high < base + half n ∧ ∀ v, low ≤ v → v ≤ high → shl n v = 2 * (v - base) := by
    rcases Nat.lt_or_ge low (half n) with lower | upper
    · have high_lower : high < half n := ((topEq_iff hn (nested.trans hh) hh).mp top).mp lower
      refine ⟨0, Nat.zero_le _, by omega, fun v _ hv => ?_⟩
      rw [shl_eq, Nat.mod_eq_of_lt (by omega), Nat.sub_zero]
    · refine ⟨half n, upper, by omega, fun v hv hv' => ?_⟩
      have doubled : 2 * v = 2 * (v - half n) + 2 ^ n := by omega
      rw [shl_eq, doubled, Nat.add_mod_right, Nat.mod_eq_of_lt (by omega)]
  obtain ⟨base, base_le, high_lt, shifted⟩ := shared
  refine ⟨base, base_le, high_lt, shifted low (Nat.le_refl _) nested, ?_, fun v hv hv' b => ?_⟩
  · rw [shiftHigh, shifted high nested (Nat.le_refl _)]
    exact two_mul_or_bit _ true
  · rw [shifted v hv hv', two_mul_or_bit]

theorem fold_of_second_quarter {n v : Nat} (hn : 2 ≤ n) (hq : quarter n ≤ v) (hv : v < half n) :
    fold n v = 2 * (v - quarter n) := by
  have h2q := two_quarter hn
  have doubled : 2 * v = 2 * (v - quarter n) + 2 ^ (n - 1) := by
    have : half n = 2 ^ (n - 1) := rfl
    omega
  rw [fold_eq (by omega), doubled, Nat.add_mod_right, ← half, Nat.mod_eq_of_lt (by omega)]

theorem fold_of_third_quarter {n v : Nat} (hn : 2 ≤ n) (hv : half n ≤ v) (ht : v < 3 * quarter n) :
    fold n v = 2 * (v - half n) := by
  have h2q := two_quarter hn
  have doubled : 2 * v = 2 * (v - half n) + 2 ^ (n - 1) * 2 := by
    have : half n = 2 ^ (n - 1) := rfl
    omega
  rw [fold_eq (by omega), doubled, Nat.add_mul_mod_self_left, ← half, Nat.mod_eq_of_lt (by omega)]

/-- HALF put back on a folded value of the third quarter: the middle half is taken as a whole. -/
theorem half_or_fold_of_third_quarter {n v : Nat} (hn : 2 ≤ n) (hv : half n ≤ v) (ht : v < 3 * quarter n) :
    half n ||| fold n v = 2 * (v - quarter n) := by
  have h2q := two_quarter hn
  rw [fold_of_third_quarter hn hv ht, half_or_of_lt (by omega)]
  omega

/-- One E3 iteration on `high` (41_encoder_ops.md R139). -/
theorem foldHigh_eq {n v : Nat} (hn : 2 ≤ n) (hv : half n ≤ v) (ht : v < 3 * quarter n) :
    foldHigh n v = 2 * (v - quarter n) + 1 := by
  rw [foldHigh, Nat.or_comm (fold n v), half_or_fold_of_third_quarter hn hv ht]
  exact two_mul_or_bit _ true

/-- One E3 iteration on `code`: as on the ends of the interval, with a bit filling in (42_decoder_ops.md R165). -/
theorem foldCode_eq {n v : Nat} (hn : 2 ≤ n) (hq : quarter n ≤ v) (ht : v < 3 * quarter n) (b : Bool) :
    (v &&& half n) ||| fold n v ||| b.toNat = 2 * (v - quarter n) + b.toNat := by
  have h2q := two_quarter hn
  have hmask := mask_succ_eq_two_half (n := n) (by omega)
  have top : v &&& half n = (decide (half n ≤ v)).toNat * half n := by
    rw [← testBit_top (by omega) (by omega), half, Nat.and_two_pow]
  rw [top, ← two_mul_or_bit]
  rcases Nat.lt_or_ge v (half n) with lower | upper
  · simp [Nat.not_le.mpr lower, fold_of_second_quarter hn hq lower]
  · simp [upper, half_or_fold_of_third_quarter hn upper ht]

/-- An interval of `n`-bit values. -/
structure Nested (n low high : Nat) : Prop where
  ordered : low ≤ high
  high_mask : high ≤ mask n

/-- An interval whose ends lie in different halves, as the E1/E2 loop leaves it. -/
structure Split (n low high : Nat) : Prop where
  low_half : low < half n
  half_high : half n ≤ high
  high_mask : high ≤ mask n

theorem Settled.split {n low high : Nat} (h : Settled n low high) : Split n low high :=
  ⟨h.low_half, h.half_high, h.high_mask⟩

theorem Split.nested {n low high : Nat} (h : Split n low high) : Nested n low high :=
  ⟨by have := h.low_half; have := h.half_high; omega, h.high_mask⟩

theorem Nested.low_mask {n low high : Nat} (h : Nested n low high) : low ≤ mask n := h.ordered.trans h.high_mask

/-- The E1/E2 loop stops at an interval over both halves. -/
theorem Nested.split {n low high : Nat} (hn : 1 ≤ n) (h : Nested n low high) (stop : topEq n low high = false) :
    Split n low high := by
  have differ := (topEq_iff hn h.low_mask h.high_mask).not.mp (by simp [stop])
  have := h.ordered
  exact ⟨by omega, by omega, h.high_mask⟩

/-- The E3 loop stops at a renormalised interval (10_state.md R39). -/
theorem Split.settled {n low high : Nat} (hn : 1 ≤ n) (h : Split n low high) (stop : straddle n low high = false) :
    Settled n low high := by
  refine ⟨h.low_half, h.half_high, h.high_mask, fun middle => ?_⟩
  rcases Nat.lt_or_ge n 2 with small | large
  · obtain rfl : n = 1 := by omega
    exact absurd middle.2 (by simp [quarter])
  · have straddles := (straddle_iff large h.nested.low_mask h.high_mask).mpr ⟨middle.1, h.low_half, h.half_high, middle.2⟩
    simp [straddles] at stop

/-- The whole range of NUMBITS bits is renormalised: it is what a constructor starts from. -/
theorem settled_whole {n : Nat} (hn : 1 ≤ n) : Settled n 0 (mask n) := by
  have := half_pos n
  have := mask_succ_eq_two_half hn
  refine Split.settled hn ⟨by omega, by omega, Nat.le_refl _⟩ ?_
  rcases Nat.lt_or_ge n 2 with small | large
  · simp [straddle, Nat.not_le.mpr small]
  · have := quarter_pos large
    exact Bool.eq_false_iff.mpr fun straddles => by
      have := (straddle_iff large (Nat.zero_le _) (Nat.le_refl _)).mp straddles
      omega

/-- An E1/E2 iteration doubles the number of values. -/
theorem Nested.shift {n low high : Nat} (hn : 1 ≤ n) (h : Nested n low high) (top : topEq n low high = true) :
    Nested n (shiftLow n low) (shiftHigh n high) ∧
      shiftHigh n high + 1 - shiftLow n low = 2 * (high + 1 - low) := by
  obtain ⟨base, base_le, high_lt, low_eq, high_eq, -⟩ := shift_eq_of_topEq hn h.ordered h.high_mask top
  have ordered := h.ordered
  have := mask_succ_eq_two_half hn
  rw [low_eq, high_eq]
  exact ⟨⟨by omega, by omega⟩, by omega⟩

/-- An E3 iteration doubles the number of values and keeps the ends in their halves. -/
theorem Split.fold {n low high : Nat} (h : Split n low high) (straddles : straddle n low high = true) :
    Split n (foldLow n low) (foldHigh n high) ∧ foldHigh n high + 1 - foldLow n low = 2 * (high + 1 - low) := by
  have hn := two_le_of_straddle straddles
  obtain ⟨hq, hl, hh, ht⟩ := (straddle_iff hn h.nested.low_mask h.high_mask).mp straddles
  have := two_quarter hn
  have := mask_succ_eq_two_half (n := n) (by omega)
  rw [foldLow, fold_of_second_quarter hn hq hl, foldHigh_eq hn hh ht]
  exact ⟨⟨by omega, by omega, by omega⟩, by omega⟩

/-- An interval of `2 ^ n` values is the whole range. -/
theorem Nested.eq_whole {n low high : Nat} (h : Nested n low high) (full : 2 ^ n ≤ high + 1 - low) :
    low = 0 ∧ high = mask n := by
  have := mask_succ n
  have := h.high_mask
  omega

/-- `k` iterations suffice for the E1/E2 loop when `k` doublings make `2 ^ n` values of the interval. -/
theorem encShiftLoop_split {n : Nat} (hn : 1 ≤ n) (k : Nat) (w : EncWork) (nested : Nested n w.low w.high)
    (enough : 2 ^ n ≤ 2 ^ k * (w.high + 1 - w.low)) :
    Split n (encShiftLoop n k w).low (encShiftLoop n k w).high := by
  induction k generalizing w with
  | zero =>
    obtain ⟨low_eq, high_eq⟩ := nested.eq_whole (by simpa using enough)
    simpa only [encShiftLoop, low_eq, high_eq] using (settled_whole hn).split
  | succ k ih =>
    rw [encShiftLoop]
    split
    · next top =>
      obtain ⟨nested', doubled⟩ := nested.shift hn top
      exact ih (encShift n w) nested' (by simpa [encShift, doubled, Nat.pow_succ, Nat.mul_assoc] using enough)
    · next stop => exact nested.split hn (eq_false_of_ne_true stop)

/-- `k` iterations suffice for the E3 loop when `k` doublings make `2 ^ n` values of the interval. -/
theorem encFoldLoop_settled {n : Nat} (hn : 1 ≤ n) {pb : Option Nat} (k : Nat) (w w' : EncWork)
    (halves : Split n w.low w.high) (enough : 2 ^ n ≤ 2 ^ k * (w.high + 1 - w.low)) (ends : encFoldLoop n pb k w = some w') :
    Settled n w'.low w'.high := by
  induction k generalizing w with
  | zero =>
    cases ends
    obtain ⟨low_eq, high_eq⟩ := halves.nested.eq_whole (by simpa using enough)
    rw [low_eq, high_eq]
    exact settled_whole hn
  | succ k ih =>
    rw [encFoldLoop] at ends
    split at ends
    · next straddles =>
      obtain ⟨halves', doubled⟩ := halves.fold straddles
      split at ends
      · cases ends
      · exact ih (encFold n w) halves' (by simpa [encFold, doubled, Nat.pow_succ, Nat.mul_assoc] using enough) ends
    · next stop =>
      cases ends
      exact halves.settled hn (eq_false_of_ne_true stop)

/-- NUMBITS doublings are enough for any interval of at least one value. -/
theorem Nested.enough {n low high : Nat} (h : Nested n low high) : 2 ^ n ≤ 2 ^ n * (high + 1 - low) := by
  have := h.ordered
  exact Nat.le_mul_of_pos_right _ (by omega)

/-- ENCODE's two loops renormalise the interval, when they do not overflow. -/
theorem encLoops_settled {n : Nat} (hn : 1 ≤ n) {pb : Option Nat} {w w' : EncWork} (nested : Nested n w.low w.high)
    (ends : encFoldLoop n pb n (encShiftLoop n n w) = some w') : Settled n w'.low w'.high :=
  have halves := encShiftLoop_split hn n w nested nested.enough
  encFoldLoop_settled hn n _ w' halves halves.nested.enough ends

/-- ENCODE's loops keep the pending count within its register: E1/E2 clears it and E3 refuses to pass the limit. -/
theorem encLoops_pendingFits {n : Nat} {pb : Option Nat} {k : Nat} {w w' : EncWork} (fits : PendingFits pb w.pend)
    (ends : encFoldLoop n pb k (encShiftLoop n k w) = some w') : PendingFits pb w'.pend := by
  refine encFoldLoop_keeps (P := fun v => PendingFits pb v.pend) (fun v _ below hv b hb => ?_) _ _ _ ends
    (encShiftLoop_keeps (P := fun v => PendingFits pb v.pend) (fun _ _ _ b _ => Nat.two_pow_pos b) _ _ fits)
  have limit := hv b hb
  simp only [pendingFull, hb, beq_eq_false_iff_ne] at below
  simp only [encFold]
  omega

/-- DECODE's working interval, with the code in it. -/
structure DecWork.Inside (n : Nat) (w : DecWork) : Prop where
  low_code : w.low ≤ w.code
  code_high : w.code ≤ w.high
  high_mask : w.high ≤ mask n

theorem DecWork.Inside.nested {n : Nat} {w : DecWork} (h : w.Inside n) : Nested n w.low w.high :=
  ⟨h.low_code.trans h.code_high, h.high_mask⟩

theorem DecWork.Inside.shift {n : Nat} (hn : 1 ≤ n) {w : DecWork} (h : w.Inside n) (top : topEq n w.low w.high = true) :
    (decShift n w).Inside n := by
  obtain ⟨base, base_le, -, low_eq, high_eq, shifted⟩ := shift_eq_of_topEq hn h.nested.ordered h.high_mask top
  obtain ⟨nested', -⟩ := h.nested.shift hn top
  obtain ⟨low_code, code_high, -⟩ := h
  have low' : (decShift n w).low = 2 * (w.low - base) := low_eq
  have high' : (decShift n w).high = 2 * (w.high - base) + 1 := high_eq
  have code' : (decShift n w).code = 2 * (w.code - base) + (srcRead w.src).1.toNat := shifted w.code low_code code_high _
  have bit := Bool.toNat_lt (srcRead w.src).1
  exact ⟨by omega, by omega, nested'.high_mask⟩

theorem DecWork.Inside.fold {n : Nat} {w : DecWork} (h : w.Inside n) (halves : Split n w.low w.high)
    (straddles : straddle n w.low w.high = true) : (decFold n w).Inside n := by
  have hn := two_le_of_straddle straddles
  obtain ⟨hq, hl, hh, ht⟩ := (straddle_iff hn h.nested.low_mask h.high_mask).mp straddles
  obtain ⟨halves', -⟩ := halves.fold straddles
  obtain ⟨low_code, code_high, -⟩ := h
  have low' : (decFold n w).low = 2 * (w.low - quarter n) := fold_of_second_quarter hn hq hl
  have high' : (decFold n w).high = 2 * (w.high - quarter n) + 1 := foldHigh_eq hn hh ht
  have code' : (decFold n w).code = 2 * (w.code - quarter n) + (srcRead w.src).1.toNat :=
    foldCode_eq hn (by omega) (by omega) _
  have bit := Bool.toNat_lt (srcRead w.src).1
  exact ⟨by omega, by omega, halves'.high_mask⟩

/-- DECODE's E1/E2 loop ends over both halves, as ENCODE's does. -/
theorem decShiftLoop_split {n : Nat} (hn : 1 ≤ n) {w : DecWork} (nested : Nested n w.low w.high) :
    Split n (decShiftLoop n n w).low (decShiftLoop n n w).high := by
  obtain ⟨low_eq, high_eq⟩ :=
    decShiftLoop_interval n n w { low := w.low, high := w.high, pend := 0, bits := [] } rfl rfl
  rw [low_eq, high_eq]
  exact encShiftLoop_split hn n _ nested nested.enough

/-- DECODE's loops keep the code in the interval. -/
theorem decLoops_inside {n : Nat} (hn : 1 ≤ n) {w : DecWork} (h : w.Inside n) :
    (decFoldLoop n n (decShiftLoop n n w)).Inside n := by
  have shifted : (decShiftLoop n n w).Inside n :=
    decShiftLoop_keeps (P := DecWork.Inside n) (fun _ top h => h.shift hn top) _ _ h
  have folded := decFoldLoop_keeps (P := fun w => w.Inside n ∧ Split n w.low w.high)
    (fun _ straddles ⟨h, halves⟩ => ⟨h.fold halves straddles, (halves.fold straddles).1⟩) n _
    ⟨shifted, decShiftLoop_split hn h.nested⟩
  exact folded.1

/-- DECODE's two loops renormalise the interval, as ENCODE's do. -/
theorem decLoops_settled {n : Nat} (hn : 1 ≤ n) {w : DecWork} (nested : Nested n w.low w.high) :
    Settled n (decFoldLoop n n (decShiftLoop n n w)).low (decFoldLoop n n (decShiftLoop n n w)).high := by
  have halves := decShiftLoop_split hn nested
  obtain ⟨v, ends, low_eq, high_eq⟩ := decFoldLoop_interval n n (decShiftLoop n n w)
    { low := (decShiftLoop n n w).low, high := (decShiftLoop n n w).high, pend := 0, bits := [] } rfl rfl
  rw [low_eq, high_eq]
  exact encFoldLoop_settled hn n _ v halves halves.nested.enough ends

/-- A renormalised interval of two bits or more holds more values than any total the coders accept (00_scope.md R7). -/
theorem Settled.quarter_lt_range {n low high : Nat} (hn : 2 ≤ n) (h : Settled n low high) :
    quarter n < high - low + 1 := by
  obtain ⟨low_half, half_high, -, not_middle⟩ := h
  have := two_quarter hn
  omega

/-- Narrow gives a symbol of the model an interval of its own, in numbers: it ends inside the old one, and is not empty because the
range is at least the total (41_encoder_ops.md R132). -/
theorem narrow_nested {n low high cl ch total : Nat} (h : Nested n low high) (enough : total ≤ high - low + 1)
    (hc : cl < ch) (hct : ch ≤ total) :
    Nested n (narrow low high cl ch total).1 (narrow low high cl ch total).2 := by
  have total_pos : 0 < total := by omega
  have own_value : cl * (high - low + 1) / total + 1 ≤ ch * (high - low + 1) / total := by
    rw [Nat.le_div_iff_mul_le total_pos, Nat.add_mul, one_mul]
    calc cl * (high - low + 1) / total * total + total
        ≤ cl * (high - low + 1) + (high - low + 1) := Nat.add_le_add (Nat.div_mul_le_self _ _) enough
      _ = (cl + 1) * (high - low + 1) := by ring
      _ ≤ ch * (high - low + 1) := Nat.mul_le_mul_right _ hc
  have inside : ch * (high - low + 1) / total ≤ high - low + 1 :=
    Nat.div_le_of_le_mul (Nat.mul_le_mul_right _ hct)
  obtain ⟨ordered, high_mask⟩ := h
  constructor <;> simp only [narrow] <;> omega

/-- Narrow to the interval of the value a code stands for keeps the code inside (42_decoder_ops.md R162). -/
theorem narrow_inside {low high code cl ch total : Nat} (low_code : low ≤ code) (total_pos : 0 < total)
    (above : cl ≤ decodeValue low high code total) (below : decodeValue low high code total < ch) :
    (narrow low high cl ch total).1 ≤ code ∧ code ≤ (narrow low high cl ch total).2 := by
  have range_pos : 0 < high - low + 1 := Nat.succ_pos _
  rw [decodeValue, Nat.le_div_iff_mul_le range_pos] at above
  rw [decodeValue, Nat.div_lt_iff_lt_mul range_pos] at below
  have scaled_pos : 0 < (code - low + 1) * total := Nat.mul_pos (Nat.succ_pos _) total_pos
  have starts : cl * (high - low + 1) / total < code - low + 1 := by
    rw [Nat.div_lt_iff_lt_mul total_pos]; omega
  have ends : code - low + 1 ≤ ch * (high - low + 1) / total := by
    rw [Nat.le_div_iff_mul_le total_pos]; omega
  simp only [narrow]
  omega

end Sys2Proof.Machine
end

section
/-! SUPPORT. The invariants of the block (10_state.md R38, R39), unit by unit. -/

namespace Sys2Proof.Machine

/-- Contiguous intervals that are not empty end at the last one's end or before. -/
theorem ch_le_of_contiguous {l : List TabEntry} {total : Cum} (contiguous : l.IsChain fun a b => a.ch = b.cl)
    (nonempty : ∀ e ∈ l, e.cl.toNat < e.ch.toNat) (last : (l.getLast?.map fun e => e.ch) = some total) :
    ∀ e ∈ l, e.ch.toNat ≤ total.toNat := by
  induction l with
  | nil => simp
  | cons x l ih =>
    cases l with
    | nil =>
      obtain rfl : x.ch = total := by simpa using last
      simp
    | cons y l =>
      obtain ⟨meets, contiguous⟩ := List.isChain_cons_cons.mp contiguous
      have rest := ih contiguous (fun e he => nonempty e (.tail _ he)) last
      have y_nonempty := nonempty y (by simp)
      intro e he
      rcases List.mem_cons.mp he with rfl | he
      · exact meets ▸ y_nonempty.le.trans (rest y (by simp))
      · exact rest e he

/-- No entry of a model reaches beyond its total. -/
theorem ModelOk.ch_le_total {m : Mdl} (ok : ModelOk m) : ∀ e ∈ m.entries, e.ch.toNat ≤ m.total.toNat :=
  ch_le_of_contiguous ok.contiguous ok.nonempty ok.last

/-- A symbol has one entry in a model. -/
theorem ModelOk.entry_unique {m : Mdl} (ok : ModelOk m) {e e' : TabEntry} (he : e ∈ m.entries) (he' : e' ∈ m.entries)
    (same : e.sym = e'.sym) : e = e' :=
  List.inj_on_of_nodup_map ok.distinct he he' same

/-- The interval a model answers for a symbol is not empty and ends at the total or before. -/
theorem ModelOk.rangeOf_bounds {m : Mdl} (ok : ModelOk m) {sym : Sym} {cl ch : Cum} (range : m.rangeOf sym = some (cl, ch)) :
    cl.toNat < ch.toNat ∧ ch.toNat ≤ m.total.toNat := by
  obtain ⟨e, he, -, rfl, rfl⟩ := rangeOf_eq_some range
  exact ⟨ok.nonempty e he, ok.ch_le_total e he⟩

/-- The interval a model answers for the symbol at a value holds the value (20_memory.md R51). -/
theorem ModelOk.rangeOf_holds_value {m : Mdl} (ok : ModelOk m) {sym : Sym} {v : Nat} {cl ch : Cum}
    (found : m.symbolAt v = some sym) (range : m.rangeOf sym = some (cl, ch)) : cl.toNat ≤ v ∧ v < ch.toNat := by
  obtain ⟨e, he, rfl, above, below⟩ := symbolAt_eq_some found
  obtain ⟨e', he', same, rfl, rfl⟩ := rangeOf_eq_some range
  obtain rfl := ok.entry_unique he' he same
  exact ⟨above, below⟩

/-- A total the coders accept is at most QUARTER, and leaves no room for it on one bit (41_encoder_ops.md R137). -/
theorem two_le_of_total_fits {n : Nat} {total : Cum} (hn : 1 ≤ n) (pos : 1 ≤ total.toNat)
    (fits : tooLarge n total = false) : 2 ≤ n ∧ total.toNat ≤ quarter n := by
  have le_quarter : total.toNat ≤ quarter n := Nat.le_of_not_lt (of_decide_eq_false fits)
  refine ⟨?_, le_quarter⟩
  by_contra small
  obtain rfl : n = 1 := by omega
  have : quarter 1 = 0 := by decide
  omega

/-- Narrow from a renormalised interval to a symbol's interval, under a total the coders accept. -/
theorem Settled.narrow_nested {n low high : Nat} {m : Mdl} {sym : Sym} {cl ch : Cum} (hn : 1 ≤ n) (settled : Settled n low high)
    (ok : ModelOk m) (fits : tooLarge n m.total = false) (range : m.rangeOf sym = some (cl, ch)) :
    Nested n (narrow low high cl.toNat ch.toNat m.total.toNat).1 (narrow low high cl.toNat ch.toNat m.total.toNat).2 := by
  obtain ⟨two_le, total_le⟩ := two_le_of_total_fits hn ok.positive fits
  obtain ⟨nonempty, within⟩ := ok.rangeOf_bounds range
  exact Machine.narrow_nested settled.split.nested (total_le.trans (settled.quarter_lt_range two_le).le) nonempty within

/-- What the invariants say of the encoder (10_state.md R26, R27, R38, R39). -/
structure Enc.Ok (p : Params) (e : Enc) : Prop where
  lowFits : e.low ≤ mask p.numbits
  highFits : e.high ≤ mask p.numbits
  pendingFits : PendingFits p.pendBits e.pending
  settled : e.phase = .active ∨ e.phase = .done → Settled p.numbits e.low e.high

/-- What the invariants say of the decoder (10_state.md R30, R38, R39). -/
structure Dec.Ok (p : Params) (d : Dec) : Prop where
  lowFits : d.low ≤ mask p.numbits
  highFits : d.high ≤ mask p.numbits
  codeFits : d.code ≤ mask p.numbits
  settled : d.phase = .active → Settled p.numbits d.low d.high
  inside : d.phase = .active → d.low ≤ d.code ∧ d.code ≤ d.high

/-- The invariants are those of the model store, the encoder and the decoder. -/
theorem inv_iff {s : State} : s.Inv ↔ s.mdl.StoreOk ∧ s.enc.Ok s.params ∧ s.dec.Ok s.params :=
  ⟨fun inv => ⟨⟨inv.slots, inv.model⟩, ⟨inv.encLowFits, inv.encHighFits, inv.pendingFits, inv.encSettled⟩,
      ⟨inv.decLowFits, inv.decHighFits, inv.decCodeFits, inv.decSettled, inv.decInside⟩⟩,
    fun ⟨store, enc, dec⟩ => ⟨store.1, store.2, enc.lowFits, enc.highFits, enc.pendingFits, dec.lowFits, dec.highFits,
      dec.codeFits, enc.settled, dec.settled, dec.inside⟩⟩

theorem mod_le_mask (n v : Nat) : v % 2 ^ n ≤ mask n := by
  have := mask_succ n
  have := Nat.mod_lt v (Nat.two_pow_pos n)
  omega

theorem freePending_fits (pb : Option Nat) (draw slot : Nat) : PendingFits pb (freePending pb draw slot) := by
  rintro b rfl
  exact Nat.mod_lt _ (Nat.two_pow_pos b)

/-- After a hardware reset only the widths are left to say of the registers (70_reset_and_hazards.md R220). -/
theorem hardReset_inv (s : State) : s.hardReset.Inv :=
  inv_iff.mpr ⟨noModelStore_ok _, ⟨mod_le_mask _ _, mod_le_mask _ _, freePending_fits _ _ _, by simp⟩,
    ⟨mod_le_mask _ _, mod_le_mask _ _, mod_le_mask _ _, by simp, by simp⟩⟩

/-- Shifting a bit in keeps a code within `n` bits. -/
theorem shl_or_bit_le_mask {n : Nat} (hn : 1 ≤ n) (v : Nat) (b : Bool) : shl n v ||| b.toNat ≤ mask n := by
  have hmask := mask_succ_eq_two_half hn
  have := Nat.mod_lt v (half_pos n)
  have := Bool.toNat_lt b
  rw [shl_eq, ← two_half hn, Nat.mul_mod_mul_left, two_mul_or_bit]
  omega

theorem fillCode_le_mask {n : Nat} (hn : 1 ≤ n) (k code : Nat) (src : List Bool) (fits : code ≤ mask n) :
    fillCode n k code src ≤ mask n := by
  induction k generalizing code src with
  | zero => exact fits
  | succ k ih => exact ih _ _ (shl_or_bit_le_mask hn _ _)

/-- ENCODE's work leaves a renormalised interval and a pending count that fits. -/
theorem encodeWork_ok {p : Params} {e : Enc} {m : Mdl} {sym : Sym} {cl ch : Cum} {w : EncWork} (ok : e.Ok p)
    (active : e.phase = .active) (model : ModelOk m) (fits : tooLarge p.numbits m.total = false)
    (range : m.rangeOf sym = some (cl, ch)) (work : encodeWork p e cl ch m.total = some w) :
    Settled p.numbits w.low w.high ∧ PendingFits p.pendBits w.pend :=
  have hn := p.numbits_range.1
  ⟨encLoops_settled hn ((ok.settled (.inl active)).narrow_nested hn model fits range) work,
    encLoops_pendingFits ok.pendingFits work⟩

/-- DECODE's work leaves a renormalised interval with the code in it. -/
theorem decodeWork_ok {p : Params} {d : Dec} {m : Mdl} {sym : Sym} {cl ch : Cum} {src : List Bool} (ok : d.Ok p)
    (active : d.phase = .active) (model : ModelOk m) (fits : tooLarge p.numbits m.total = false)
    (found : m.symbolAt (decodeValue d.low d.high d.code m.total.toNat) = some sym)
    (range : m.rangeOf sym = some (cl, ch)) :
    Settled p.numbits (decodeWork p.numbits d src cl ch m.total).low (decodeWork p.numbits d src cl ch m.total).high ∧
      (decodeWork p.numbits d src cl ch m.total).Inside p.numbits := by
  have hn := p.numbits_range.1
  have nested := (ok.settled active).narrow_nested hn model fits range
  obtain ⟨above, below⟩ := model.rangeOf_holds_value found range
  obtain ⟨low_code, code_high⟩ := narrow_inside (ok.inside active).1 model.positive above below
  exact ⟨decLoops_settled hn nested, decLoops_inside hn ⟨low_code, code_high, nested.high_mask⟩⟩

/-- Every plan leaves the encoder in order. -/
theorem PlanForm.keeps_encOk {s : State} {i : Instr} {p : Plan} (form : PlanForm s i p) (inv : s.Inv) :
    p.regs.enc.Ok s.params := by
  obtain ⟨store, ok, -⟩ := inv_iff.mp inv
  have hn := s.params.numbits_range.1
  cases form with
  | answers | buildFails | buildStores | dinit | decodeFails | decodeEmits => exact ok
  | einit => exact ⟨Nat.zero_le _, Nat.le_refl _, fun b _ => Nat.two_pow_pos b, fun _ => settled_whole hn⟩
  | encodeFails => exact ⟨ok.lowFits, ok.highFits, ok.pendingFits, by simp⟩
  | encodeWrites sym cl ch w r active valid range fits work =>
    obtain ⟨settled, pendingFits⟩ := encodeWork_ok ok active (store.2 valid) fits range work
    exact ⟨settled.split.nested.low_mask, settled.high_mask, pendingFits, fun _ => settled⟩
  | efinish r active => exact ⟨ok.lowFits, ok.highFits, ok.pendingFits, fun _ => ok.settled (.inl active)⟩

/-- Every plan leaves the decoder in order. -/
theorem PlanForm.keeps_decOk {s : State} {i : Instr} {p : Plan} (form : PlanForm s i p) (inv : s.Inv) :
    p.regs.dec.Ok s.params := by
  obtain ⟨store, -, ok⟩ := inv_iff.mp inv
  have hn := s.params.numbits_range.1
  cases form with
  | answers | buildFails | buildStores | einit | encodeFails | encodeWrites | efinish => exact ok
  | dinit =>
    have codeFits := fillCode_le_mask hn s.params.numbits 0 s.src (Nat.zero_le _)
    exact ⟨Nat.zero_le _, Nat.le_refl _, codeFits, fun _ => settled_whole hn, fun _ => ⟨Nat.zero_le _, codeFits⟩⟩
  | decodeFails => exact ⟨ok.lowFits, ok.highFits, ok.codeFits, by simp, by simp⟩
  | decodeEmits sym cl ch r active valid fits found not_eos range =>
    obtain ⟨settled, inside⟩ := decodeWork_ok (src := s.src) ok active (store.2 valid) fits found range
    exact ⟨settled.split.nested.low_mask, settled.high_mask, inside.code_high.trans settled.high_mask, fun _ => settled,
      fun _ => ⟨inside.low_code, inside.code_high⟩⟩

/-- Every completed plan leaves the block in its invariants. -/
theorem PlanForm.completed_inv {s : State} {i : Instr} {p : Plan} (form : PlanForm s i p) (inv : s.Inv) :
    p.completed.Inv := by
  obtain ⟨-, -, -, regs_params⟩ := form.regs_ports
  rw [inv_iff, completed_mdl, completed_enc, completed_dec, completed_params, regs_params]
  exact ⟨form.keeps_storeOk (inv_iff.mp inv).1, form.keeps_encOk inv, form.keeps_decOk inv⟩

/-- The invariants say nothing of the ports and of the response. -/
theorem State.Inv.of_registers {s t : State} (inv : s.Inv) (params : t.params = s.params) (mdl : t.mdl = s.mdl)
    (enc : t.enc = s.enc) (dec : t.dec = s.dec) : t.Inv := by
  rw [inv_iff, params, mdl, enc, dec]
  exact inv_iff.mp inv

/-- Every step leaves the block in its invariants. -/
theorem step_keeps_inv {s t : State} (inv : s.Inv) (h : step s = .next t) : t.Inv := by
  cases step_form h with
  | quiet => exact inv.of_registers rfl rfl rfl rfl
  | loadSource => exact inv.of_registers rfl rfl rfl rfl
  | reset => exact hardReset_inv _
  | command i port p form => exact form.completed_inv (inv.of_registers rfl rfl rfl rfl)

/-- Settles O51: a renormalised interval is one of `n`-bit values. -/
theorem stepKeepsTheIntervals : Obligations.StepKeepsTheIntervals := by
  intro s t inv h
  have inv' := step_keeps_inv inv h
  exact ⟨inv', fun phase => ⟨(inv'.encSettled phase).split.nested.ordered, (inv'.encSettled phase).high_mask⟩,
    fun phase => ⟨(inv'.decSettled phase).split.nested.ordered, (inv'.decSettled phase).high_mask⟩⟩

end Sys2Proof.Machine
end

section
/-! SUPPORT. What the decoder reads, said once, and the step that runs it (30_encoding.md R80 to R89). -/

namespace Sys2Proof

/-- Above a word's low `k` bits an operand that fits them changes nothing. -/
theorem extractLsb'_or_operand_above {k : Nat} (m : Word) (x : BitVec k) {start : Nat} (len : Nat) (h : k ≤ start) :
    (m ||| x.setWidth 64).extractLsb' start len = m.extractLsb' start len := by
  apply BitVec.eq_of_getLsbD_eq
  intro i hi
  simp [BitVec.getLsbD_of_ge x (start + i) (by omega)]

/-- An operand laid over zeros reads back. -/
theorem extractLsb'_or_operand {k : Nat} (m : Word) (x : BitVec k) (hk : k ≤ 64) (zeros : m.extractLsb' 0 k = 0#k) :
    (m ||| x.setWidth 64).extractLsb' 0 k = x := by
  have whole : (x.setWidth 64).extractLsb' 0 k = x := by
    apply BitVec.eq_of_getLsbD_eq
    intro i hi
    simp [hi, show i < 64 by omega]
  rw [BitVec.extractLsb'_or, zeros, whole, BitVec.zero_or]

theorem opField_or_operand {k : Nat} (o : Op) (x : BitVec k) (hk : k ≤ 56) :
    (o.matchWord ||| x.setWidth 64).extractLsb' 56 8 = o.code := by
  rw [extractLsb'_or_operand_above _ _ _ hk]
  cases o <;> decide

/-- A command's first word has the command's own `op` field. -/
theorem opOfCode_encodeHead (i : Instr) : opOfCode ((encodeHead i).extractLsb' 56 8) = some i.op := by
  have field : (encodeHead i).extractLsb' 56 8 = i.op.code := by
    cases i with
    | build es => exact opField_or_operand .build (BitVec.ofNat 10 es.length) (by omega)
    | rangeof s => exact opField_or_operand .rangeof s (by omega)
    | symat v => exact opField_or_operand .symat v (by omega)
    | encode s => exact opField_or_operand .encode s (by omega)
    | total | einit | efinish | dinit | decode => decide
  rw [field, opOfCode_code]

theorem reserved_or_operand {k len : Nat} (m : Word) (x : BitVec k) (zeros : m.extractLsb' k len = 0#len) :
    ((m ||| x.setWidth 64).extractLsb' k len == 0#len) = true := by
  rw [extractLsb'_or_operand_above _ _ _ (Nat.le_refl k), zeros, beq_self_eq_true]

/-- A command's first word sets no reserved bit. -/
theorem reservedClear_encodeHead (i : Instr) : reservedClear i.op.format (encodeHead i) = true := by
  cases i with
  | build es => exact reserved_or_operand _ (BitVec.ofNat 10 es.length) (by decide)
  | rangeof s => exact reserved_or_operand _ s (by decide)
  | symat v => exact reserved_or_operand _ v (by decide)
  | encode s => exact reserved_or_operand _ s (by decide)
  | total | einit | efinish | dinit | decode => decide

/-- What the operands of a command are, read from its first word `w` and the words `ws` after it, when `rest` is left of them
(30_encoding.md R82 to R86, R89). -/
def ReadsOperands (w : Word) (ws rest : List Word) : Instr → Prop
  | .build es => countField w ≤ ws.length ∧ es = (ws.take (countField w)).map decodeEntry ∧ rest = ws.drop (countField w)
  | .total => rest = ws
  | .rangeof s => s = symField w ∧ rest = ws
  | .symat v => v = valueField w ∧ rest = ws
  | .einit => rest = ws
  | .encode s => s = symField w ∧ rest = ws
  | .efinish => rest = ws
  | .dinit => rest = ws
  | .decode => rest = ws

/-- Everything the decoder accepts: an assigned `op`, no reserved bit, and the operands there. -/
theorem decode_cons_eq_ok {w : Word} {ws rest : List Word} {i : Instr} :
    decode (w :: ws) = .ok (i, rest) ↔
      opOfCode (w.extractLsb' 56 8) = some i.op ∧ reservedClear i.op.format w = true ∧ ReadsOperands w ws rest i := by
  constructor
  · intro h
    simp only [decode] at h
    split at h
    · cases h
    next op hop =>
      split at h
      · next clear =>
        cases op with
        | build =>
          dsimp only at h
          split at h <;> cases h
          exact ⟨hop, clear, ‹_›, rfl, rfl⟩
        | rangeof | symat | encode => cases h; exact ⟨hop, clear, rfl, rfl⟩
        | total | einit | efinish | dinit | decode => cases h; exact ⟨hop, clear, rfl⟩
      · cases h
  · rintro ⟨hop, clear, operands⟩
    simp only [decode, hop, clear, if_true]
    cases i with
    | build es =>
      obtain ⟨there, rfl, rfl⟩ := operands
      exact if_pos there
    | rangeof | symat | encode => obtain ⟨rfl, rfl⟩ := operands; rfl
    | total | einit | efinish | dinit | decode => obtain rfl := operands; rfl

/-- The operands of a well-formed command read back, whatever follows its words. -/
theorem readsOperands_encode {i : Instr} (wf : i.wf = true) (ws : List Word) :
    ReadsOperands (encodeHead i) (encodeOperands i ++ ws) ws i := by
  cases i with
  | build es =>
    have length_le : es.length ≤ 1023 := of_decide_eq_true wf
    have count : countField (encodeHead (.build es)) = (es.map encodeEntry).length := by
      rw [countField, encodeHead, extractLsb'_or_operand _ _ (by omega) (by decide), BitVec.toNat_ofNat, List.length_map]
      omega
    simp only [ReadsOperands, count, encodeOperands, List.take_left, List.drop_left, List.map_map, List.length_append]
    exact ⟨Nat.le_add_right _ _, by simp [Function.comp_def], trivial⟩
  | rangeof s => exact ⟨(extractLsb'_or_operand _ s (by omega) (by decide)).symm, rfl⟩
  | symat v => exact ⟨(extractLsb'_or_operand _ v (by omega) (by decide)).symm, rfl⟩
  | encode s => exact ⟨(extractLsb'_or_operand _ s (by omega) (by decide)).symm, rfl⟩
  | total | einit | efinish | dinit | decode => rfl

/-- The words of a well-formed command decode to it, whatever follows them. -/
theorem decode_encode_append {i : Instr} (wf : i.wf = true) (ws : List Word) : decode (encode i ++ ws) = .ok (i, ws) :=
  decode_cons_eq_ok.mpr ⟨opOfCode_encodeHead i, reservedClear_encodeHead i, readsOperands_encode wf ws⟩

/-- Operands are read from the front: words added at the end are left over. -/
theorem ReadsOperands.append {w : Word} {ws rest : List Word} {i : Instr} (h : ReadsOperands w ws rest i) (more : List Word) :
    ReadsOperands w (ws ++ more) (rest ++ more) i := by
  cases i with
  | build es =>
    obtain ⟨there, rfl, rfl⟩ := h
    refine ⟨?_, ?_, ?_⟩
    · rw [List.length_append]; exact there.trans (Nat.le_add_right _ _)
    · rw [List.take_append_of_le_length there]
    · rw [List.drop_append_of_le_length there]
  | rangeof | symat | encode => obtain ⟨rfl, rfl⟩ := h; exact ⟨rfl, rfl⟩
  | total | einit | efinish | dinit | decode => obtain rfl := h; rfl

/-- The words of a command and those left over are the words there were. -/
theorem ReadsOperands.length {w : Word} {ws rest : List Word} {i : Instr} (h : ReadsOperands w ws rest i) :
    (w :: ws).length = (encode i).length + rest.length := by
  cases i with
  | build es =>
    obtain ⟨there, rfl, rfl⟩ := h
    simp only [encode, encodeOperands, List.length_cons, List.length_map, List.length_take, List.length_drop]
    omega
  | rangeof | symat | encode => obtain ⟨rfl, rfl⟩ := h; exact Nat.add_comm _ _
  | total | einit | efinish | dinit | decode => obtain rfl := h; exact Nat.add_comm _ _

/-- A command that decodes from some words decodes from them with more words behind. -/
theorem decode_append {ws rest : List Word} {i : Instr} (h : decode ws = .ok (i, rest)) (more : List Word) :
    decode (ws ++ more) = .ok (i, rest ++ more) := by
  cases ws with
  | nil => cases h
  | cons w ws =>
    obtain ⟨hop, clear, operands⟩ := decode_cons_eq_ok.mp h
    exact decode_cons_eq_ok.mpr ⟨hop, clear, operands.append more⟩

theorem decode_length {ws rest : List Word} {i : Instr} (h : decode ws = .ok (i, rest)) :
    ws.length = (encode i).length + rest.length := by
  cases ws with
  | nil => cases h
  | cons w ws =>
    obtain ⟨-, -, operands⟩ := decode_cons_eq_ok.mp h
    exact operands.length

/-- The length told from the first word alone is that of the command read (30_encoding.md R89). -/
theorem encode_length_of_decode {w : Word} {ws rest : List Word} {i : Instr} (h : decode (w :: ws) = .ok (i, rest)) :
    (encode i).length = lengthWords w := by
  obtain ⟨hop, clear, operands⟩ := decode_cons_eq_ok.mp h
  rw [lengthWords, hop]
  cases i with
  | build es =>
    obtain ⟨there, rfl, -⟩ := operands
    rw [if_pos ⟨rfl, clear⟩]
    simp [encode, encodeOperands, there, Nat.add_comm]
  | total | rangeof | symat | einit | encode | efinish | dinit | decode => exact (if_neg (by simp [Instr.op])).symm

@[simp] theorem wordsFrom_length (k w : Nat) : (wordsFrom k w).length = k := by
  induction k generalizing w with
  | zero => rfl
  | succ k ih => simp [wordsFrom, ih]

theorem lengthWords_pos (w : Word) : 1 ≤ lengthWords w := by
  unfold lengthWords
  split <;> omega

/-- A table word the decoder accepts is laid out in exactly the words of its command. -/
theorem decode_tableWords {nbits w : Nat} {i : Instr} (h : decodeTableWord nbits w = some i) :
    decode (tableWords nbits w) = .ok (i, []) := by
  unfold decodeTableWord at h
  split at h <;> cases h
  next rest accepted =>
    have first : ∃ ws, tableWords nbits w = BitVec.ofNat 64 (w % 2 ^ nbits) :: ws := by
      obtain ⟨k, hk⟩ := Nat.exists_eq_add_of_le' (lengthWords_pos (BitVec.ofNat 64 (w % 2 ^ nbits)))
      exact ⟨_, by rw [tableWords, hk, wordsFrom]⟩
    obtain ⟨ws, first⟩ := first
    have taken : (encode i).length = (tableWords nbits w).length := by
      rw [encode_length_of_decode (first ▸ accepted), tableWords, wordsFrom_length]
    have left := decode_length accepted
    obtain rfl : rest = [] := List.length_eq_zero_iff.mp (by omega)
    exact accepted

end Sys2Proof

namespace Sys2Proof.Machine

/-- A step whose fetch finds a command runs it. -/
theorem step_of_fetch_command {s : State} {i : Instr} {rest : List HostMove} (h : fetch s.port = .command i rest) :
    step s = exec i { s with port := rest } := by
  unfold step
  split
  case h_5 w moves port => rw [← port, h]
  all_goals
    next port =>
      rw [port] at h
      cases h

/-- Words that decode to one command and stand at the front of the host's moves are run by the next step. -/
theorem step_of_decode {s : State} {ws : List Word} {i : Instr} {rest : List HostMove} (reads : decode ws = .ok (i, []))
    (port : s.port = ws.map .word ++ rest) : step s = exec i { s with port := rest } := by
  have taken : ws.length = (encode i).length := by simpa using decode_length reads
  apply step_of_fetch_command
  rw [fetch_eq_command, port, portWords_append, ← taken, drop_words]
  exact ⟨⟨_, decode_append reads _⟩, rfl⟩

/-- Settles O7: a well-formed command's words decode to it alone. -/
theorem stepRunsTheDecodedCommand : Obligations.StepRunsTheDecodedCommand := by
  intro s i rest wf port
  have reads : decode (encode i) = .ok (i, []) := by simpa using decode_encode_append wf []
  exact step_of_decode reads port

/-- Settles O8: the words `withFetchWord` presents are exactly those of the command. -/
theorem stepRunsThePresentedTableWord : Obligations.StepRunsThePresentedTableWord :=
  fun s nbits w _ h => step_of_decode (s := s.withFetchWord nbits w) (decode_tableWords h) rfl

end Sys2Proof.Machine
end

section
/-! SUPPORT. The BitSink protocol (20_memory.md R54, R55): what transfers do to SNK, and what plans and steps do to the sink. -/

namespace Sys2Proof.Machine

/-- The event a transfer appends to SNK, if it is one at the BitSink. -/
def Transfer.snkEvent? : Transfer → Option SnkEvent
  | .snk e => some e
  | .srcRead => none
  | .sym _ => none

@[simp] theorem snkEvent?_eq_some {x : Transfer} {e : SnkEvent} : x.snkEvent? = some e ↔ x = .snk e := by
  cases x <;> simp [Transfer.snkEvent?]

/-- Transfers at the other ports send the sink nothing. -/
theorem filterMap_snkEvent?_eq_nil {xs : List Transfer} (others : ∀ e, Transfer.snk e ∉ xs) :
    xs.filterMap Transfer.snkEvent? = [] := by
  simp only [List.filterMap_eq_nil_iff, Option.eq_none_iff_forall_ne_some, ne_eq, snkEvent?_eq_some]
  rintro x mem e rfl
  exact others e mem

/-- Writes at the BitSink send it their bits. -/
theorem filterMap_snkEvent?_bits (bits : List Bool) :
    (bits.map fun b => Transfer.snk (SnkEvent.ofBit b)).filterMap Transfer.snkEvent? = bits.map SnkEvent.ofBit := by
  simp [List.filterMap_map, Function.comp_def, Transfer.snkEvent?]

/-- Transfers append to SNK exactly their BitSink events, in order. -/
theorem transfers_snk (s : State) (xs : List Transfer) :
    (s.transfers xs).snk = s.snk ++ xs.filterMap Transfer.snkEvent? := by
  induction xs generalizing s with
  | nil => simp
  | cons x xs ih =>
    rw [transfers_cons, ih]
    cases x with
    | snk e => simp [State.transfer, Transfer.snkEvent?]
    | srcRead => rfl
    | sym e => rfl

/-- A completed plan's trace is the trace before it and the BitSink events of its transfers. -/
theorem PlanForm.completed_snk {s : State} {i : Instr} {p : Plan} (form : PlanForm s i p) :
    p.completed.snk = s.snk ++ p.xfers.filterMap Transfer.snkEvent? := by
  obtain ⟨regs_snk, -⟩ := form.regs_ports
  rw [Plan.completed, transfers_snk, regs_snk]

theorem sinkCondition_append (before after : List SnkEvent) :
    sinkCondition (before ++ after) = after.foldl sinkAfter (sinkCondition before) := by
  simp [sinkCondition]

/-- A violation of the protocol is never mended. -/
theorem foldl_sinkAfter_none (events : List SnkEvent) : events.foldl sinkAfter none = none := by
  induction events with
  | nil => rfl
  | cons e events ih => exact ih

/-- A trace cut short anywhere has violated no rule the whole trace has not. -/
theorem sinkCondition_ne_none_of_prefix {before whole : List SnkEvent} (cut : before <+: whole)
    (legal : sinkCondition whole ≠ none) : sinkCondition before ≠ none := by
  obtain ⟨after, rfl⟩ := cut
  intro broken
  rw [sinkCondition_append, broken, foldl_sinkAfter_none] at legal
  exact legal rfl

/-- OPEN is legal in every condition and opens the sink. -/
theorem sinkAfter_opened {c : Option Bool} (legal : c ≠ none) : sinkAfter c .opened = some true := by
  cases c with
  | none => exact absurd rfl legal
  | some isOpen => cases isOpen <;> rfl

theorem sinkAfter_ofBit (b : Bool) : sinkAfter (some true) (SnkEvent.ofBit b) = some true := by
  cases b <;> rfl

/-- An open sink takes any bits and stays open. -/
theorem foldl_sinkAfter_bits (bits : List Bool) : (bits.map SnkEvent.ofBit).foldl sinkAfter (some true) = some true := by
  induction bits with
  | nil => rfl
  | cons b bits ih => rw [List.map_cons, List.foldl_cons, sinkAfter_ofBit, ih]

/-- The sink's protocol speaks of SNK and of the encoder's phase alone. -/
theorem State.SinkInv.of_sink {s t : State} (inv : s.SinkInv) (snk : t.snk = s.snk) (phase : t.enc.phase = s.enc.phase) :
    t.SinkInv := by
  obtain ⟨legal, active, done⟩ := inv
  exact ⟨by rwa [snk], by rwa [snk, phase], by rwa [snk, phase]⟩

/-- A sink whose condition is known meets the protocol when the encoder's phase agrees with it. -/
theorem State.SinkInv.of_condition {t : State} {isOpen : Bool} (condition : sinkCondition t.snk = some isOpen)
    (active : t.enc.phase = .active → isOpen = true) (done : t.enc.phase = .done → isOpen = false) : t.SinkInv :=
  ⟨by simp [condition], fun phase => by rw [condition, active phase], fun phase => by rw [condition, done phase]⟩

/-- A reset leaves the encoder idle, so that of the protocol only the trace's legality is left. -/
theorem hardReset_sinkInv {s : State} (legal : sinkCondition s.snk ≠ none) : s.hardReset.SinkInv :=
  ⟨legal, by simp, by simp⟩

/-- Every completed plan keeps the protocol: EINIT opens the sink, ENCODE and EFINISH find it open because the encoder is
ACTIVE, and no other plan sends the sink anything. -/
theorem PlanForm.completed_sinkInv {s : State} {i : Instr} {p : Plan} (form : PlanForm s i p) (inv : s.SinkInv) :
    p.completed.SinkInv := by
  have snk := form.completed_snk
  have condition := congrArg sinkCondition snk
  rw [sinkCondition_append] at condition
  cases form with
  | answers | buildFails | buildStores | decodeFails => exact inv.of_sink rfl rfl
  | dinit | decodeEmits =>
    rw [filterMap_snkEvent?_eq_nil (by simp), List.append_nil] at snk
    exact inv.of_sink snk (by simp)
  | einit =>
    have opened := condition.trans (sinkAfter_opened inv.legal)
    exact .of_condition opened (by simp) (by simp)
  | encodeFails => exact ⟨inv.legal, by simp, by simp⟩
  | encodeWrites sym cl ch w r active =>
    rw [inv.active active, filterMap_snkEvent?_bits, foldl_sinkAfter_bits] at condition
    exact .of_condition condition (by simp) (by simp [active])
  | efinish r active =>
    rw [inv.active active] at condition
    exact .of_condition condition (by simp) (by simp)

/-- A command cut short by a reset leaves a prefix of the trace it would have left. -/
theorem PlanForm.cut_snk_prefix {s : State} {i : Instr} {p : Plan} (form : PlanForm s i p) (k : Nat) :
    (s.transfers (p.xfers.take k)).snk <+: p.completed.snk := by
  rw [transfers_snk, form.completed_snk]
  exact (List.prefix_append_right_inj _).mpr ((List.take_prefix k _).filterMap _)

/-- A reset during a command keeps the protocol, because the completed command would. -/
theorem resetDuringCommand_keeps_sinkInv {k : Nat} {s t : State} {moves : List HostMove} (inv : s.SinkInv)
    (h : resetDuringCommand k { s with port := moves } = .next t) : t.SinkInv := by
  rcases resetDuring_next_cases h with ⟨port, rfl⟩ | ⟨i, rest, p, -, planned, rfl⟩
  · exact hardReset_sinkInv inv.legal
  · have form := planOf_form planned
    have completed := form.completed_sinkInv (inv.of_sink rfl rfl)
    exact hardReset_sinkInv (sinkCondition_ne_none_of_prefix (form.cut_snk_prefix k) completed.legal)

/-- Settles O53: `step_form` does not say that a reset cuts a command's transfers to a prefix, so the moves are taken one by one. -/
theorem stepKeepsTheSinkProtocol : Obligations.StepKeepsTheSinkProtocol := by
  intro s t inv h
  rcases step_next_cases h with ⟨-, rfl⟩ | ⟨bits, rest, -, rfl⟩ | ⟨rest, -, rfl⟩ | ⟨k, rest, -, cut⟩ | ⟨i, rest, -, run⟩ |
    ⟨rest, -, rfl⟩ | ⟨rest, -, waits⟩
  · exact inv
  · exact inv.of_sink rfl rfl
  · exact hardReset_sinkInv inv.legal
  · exact resetDuringCommand_keeps_sinkInv inv cut
  · obtain ⟨p, form, rfl⟩ := exec_form run
    exact form.completed_sinkInv (inv.of_sink rfl rfl)
  · exact inv.of_sink rfl rfl
  · rcases waitForEntries_next_cases waits with ⟨rfl, -⟩ | ⟨rest', -, rfl⟩
    · exact inv
    · exact hardReset_sinkInv inv.legal

end Sys2Proof.Machine
end

section
/-! SUPPORT. The opcode map (30_encoding.md R87) and the decoder are one thing: a word selects the row of the command it decodes to. -/

namespace Sys2Proof

/-- How many low bits of a command's first word are its operand (30_encoding.md R82 to R85). -/
def Format.operandBits : Format → Nat
  | .z => 0
  | .s => 9
  | .v => 40
  | .b => 10

theorem Format.operandBits_le (f : Format) : f.operandBits ≤ 56 := by cases f <;> decide

theorem reservedClear_iff {f : Format} {w : Word} :
    reservedClear f w = true ↔ w.extractLsb' f.operandBits (56 - f.operandBits) = 0 := by
  cases f <;> exact beq_iff_eq

/-- A row's mask is all bits but the operand's. -/
theorem Op.maskWord_eq (o : Op) : o.maskWord = BitVec.allOnes 64 <<< o.format.operandBits := by cases o <;> decide

/-- A row's match word has the operation's code on top and nothing else. -/
theorem Op.matchWord_eq (o : Op) : o.matchWord = o.code.setWidth 64 <<< 56 := by cases o <;> decide

theorem opOfCode_eq_some_iff {c : BitVec 8} {o : Op} : opOfCode c = some o ↔ c = o.code :=
  ⟨opOfCode_eq_some, fun h => h ▸ opOfCode_code o⟩

/-- A mask of all bits from the `k`-th on keeps exactly those. -/
theorem getLsbD_and_high (w : Word) (k : Nat) {i : Nat} (hi : i < 64) :
    (w &&& (BitVec.allOnes 64 <<< k)).getLsbD i = (decide (k ≤ i) && w.getLsbD i) := by
  rw [BitVec.getLsbD_and, BitVec.getLsbD_shiftLeft, BitVec.getLsbD_allOnes]
  rcases Nat.lt_or_ge i k with below | above
  · simp [below, Nat.not_le.mpr below]
  · simp [above, hi, Nat.not_lt.mpr above, show i - k < 64 by omega]

theorem getLsbD_code_on_top (c : BitVec 8) {i : Nat} (hi : i < 64) :
    ((c.setWidth 64 : Word) <<< 56).getLsbD i = (decide (56 ≤ i) && c.getLsbD (i - 56)) := by
  by_cases h : 56 ≤ i <;> simp [h, hi]

/-- All bits from the `k`-th on are those of a code on top: the top byte is the code, the bits between are 0. -/
theorem and_high_eq_code_iff {w : Word} {c : BitVec 8} {k : Nat} (hk : k ≤ 56) :
    w &&& (BitVec.allOnes 64 <<< k) = c.setWidth 64 <<< 56 ↔ w.extractLsb' 56 8 = c ∧ w.extractLsb' k (56 - k) = 0 := by
  constructor
  · intro h
    have bit {i : Nat} (hi : i < 64) : (decide (k ≤ i) && w.getLsbD i) = (decide (56 ≤ i) && c.getLsbD (i - 56)) := by
      rw [← getLsbD_and_high w k hi, h, getLsbD_code_on_top c hi]
    refine ⟨BitVec.eq_of_getLsbD_eq fun i hi => ?_, BitVec.eq_of_getLsbD_eq fun i hi => ?_⟩
    · simpa [hi, show k ≤ 56 + i by omega] using bit (i := 56 + i) (by omega)
    · simpa [hi, show ¬ 56 ≤ k + i by omega] using bit (i := k + i) (by omega)
  · rintro ⟨rfl, between⟩
    apply BitVec.eq_of_getLsbD_eq
    intro i hi
    rw [getLsbD_and_high w k hi, getLsbD_code_on_top _ hi]
    rcases Nat.lt_or_ge i 56 with below | top
    · rcases Nat.lt_or_ge i k with low | high
      · simp [Nat.not_le.mpr low, Nat.not_le.mpr below]
      · have clear := congrArg (BitVec.getLsbD · (i - k)) between
        simpa [high, Nat.not_le.mpr below, show i - k < 56 - k by omega, show k + (i - k) = i by omega] using clear
    · simp [top, show k ≤ i by omega, show i - 56 < 8 by omega, show 56 + (i - 56) = i by omega]

/-- The opcode map and the decoder's tests agree: a word selects a row exactly when it has the row's `op` and no reserved bit set. -/
theorem selects_iff {o : Op} {w : Word} :
    w &&& o.maskWord = o.matchWord ↔ opOfCode (w.extractLsb' 56 8) = some o ∧ reservedClear o.format w = true := by
  rw [o.maskWord_eq, o.matchWord_eq, and_high_eq_code_iff o.format.operandBits_le, opOfCode_eq_some_iff, reservedClear_iff]

/-- A word is its high bits with its low field put back. -/
theorem and_high_or_low (w : Word) (k : Nat) : w &&& (BitVec.allOnes 64 <<< k) ||| (w.extractLsb' 0 k).setWidth 64 = w := by
  apply BitVec.eq_of_getLsbD_eq
  intro i hi
  rw [BitVec.getLsbD_or, getLsbD_and_high w k hi]
  rcases Nat.lt_or_ge i k with low | high
  · simp [hi, low, Nat.not_le.mpr low]
  · simp [high]

/-- A word that selects a row is the row's match word OR its operand field. -/
theorem matchWord_or_operand {o : Op} {w : Word} (selects : w &&& o.maskWord = o.matchWord) :
    o.matchWord ||| (w.extractLsb' 0 o.format.operandBits).setWidth 64 = w := by
  rw [← selects, o.maskWord_eq, and_high_or_low]

theorem length_decodeEntry_take {k : Nat} {ws : List Word} (there : k ≤ ws.length) :
    ((ws.take k).map decodeEntry).length = k := by
  simp [there]

/-- The count of a BUILD header is below 1024. -/
theorem countField_lt (w : Word) : countField w < 2 ^ 10 := (w.extractLsb' 0 10).isLt

/-- A command read from a word that selects its row is well-formed: no header counts more than 1023 entry words. -/
theorem ReadsOperands.wf {w : Word} {ws rest : List Word} {i : Instr} (h : ReadsOperands w ws rest i) : i.wf = true := by
  cases i with
  | build es =>
    obtain ⟨there, rfl, -⟩ := h
    rw [Instr.wf, length_decodeEntry_take there]
    exact decide_eq_true (Nat.le_of_lt_succ (countField_lt w))
  | total | rangeof | symat | einit | encode | efinish | dinit | decode => rfl

/-- The operand words of a command read are the words it was read from. -/
theorem ReadsOperands.encodeOperands {w : Word} {ws rest : List Word} {i : Instr} (h : ReadsOperands w ws rest i) :
    encodeOperands i ++ rest = ws := by
  cases i with
  | build es =>
    obtain ⟨-, rfl, rfl⟩ := h
    simp [Sys2Proof.encodeOperands, Function.comp_def]
  | rangeof | symat | encode => exact h.2
  | total | einit | efinish | dinit | decode => exact h

/-- The first word of a command read is the word it was read from. -/
theorem ReadsOperands.encodeHead {w : Word} {ws rest : List Word} {i : Instr} (h : ReadsOperands w ws rest i)
    (selects : w &&& i.op.maskWord = i.op.matchWord) : encodeHead i = w := by
  have word := matchWord_or_operand selects
  cases i with
  | build es =>
    obtain ⟨there, rfl, -⟩ := h
    rw [Sys2Proof.encodeHead, length_decodeEntry_take there, countField, BitVec.ofNat_toNat, BitVec.setWidth_eq]
    exact word
  | rangeof s => obtain ⟨rfl, -⟩ := h; exact word
  | symat v => obtain ⟨rfl, -⟩ := h; exact word
  | encode s => obtain ⟨rfl, -⟩ := h; exact word
  | total | einit | efinish | dinit | decode => simpa [Sys2Proof.encodeHead, Instr.op, Op.format, Format.operandBits] using word

/-- Settles O1: `readsOperands_encode` is the heart, each operand reading back from its field. -/
theorem decodeInvertsEncode : Obligations.DecodeInvertsEncode :=
  fun _ rest wf => decode_encode_append wf rest

/-- Settles O2: the decoder accepts only words that select the command's row, and such a word is the row's match word OR its operand. -/
theorem encodeInvertsDecode : Obligations.EncodeInvertsDecode := by
  intro ws i rest h
  cases ws with
  | nil => cases h
  | cons w ws =>
    obtain ⟨hop, clear, operands⟩ := decode_cons_eq_ok.mp h
    refine ⟨operands.wf, ?_⟩
    rw [encode, operands.encodeHead (selects_iff.mpr ⟨hop, clear⟩), List.cons_append, operands.encodeOperands]

/-- A BUILD header with fewer words behind it than its count is not decoded yet. -/
theorem decode_of_missing_entries {w : Word} {ws : List Word} (selects : w &&& Op.build.maskWord = Op.build.matchWord)
    (missing : ws.length < countField w) : decode (w :: ws) = .error (.entriesMissing (countField w) ws.length) := by
  obtain ⟨hop, clear⟩ := selects_iff.mp selects
  simp [decode, hop, clear, Nat.not_le.mpr missing]

/-- A word that selects a row decodes to a command of that row, or is a BUILD header whose entry words are not all there. -/
theorem decode_of_selects {o : Op} {w : Word} (ws : List Word) (selects : w &&& o.maskWord = o.matchWord) :
    (∃ i rest, decode (w :: ws) = .ok (i, rest) ∧ i.op = o) ∨ (o = .build ∧ ws.length < countField w) := by
  obtain ⟨hop, clear⟩ := selects_iff.mp selects
  have reads {i : Instr} {rest : List Word} (is_op : i.op = o) (operands : ReadsOperands w ws rest i) :
      ∃ i rest, decode (w :: ws) = .ok (i, rest) ∧ i.op = o :=
    ⟨i, rest, decode_cons_eq_ok.mpr ⟨is_op ▸ hop, is_op ▸ clear, operands⟩, is_op⟩
  cases o with
  | build =>
    rcases Nat.lt_or_ge ws.length (countField w) with missing | there
    · exact .inr ⟨rfl, missing⟩
    · exact .inl (reads (i := .build _) rfl ⟨there, rfl, rfl⟩)
  | total => exact .inl (reads (i := .total) rfl rfl)
  | rangeof => exact .inl (reads (i := .rangeof _) rfl ⟨rfl, rfl⟩)
  | symat => exact .inl (reads (i := .symat _) rfl ⟨rfl, rfl⟩)
  | einit => exact .inl (reads (i := .einit) rfl rfl)
  | encode => exact .inl (reads (i := .encode _) rfl ⟨rfl, rfl⟩)
  | efinish => exact .inl (reads (i := .efinish) rfl rfl)
  | dinit => exact .inl (reads (i := .dinit) rfl rfl)
  | decode => exact .inl (reads (i := .decode) rfl rfl)

end Sys2Proof

namespace Sys2Proof.Machine

/-- The map written out has one row for each operation: its match and its mask. -/
theorem mem_opcodeMap_iff {row : Op × Word × Word} : row ∈ opcodeMap ↔ row = (row.1, row.1.matchWord, row.1.maskWord) := by
  have rows : opcodeMap = Op.all.map fun o => (o, o.matchWord, o.maskWord) := rfl
  have all (o : Op) : o ∈ Op.all := by cases o <;> decide
  rw [rows, List.mem_map]
  exact ⟨fun ⟨_, _, is_row⟩ => is_row ▸ rfl, fun is_row => ⟨row.1, all _, is_row.symm⟩⟩

theorem illegalWord_iff {w : Word} : IllegalWord w ↔ ∀ o : Op, w &&& o.maskWord ≠ o.matchWord :=
  ⟨fun illegal o => illegal (o, o.matchWord, o.maskWord) (mem_opcodeMap_iff.mpr rfl),
    fun none row mem => by rw [mem_opcodeMap_iff.mp mem]; exact none row.1⟩

/-- A word that matches no row is rejected by the decoder, whatever follows it. -/
theorem decode_of_illegalWord {w : Word} (ws : List Word) (illegal : IllegalWord w) :
    (∃ c, decode (w :: ws) = .error (.unassignedOp c)) ∨ ∃ op, decode (w :: ws) = .error (.reservedBitSet op) := by
  cases hop : opOfCode (w.extractLsb' 56 8) with
  | none => exact .inl ⟨_, by rw [decode, hop]⟩
  | some o =>
    have set : ¬ reservedClear o.format w = true := fun clear =>
      illegalWord_iff.mp illegal o (selects_iff.mpr ⟨hop, clear⟩)
    exact .inr ⟨o, by simp [decode, hop, set]⟩

/-- Settles O3: a row is selected by the word's `op` field, so by one at most, and the decoder tests just what the map says. -/
theorem opcodeMapSelectsTheCommand : Obligations.OpcodeMapSelectsTheCommand := by
  refine fun w ws => ⟨fun row mem selects => ?_, decode_of_illegalWord ws⟩
  rw [mem_opcodeMap_iff.mp mem] at selects
  have op_field := (selects_iff.mp selects).1
  refine ⟨fun row' mem' selects' => ?_, ?_⟩
  · rw [mem_opcodeMap_iff.mp mem'] at selects'
    have same : row'.1 = row.1 := Option.some.inj ((selects_iff.mp selects').1.symm.trans op_field)
    rw [mem_opcodeMap_iff.mp mem', mem_opcodeMap_iff.mp mem, same]
  · rcases decode_of_selects ws selects with decodes | ⟨is_build, missing⟩
    · exact .inl decodes
    · rw [is_build] at selects
      exact .inr ⟨is_build, _, _, decode_of_missing_entries selects missing⟩

end Sys2Proof.Machine

namespace Sys2Proof

/-- A field of a word as a number. -/
theorem toNat_extractLsb' (w : Word) (start len : Nat) :
    (w.extractLsb' start len).toNat = w.toNat / 2 ^ start % 2 ^ len := by
  rw [BitVec.extractLsb'_toNat, Nat.shiftRight_eq_div_pow]

theorem toNat_low_field (w : Word) (len : Nat) : (w.extractLsb' 0 len).toNat = w.toNat % 2 ^ len := by
  rw [toNat_extractLsb', Nat.pow_zero, Nat.div_one]

/-- The `j`-th entry read is the one laid out in the `j`-th word. -/
theorem decodeEntry_of_getElem? {k j : Nat} {ws : List Word} {x : Word} {e : EntryWord} (is_word : ws[j]? = some x)
    (is_entry : ((ws.take k).map decodeEntry)[j]? = some e) : decodeEntry x = e := by
  rw [List.getElem?_map, List.getElem?_take] at is_entry
  split at is_entry
  · rw [is_word] at is_entry
    exact Option.some.inj is_entry
  · cases is_entry

/-- The fields of an entry word as numbers, the frequency in two's complement (30_encoding.md R86, R90). -/
theorem decodeEntry_fields (x : Word) :
    (decodeEntry x).resv.toNat = x.toNat / 2 ^ 41 ∧ (decodeEntry x).sym.toNat = x.toNat / 2 ^ 32 % 2 ^ 9 ∧
      (decodeEntry x).freqInt = if x.toNat % 2 ^ 32 < 2 ^ 31 then ((x.toNat % 2 ^ 32 : Nat) : Int)
        else ((x.toNat % 2 ^ 32 : Nat) : Int) - 2 ^ 32 := by
  refine ⟨?_, toNat_extractLsb' x 32 9, ?_⟩
  · have := x.isLt
    rw [decodeEntry, toNat_extractLsb', Nat.mod_eq_of_lt (by omega)]
  · rw [EntryWord.freqInt, decodeEntry, BitVec.toInt_eq_toNat_cond, toNat_low_field]
    split <;> split <;> omega

/-- Settles O4: the operands are those of `ReadsOperands`, as numbers. -/
theorem operandsAreReadFromTheirFields : Obligations.OperandsAreReadFromTheirFields := by
  intro w ws i rest h
  obtain ⟨-, -, operands⟩ := decode_cons_eq_ok.mp h
  cases i with
  | build es =>
    obtain ⟨there, rfl, rfl⟩ := operands
    have length := length_decodeEntry_take there
    refine ⟨length.trans (toNat_low_field w 10), by rw [length], fun j x e is_word is_entry => ?_⟩
    obtain rfl : decodeEntry x = e := decodeEntry_of_getElem? is_word is_entry
    exact decodeEntry_fields x
  | rangeof s => obtain ⟨rfl, rfl⟩ := operands; exact ⟨toNat_low_field w 9, rfl⟩
  | symat v => obtain ⟨rfl, rfl⟩ := operands; exact ⟨toNat_low_field w 40, rfl⟩
  | encode s => obtain ⟨rfl, rfl⟩ := operands; exact ⟨toNat_low_field w 9, rfl⟩
  | total | einit | efinish | dinit | decode => exact operands

/-- Settles O5: the words of the spec are decoded. -/
theorem wordsOfTheSpecDecode : Obligations.WordsOfTheSpecDecode := by
  unfold Obligations.WordsOfTheSpecDecode
  decide

end Sys2Proof
end

section
/-! SUPPORT. The responses of the commands (30_encoding.md R92, R93): every command has a plan, and its plan's response is an error its
rule lists, or OK with the data of R92's table. -/

namespace Sys2Proof

/-- The errors the rule of a command raises (30_encoding.md R93, 60_exceptions.md R191). -/
def Instr.errors : Instr → List Machine.Status
  | .build _ => [.invalidModel]
  | .total => [.noModel]
  | .rangeof _ => [.noModel, .unknownSymbol]
  | .symat _ => [.noModel, .valueOutOfRange]
  | .einit => []
  | .encode _ => [.badPhase, .noModel, .unknownSymbol, .precisionExhausted, .pendingOverflow]
  | .efinish => [.badPhase]
  | .dinit => []
  | .decode => [.badPhase, .noModel, .precisionExhausted]

/-- A command's errors are errors. -/
theorem Instr.ok_notMem_errors (i : Instr) : .ok ∉ i.errors := by
  cases i <;> simp [Instr.errors]

end Sys2Proof

namespace Sys2Proof.Machine

/-- The data of a response OK from `s` to `t`, row by row of the table of 30_encoding.md R92. -/
def OkData (s t : State) (r : Response) : Instr → Prop
  | .build _ => r.d0 = t.mdl.total ∧ r.d1.toNat = t.mdl.n.toNat
  | .total => r.d0 = s.mdl.total ∧ r.d1 = 0#40
  | .rangeof x => ∃ e ∈ s.mdl.entries, e.sym = x ∧ r.d0 = e.cl ∧ r.d1 = e.ch
  | .symat v =>
    (∃ e ∈ s.mdl.entries, e.cl.toNat ≤ v.toNat ∧ v.toNat < e.ch.toNat ∧ r.d0.toNat = e.sym.toNat) ∧ r.d1 = 0#40
  | .einit | .encode _ | .efinish | .dinit => r.d0 = 0#40 ∧ r.d1 = 0#40
  | .decode =>
    r.d1 = 0#40 ∧
      ((r.d0 = 256#40 ∧ t.symout = s.symout) ∨
        ∃ x : Sym, x ≠ 256#9 ∧ r.d0.toNat = x.toNat ∧ t.symout = s.symout ++ [.sym x])

/-- What a plan of a command responds: OK with the table's data, or one of the command's errors. -/
def Responds (s : State) (i : Instr) (p : Plan) : Prop :=
  (p.rsp.status = .ok ∧ OkData s p.completed p.rsp i) ∨ ∃ st ∈ i.errors, p.rsp = errorResponse st

theorem raise_responds {s : State} {i : Instr} {st : Status} (op : Option Op)
    (listed : st ∈ i.errors := by simp [Instr.errors]) : Responds s i (raise s op st) := .inr ⟨st, listed, rfl⟩

theorem symData_toNat (x : Sym) : (symData x).toNat = x.toNat := by
  rw [symData, BitVec.toNat_ofNat]
  exact Nat.mod_eq_of_lt (by omega)

theorem planBuild_responds {es : List EntryWord} {s : State} {p : Plan} (h : planBuild es s = .next p) :
    Responds s (.build es) p := by
  unfold planBuild at h
  split at h <;> cases h
  · exact raise_responds _
  next good =>
    have length_le := (badMapping_eq_false_iff.mp (eq_false_of_ne_true good)).length_le
    refine .inl ⟨rfl, rfl, ?_⟩
    simp only [answer, completed_mdl, BitVec.toNat_ofNat]
    omega

theorem planTotal_responds {s : State} {p : Plan} (h : planTotal s = .next p) : Responds s .total p := by
  unfold planTotal at h
  split at h <;> cases h
  · exact .inl ⟨rfl, rfl, rfl⟩
  · exact raise_responds _

theorem planRangeof_responds {x : Sym} {s : State} {p : Plan} (h : planRangeof x s = .next p) :
    Responds s (.rangeof x) p := by
  unfold planRangeof at h
  split at h
  · split at h <;> cases h
    · exact raise_responds _
    next range =>
      obtain ⟨e, mem, is_sym, is_cl, is_ch⟩ := rangeOf_eq_some range
      exact .inl ⟨rfl, e, mem, is_sym, is_cl.symm, is_ch.symm⟩
  · cases h; exact raise_responds _

theorem planSymat_responds {v : Cum} {s : State} {p : Plan} (h : planSymat v s = .next p) : Responds s (.symat v) p := by
  unfold planSymat at h
  split at h
  · split at h
    · cases h; exact raise_responds _
    · split at h <;> cases h
      next found =>
        obtain ⟨e, mem, rfl, above, below⟩ := symbolAt_eq_some found
        exact .inl ⟨rfl, ⟨e, mem, above, below, symData_toNat e.sym⟩, rfl⟩
  · cases h; exact raise_responds _

theorem planEncode_responds {x : Sym} {s : State} {p : Plan} (h : planEncode x s = .next p) :
    Responds s (.encode x) p := by
  unfold planEncode at h
  split at h
  · cases h; exact raise_responds _
  split at h
  · cases h; exact raise_responds _
  split at h
  · cases h; exact raise_responds _
  split at h
  · cases h; exact raise_responds _
  split at h <;> cases h
  · exact raise_responds _
  · exact .inl ⟨rfl, rfl, rfl⟩

theorem planEfinish_responds {s : State} {p : Plan} (h : planEfinish s = .next p) : Responds s .efinish p := by
  unfold planEfinish at h
  split at h <;> cases h
  · exact raise_responds _
  · exact .inl ⟨rfl, rfl, rfl⟩

theorem planDecode_responds {s : State} {p : Plan} (h : planDecode s = .next p) : Responds s .decode p := by
  unfold planDecode at h
  split at h
  · cases h; exact raise_responds _
  split at h
  · cases h; exact raise_responds _
  split at h
  · cases h; exact raise_responds _
  split at h
  · cases h
  next x found =>
    split at h
    · cases h; exact .inl ⟨rfl, rfl, .inl ⟨rfl, rfl⟩⟩
    next not_eos =>
      split at h <;> cases h
      refine .inl ⟨rfl, rfl, .inr ⟨x, not_eos, symData_toNat x, ?_⟩⟩
      rw [completed_symout, transfers_symout]
      simp [Transfer.symEvent?]

/-- The plan of every command responds as 30_encoding.md R92 and R93 say. -/
theorem planOf_responds {i : Instr} {s : State} {p : Plan} (h : planOf i s = .next p) : Responds s i p := by
  cases i with
  | build es => exact planBuild_responds h
  | total => exact planTotal_responds h
  | rangeof x => exact planRangeof_responds h
  | symat v => exact planSymat_responds h
  | einit => cases h; exact .inl ⟨rfl, rfl, rfl⟩
  | encode x => exact planEncode_responds h
  | efinish => exact planEfinish_responds h
  | dinit => cases h; exact .inl ⟨rfl, rfl, rfl⟩
  | decode => exact planDecode_responds h

/-- A command that completes sets the response: OK with the table's data, or one of its errors with data 0. -/
theorem exec_responds {i : Instr} {s t : State} (h : exec i s = .next t) :
    ∃ r, t.rsp = some r ∧ ((r.status = .ok ∧ OkData s t r i) ∨ ∃ st ∈ i.errors, r = errorResponse st) := by
  rw [exec_eq_complete, complete_eq_next] at h
  obtain ⟨p, planned, rfl⟩ := h
  exact ⟨p.rsp, rfl, planOf_responds planned⟩

/-- The status a command answers is OK or one of its errors. -/
theorem exec_status {i : Instr} {s t : State} {r : Response} (h : exec i s = .next t) (rsp : t.rsp = some r) :
    r.status ∈ .ok :: i.errors := by
  obtain ⟨r', rsp', answer⟩ := exec_responds h
  obtain rfl : r = r' := Option.some.inj (rsp.symm.trans rsp')
  rcases answer with ⟨is_ok, -⟩ | ⟨st, listed, rfl⟩
  · exact is_ok ▸ List.mem_cons_self
  · exact List.mem_cons_of_mem _ listed

/-- Settles O43: the lists are those of `Instr.errors`. -/
theorem statusesOfEachCommand : Obligations.StatusesOfEachCommand := by
  refine ⟨by decide, fun st => by cases st <;> decide, fun i s t r h rsp => ?_⟩
  have status := exec_status h rsp
  cases i with
  | einit | dinit => exact List.mem_singleton.mp status
  | build | total | rangeof | symat | encode | efinish | decode => exact status

/-- Contiguous intervals that begin at or before a value and end beyond it hold the value in one of them. -/
theorem exists_interval_of_contiguous {l : List TabEntry} {total : Cum} {v : Nat}
    (contiguous : l.IsChain fun a b => a.ch = b.cl) (first : ∀ e ∈ l.head?, e.cl.toNat ≤ v)
    (last : (l.getLast?.map fun e => e.ch) = some total) (below : v < total.toNat) :
    ∃ e ∈ l, e.cl.toNat ≤ v ∧ v < e.ch.toNat := by
  induction l with
  | nil => simp at last
  | cons x l ih =>
    by_cases inside : v < x.ch.toNat
    · exact ⟨x, .head _, first x rfl, inside⟩
    cases l with
    | nil =>
      obtain rfl : x.ch = total := by simpa using last
      exact absurd below inside
    | cons y l =>
      obtain ⟨meets, contiguous⟩ := List.isChain_cons_cons.mp contiguous
      obtain ⟨e, mem, holds⟩ := ih contiguous (by simpa [← meets] using inside) last
      exact ⟨e, .tail _ mem, holds⟩

/-- A model has an entry for every value below its total (20_memory.md R51). -/
theorem ModelOk.exists_entry {m : Mdl} (ok : ModelOk m) {v : Nat} (below : v < m.total.toNat) :
    ∃ e ∈ m.entries, e.cl.toNat ≤ v ∧ v < e.ch.toNat := by
  refine exists_interval_of_contiguous ok.contiguous (fun e is_first => ?_) ok.last below
  have zero : e.cl = 0#40 := by simpa [Option.mem_def.mp is_first] using ok.first
  simp [zero]

/-- A look-up by value in a model finds a symbol below the total. -/
theorem ModelOk.symbolAt_of_lt {m : Mdl} (ok : ModelOk m) {v : Nat} (below : v < m.total.toNat) :
    ∃ x, m.symbolAt v = some x := by
  obtain ⟨e, mem, holds⟩ := ok.exists_entry below
  unfold Mdl.symbolAt
  split
  next missing => exact absurd holds (by simpa using List.find?_eq_none.mp missing e mem)
  next found => exact ⟨_, rfl⟩

/-- A look-up by an entry's symbol finds an interval. -/
theorem rangeOf_of_mem {m : Mdl} {e : TabEntry} (mem : e ∈ m.entries) : ∃ cl ch, m.rangeOf e.sym = some (cl, ch) := by
  unfold Mdl.rangeOf
  split
  next missing => exact absurd (List.find?_eq_none.mp missing e mem) (by simp)
  next found => exact ⟨_, _, rfl⟩

/-- The value a code of the interval stands for is below the total (42_decoder_ops.md R162). -/
theorem decodeValue_lt {low high code total : Nat} (code_high : code ≤ high) (total_pos : 0 < total) :
    decodeValue low high code total < total := by
  rw [decodeValue, Nat.div_lt_iff_lt_mul (Nat.succ_pos _)]
  have scaled : (code - low + 1) * total ≤ (high - low + 1) * total := Nat.mul_le_mul_right _ (by omega)
  have scaled_pos : 0 < (code - low + 1) * total := Nat.mul_pos (Nat.succ_pos _) total_pos
  rw [Nat.mul_comm total]
  exact (Nat.sub_lt scaled_pos Nat.one_pos).trans_le scaled

theorem planBuild_completes (es : List EntryWord) (s : State) : ∃ p, planBuild es s = .next p := by
  unfold planBuild
  split <;> exact ⟨_, rfl⟩

theorem planTotal_completes (s : State) : ∃ p, planTotal s = .next p := by
  unfold planTotal
  split <;> exact ⟨_, rfl⟩

theorem planRangeof_completes (x : Sym) (s : State) : ∃ p, planRangeof x s = .next p := by
  unfold planRangeof
  split
  · split <;> exact ⟨_, rfl⟩
  · exact ⟨_, rfl⟩

theorem planSymat_completes {s : State} (model : s.mdl.valid = true → ModelOk s.mdl) (v : Cum) :
    ∃ p, planSymat v s = .next p := by
  unfold planSymat
  split
  · next valid =>
    split
    · exact ⟨_, rfl⟩
    · next below =>
      obtain ⟨x, found⟩ := (model valid).symbolAt_of_lt (Nat.lt_of_not_le below)
      rw [found]
      exact ⟨_, rfl⟩
  · exact ⟨_, rfl⟩

theorem planEncode_completes (x : Sym) (s : State) : ∃ p, planEncode x s = .next p := by
  unfold planEncode
  split
  · exact ⟨_, rfl⟩
  split
  · exact ⟨_, rfl⟩
  split
  · exact ⟨_, rfl⟩
  split
  · exact ⟨_, rfl⟩
  split <;> exact ⟨_, rfl⟩

theorem planEfinish_completes (s : State) : ∃ p, planEfinish s = .next p := by
  unfold planEfinish
  split <;> exact ⟨_, rfl⟩

/-- DECODE finds an entry for the value because the code lies in the interval (42_decoder_ops.md R167). -/
theorem planDecode_completes {s : State} (inv : s.Inv) : ∃ p, planDecode s = .next p := by
  unfold planDecode
  split
  · exact ⟨_, rfl⟩
  have active : s.dec.phase = .active := not_ne_iff.mp ‹_›
  split
  · exact ⟨_, rfl⟩
  have model : ModelOk s.mdl := inv.model (eq_true_of_ne_false ‹_›)
  split
  · exact ⟨_, rfl⟩
  obtain ⟨x, found⟩ := model.symbolAt_of_lt (decodeValue_lt (inv.decInside active).2 model.positive)
  rw [found]
  obtain ⟨e, mem, rfl, -⟩ := symbolAt_eq_some found
  obtain ⟨cl, ch, range⟩ := rangeOf_of_mem mem
  simp only [range]
  split <;> exact ⟨_, rfl⟩

/-- From the invariants every command has a plan: no look-up by value fails. -/
theorem planOf_completes {s : State} (inv : s.Inv) (i : Instr) : ∃ p, planOf i s = .next p := by
  cases i with
  | build es => exact planBuild_completes es s
  | total => exact planTotal_completes s
  | rangeof x => exact planRangeof_completes x s
  | symat v => exact planSymat_completes inv.model v
  | einit => exact ⟨_, rfl⟩
  | encode x => exact planEncode_completes x s
  | efinish => exact planEfinish_completes s
  | dinit => exact ⟨_, rfl⟩
  | decode => exact planDecode_completes inv

theorem exec_completes {s : State} (inv : s.Inv) (i : Instr) : ∃ t, exec i s = .next t := by
  obtain ⟨p, planned⟩ := planOf_completes inv i
  exact ⟨p.completed, by rw [exec_eq_complete, planned]; rfl⟩

/-- The fields of the packed response (30_encoding.md R92). -/
theorem packed_fields (r : Response) :
    r.packed.extractLsb' 80 4 = r.status.code ∧ r.packed.extractLsb' 40 40 = r.d1 ∧ r.packed.extractLsb' 0 40 = r.d0 := by
  refine ⟨?_, ?_, ?_⟩ <;> ext i hi <;> simp (disch := omega) [Response.packed, BitVec.getElem_extractLsb']
  · intros; omega
  · rintro (⟨_, _⟩ | ⟨_, _⟩) <;> omega

/-- Settles O42: totality is `exec_completes`, the data are `exec_responds`. -/
theorem everyCommandResponds : Obligations.EveryCommandResponds := by
  refine ⟨fun i s inv => ?_, fun i s t h => ?_, packed_fields⟩
  · obtain ⟨t, h⟩ := exec_completes inv i
    obtain ⟨r, rsp, -⟩ := exec_responds h
    exact ⟨t, r, h, rsp⟩
  · obtain ⟨r, rsp, ⟨is_ok, data⟩ | ⟨st, listed, rfl⟩⟩ := exec_responds h
    · exact ⟨r, rsp, fun not_ok => absurd is_ok not_ok, fun _ => data⟩
    · exact ⟨_, rsp, fun _ => ⟨rfl, rfl⟩, fun is_ok => absurd (is_ok ▸ listed) i.ok_notMem_errors⟩

end Sys2Proof.Machine
end

section
/-! SUPPORT. What the fetch makes of an illegal word and of a BUILD that waits (30_encoding.md R85, R88, R96). -/

namespace Sys2Proof.Machine

/-- An illegal word is fetched alone (30_encoding.md R88). -/
theorem fetch_of_illegalWord {w : Word} (rest : List HostMove) (illegal : IllegalWord w) :
    fetch (.word w :: rest) = .illegal rest := by
  rcases decode_of_illegalWord (portWords rest) illegal with ⟨c, rejects⟩ | ⟨op, rejects⟩ <;>
    simp [fetch, portWords, rejects]

/-- A word that selects a row is never fetched as illegal. -/
theorem fetch_ne_illegal {w : Word} {rest rest' : List HostMove} (legal : ¬ IllegalWord w) :
    fetch (.word w :: rest) ≠ .illegal rest' := by
  obtain ⟨o, selects⟩ : ∃ o : Op, w &&& o.maskWord = o.matchWord := by simpa [illegalWord_iff] using legal
  rcases decode_of_selects (portWords rest) selects with ⟨i, left, reads, -⟩ | ⟨rfl, missing⟩
  · simp [fetch, portWords, reads]
  · simp [fetch, portWords, decode_of_missing_entries selects missing]

theorem step_of_fetch_illegal {s : State} {w : Word} {moves rest : List HostMove} (port : s.port = .word w :: moves)
    (h : fetch (.word w :: moves) = .illegal rest) :
    step s = .next { s with port := rest, rsp := some (errorResponse .illegalCommand) } := by
  unfold step
  rw [port]
  simp only [h]
  rfl

/-- No command answers IllegalCommand. -/
theorem exec_rsp_ne_illegalCommand {i : Instr} {s t : State} (h : exec i s = .next t) :
    t.rsp ≠ some (errorResponse .illegalCommand) := fun rsp => by
  have status := exec_status h rsp
  cases i <;> simp [Instr.errors, errorResponse] at status

/-- Settles O9: an illegal word is fetched alone; behind a legal one stands a command, which never answers IllegalCommand, or a BUILD
that waits, which answers nothing. -/
theorem illegalWordIsRefused : Obligations.IllegalWordIsRefused := by
  refine ⟨fun s w rest port illegal => step_of_fetch_illegal port (fetch_of_illegalWord rest illegal),
    fun s t w rest port legal h rsp => ?_, ?_, ?_⟩
  · rcases step_next_cases h with ⟨idle, -⟩ | ⟨bits, moves, move, -⟩ | ⟨moves, move, -⟩ | ⟨k, moves, move, -⟩ |
      ⟨i, moves, -, run⟩ | ⟨moves, fetched, -⟩ | ⟨moves, -, waits⟩
    · simp [port] at idle
    · simp [port] at move
    · simp [port] at move
    · simp [port] at move
    · exact absurd rsp (exec_rsp_ne_illegalCommand run)
    · exact absurd (port ▸ fetched) (fetch_ne_illegal legal)
    · rcases waitForEntries_next_cases waits with ⟨rfl, -⟩ | ⟨moves', -, rfl⟩
      · exact ⟨rsp, rfl⟩
      · cases rsp
  · unfold IllegalWord; decide
  · unfold IllegalWord; decide

/-- Behind words that stand first on the port come the moves after them. -/
theorem afterWords_append (ws : List Word) (rest : List HostMove) :
    afterWords (ws.map .word ++ rest) = afterWords rest := by
  induction ws with
  | nil => rfl
  | cons w ws ih => exact ih

/-- A BUILD header that fewer words follow than its count, up to the next move that is no word, waits (30_encoding.md R85, R96). -/
theorem step_of_missing_entries {s : State} {w : Word} {ws : List Word} {rest : List HostMove}
    (selects : w &&& Op.build.maskWord = Op.build.matchWord) (missing : ws.length < countField w)
    (port : s.port = (w :: ws).map .word ++ rest) (ends : portWords rest = []) :
    step s = waitForEntries s (afterWords rest) := by
  have waits : fetch (.word w :: (ws.map .word ++ rest)) = .waiting (afterWords rest) := by
    have words : portWords (.word w :: (ws.map .word ++ rest)) = w :: ws := by simp [portWords, portWords_append, ends]
    have after := afterWords_append (w :: ws) rest
    unfold fetch
    rw [words, decode_of_missing_entries selects missing]
    exact congrArg Fetched.waiting after
  unfold step
  rw [port]
  simp only [List.map_cons, List.cons_append, waits]

/-- Settles O10: in each case the words end at the move named, so the BUILD waits and that move decides. -/
theorem buildWaitsForItsEntryWords : Obligations.BuildWaitsForItsEntryWords := by
  intro s w ws rest selects few port
  have missing : ws.length < countField w := by rwa [countField, toNat_low_field]
  have waits (ends : portWords rest = []) := step_of_missing_entries selects missing port ends
  refine ⟨?_, ?_, ?_, ?_⟩
  · rintro rfl; exact waits rfl
  · rintro rest' rfl; exact waits rfl
  · rintro k rest' rfl; exact waits rfl
  · rintro bits rest' rfl; exact waits rfl

end Sys2Proof.Machine
end

section
/-! SUPPORT. The assembler's words (30_encoding.md R94, R95). -/

namespace Sys2Proof.Machine

/-- A symbol operand in a word. -/
theorem sym_setWidth {s : Nat} (h : s ≤ 511) : ((BitVec.ofNat 9 s).setWidth 64 : Word) = BitVec.ofNat 64 s :=
  BitVec.setWidth_ofNat_of_le_of_lt (by omega) (Nat.lt_succ_of_le h)

/-- A value operand in a word. -/
theorem value_setWidth {v : Nat} (h : v < 2 ^ 40) : ((BitVec.ofNat 40 v).setWidth 64 : Word) = BitVec.ofNat 64 v :=
  BitVec.setWidth_ofNat_of_le_of_lt (by omega) h

/-- A BUILD header's count in a word. -/
theorem count_setWidth {k : Nat} (h : k ≤ 1023) : ((BitVec.ofNat 10 k).setWidth 64 : Word) = BitVec.ofNat 64 k :=
  BitVec.setWidth_ofNat_of_le_of_lt (by omega) (Nat.lt_succ_of_le h)

theorem encode_rangeof_ofNat {s : Nat} (h : s ≤ 511) :
    Sys2Proof.encode (.rangeof (BitVec.ofNat 9 s)) = [0x0300000000000000#64 ||| BitVec.ofNat 64 s] := by
  rw [Sys2Proof.encode, encodeHead, sym_setWidth h]; rfl

theorem encode_encode_ofNat {s : Nat} (h : s ≤ 511) :
    Sys2Proof.encode (.encode (BitVec.ofNat 9 s)) = [0x1100000000000000#64 ||| BitVec.ofNat 64 s] := by
  rw [Sys2Proof.encode, encodeHead, sym_setWidth h]; rfl

theorem encode_symat_ofNat {v : Nat} (h : v < 2 ^ 40) :
    Sys2Proof.encode (.symat (BitVec.ofNat 40 v)) = [0x0400000000000000#64 ||| BitVec.ofNat 64 v] := by
  rw [Sys2Proof.encode, encodeHead, value_setWidth h]; rfl

/-- A BUILD in words: the header with the number of entries, then the entry words. -/
theorem encode_build {es : List EntryWord} (h : es.length ≤ maxCount) :
    Sys2Proof.encode (.build es) = (0x0100000000000000#64 ||| BitVec.ofNat 64 es.length) :: es.map encodeEntry := by
  rw [Sys2Proof.encode, encodeHead, count_setWidth h]; rfl

/-- The entry a pair `s:f` stands for. -/
def pairEntry (p : Nat × Int) : EntryWord := { resv := 0#23, sym := BitVec.ofNat 9 p.1, freq := BitVec.ofInt 32 p.2 }

theorem encodeEntry_pairEntry {p : Nat × Int} (h : p.1 ≤ 511) :
    encodeEntry (pairEntry p) = (BitVec.ofNat 64 p.1 <<< 32) ||| (BitVec.ofInt 32 p.2).setWidth 64 := by
  simp [encodeEntry, pairEntry, sym_setWidth h]

/-- As many values as operands. -/
theorem asmAll_length {α β : Type} {f : α → Option β} {l : List α} {ys : List β} (h : asmAll f l = some ys) :
    ys.length = l.length := by
  induction l generalizing ys with
  | nil => cases h; rfl
  | cons x l ih =>
    rw [asmAll] at h
    split at h <;> cases h
    next rest => rw [List.length_cons, ih rest, List.length_cons]

theorem words_build {pairs : List (Nat × Int)} (few : pairs.length ≤ 1023)
    (fit : ∀ p ∈ pairs, p.1 ≤ 511 ∧ -(2 ^ 31) ≤ p.2 ∧ p.2 < 2 ^ 31) :
    (AsmLine.build pairs).words =
      some ((0x0100000000000000#64 ||| BitVec.ofNat 64 pairs.length) ::
        pairs.map fun p => (BitVec.ofNat 64 p.1 <<< 32) ||| (BitVec.ofInt 32 p.2).setWidth 64) := by
  have entries : asmAll asmPair pairs = some (pairs.map pairEntry) :=
    asmAll_eq_some pairEntry fun p mem => asmPair_of_fits (fit p mem).1 (fit p mem).2
  have few' : (pairs.map pairEntry).length ≤ maxCount := by rw [List.length_map]; exact few
  have words : (pairs.map pairEntry).map encodeEntry =
      pairs.map fun p => (BitVec.ofNat 64 p.1 <<< 32) ||| (BitVec.ofInt 32 p.2).setWidth 64 := by
    rw [List.map_map]
    exact List.map_congr_left fun p mem => encodeEntry_pairEntry (fit p mem).1
  simp only [AsmLine.words, entries]
  rw [if_pos few', encode_build few', words, List.length_map]

theorem words_build_eq_none {pairs : List (Nat × Int)}
    (h : 1023 < pairs.length ∨ ∃ p ∈ pairs, 511 < p.1 ∨ p.2 < -(2 ^ 31) ∨ 2 ^ 31 ≤ p.2) :
    (AsmLine.build pairs).words = none := by
  rw [AsmLine.words]
  split
  · rfl
  next es entries =>
    have count := asmAll_length entries
    rcases h with many | ⟨p, mem, outside⟩
    · exact if_neg (by rw [count]; exact Nat.not_le.mpr many)
    · rw [asmAll_eq_none ⟨p, mem, asmPair_of_not_fits outside⟩] at entries
      cases entries

theorem asmEncodes_of_le {ss : List Nat} (fit : ∀ s ∈ ss, s ≤ 511) :
    asmEncodes ss = some (ss.map fun s => Instr.encode (BitVec.ofNat 9 s)) := by
  simp [asmEncodes, asmAll_eq_some (BitVec.ofNat 9) fun s mem => asmSym_of_le (fit s mem)]

theorem asmEncodes_of_gt {ss : List Nat} (h : ∃ s ∈ ss, 511 < s) : asmEncodes ss = none := by
  obtain ⟨s, mem, above⟩ := h
  rw [asmEncodes, asmAll_eq_none ⟨s, mem, asmSym_of_gt above⟩]

/-- The words of a row of ENCODEs, one per symbol. -/
theorem flatMap_encode_encodes {ss : List Nat} (fit : ∀ s ∈ ss, s ≤ 511) :
    (ss.map fun s => Instr.encode (BitVec.ofNat 9 s)).flatMap Sys2Proof.encode =
      ss.map fun s => 0x1100000000000000#64 ||| BitVec.ofNat 64 s := by
  rw [List.flatMap_map, ← List.flatMap_pure_eq_map]
  exact List.flatMap_congr fun s mem => encode_encode_ofNat (fit s mem)

theorem words_encstream {ss : List Nat} (fit : ∀ s ∈ ss, s ≤ 511) :
    (AsmLine.encstream ss).words =
      some (0x1000000000000000#64 :: (ss.map fun s => 0x1100000000000000#64 ||| BitVec.ofNat 64 s) ++
        [0x1100000000000100#64, 0x1200000000000000#64]) := by
  simp only [AsmLine.words, asmEncodes_of_le fit, Option.map_some, List.flatMap_append, flatMap_encode_encodes fit]
  rfl

theorem words_decodeTimes (k : Nat) : (AsmLine.decodeTimes k).words = some (List.replicate k 0x2100000000000000#64) := by
  have one : Sys2Proof.encode .decode = [0x2100000000000000#64] := rfl
  simp [AsmLine.words, List.flatMap_replicate, one]

/-- Settles O6: line by line, the operands' checks and the words of the commands. -/
theorem assemblerWords : Obligations.AssemblerWords := by
  refine ⟨⟨rfl, rfl, rfl, rfl, rfl⟩, fun s h => ⟨?_, ?_⟩, fun s h => ⟨?_, ?_⟩, fun v h => ?_, fun v h => ?_,
    fun pairs => words_build, fun pairs => words_build_eq_none, fun w h => if_pos h, fun w h => if_neg (Nat.not_lt.mpr h),
    fun ss fit => ⟨?_, words_encstream fit⟩, fun ss h => ⟨?_, ?_⟩, words_decodeTimes⟩
  · rw [AsmLine.words, asmSym_of_le h, Option.map_some, encode_rangeof_ofNat h]
  · rw [AsmLine.words, asmSym_of_le h, Option.map_some, encode_encode_ofNat h]
  · rw [AsmLine.words, asmSym_of_gt h, Option.map_none]
  · rw [AsmLine.words, asmSym_of_gt h, Option.map_none]
  · rw [AsmLine.words, asmValue_of_lt h, Option.map_some, encode_symat_ofNat h]
  · rw [AsmLine.words, asmValue_of_ge h, Option.map_none]
  · rw [AsmLine.words, asmEncodes_of_le fit, Option.map_some, flatMap_encode_encodes fit]
  · rw [AsmLine.words, asmEncodes_of_gt h, Option.map_none]
  · rw [AsmLine.words, asmEncodes_of_gt h, Option.map_none]

end Sys2Proof.Machine
end

section
/-! SUPPORT. The commands of the model unit (40_model_ops.md): what BUILD stores, and what TOTAL, RANGEOF and SYMAT answer. -/

namespace Sys2Proof.Machine

/-! BUILD (40_model_ops.md R110 to R112). -/

theorem exec_build_of_good {es : List EntryWord} (good : GoodMapping es) (s : State) :
    exec (.build es) s =
      .next { s with
        mdl := { tab := tabulate 0 es ++ s.mdl.tab.drop es.length, n := BitVec.ofNat 9 es.length,
                 total := BitVec.ofNat 40 (accumulate 0 es), valid := true }
        rsp := some (okResponse (BitVec.ofNat 40 (accumulate 0 es)) (BitVec.ofNat 40 es.length)) } :=
  congrArg complete (if_neg (ne_true_of_eq_false (badMapping_eq_false_iff.mpr good)))

theorem exec_build_of_not_good {es : List EntryWord} (bad : ¬ GoodMapping es) (s : State) :
    exec (.build es) s = .next { s.invalidateModel with rsp := some (errorResponse .invalidModel) } :=
  congrArg complete (if_pos (eq_true_of_ne_false (mt badMapping_eq_false_iff.mp bad)))

/-- Settles O17: a good mapping has at most 257 entries. -/
theorem moreThan257EntriesIsInvalid : Obligations.MoreThan257EntriesIsInvalid := fun es s many =>
  have bad : ¬ GoodMapping es := fun good => Nat.not_le.mpr many good.length_le
  ⟨_, exec_build_of_not_good bad s, rfl, rfl⟩

/-- Where no frequency is negative, BUILD's `acc` is the sum of the frequencies. -/
theorem accumulate_eq_freqSum {es : List EntryWord} (positive : ∀ e ∈ es, 1 ≤ e.freq.toInt) (acc : Nat) :
    (accumulate acc es : Int) = acc + freqSum es := by
  induction es generalizing acc with
  | nil => simp [accumulate, freqSum]
  | cons e es ih =>
    have rest := ih (fun x mem => positive x (.tail _ mem)) (acc + e.freqInt.toNat)
    have first := positive e (.head _)
    simp only [freqSum, List.map_cons, List.sum_cons, accumulate, EntryWord.freqInt] at rest ⊢
    omega

theorem accumulate_append (acc : Nat) (es fs : List EntryWord) :
    accumulate acc (es ++ fs) = accumulate (accumulate acc es) fs := by
  induction es generalizing acc with
  | nil => rfl
  | cons e es ih => exact ih _

theorem accumulate_take_le (es : List EntryWord) (i : Nat) : accumulate 0 (es.take i) ≤ accumulate 0 es := by
  have split := accumulate_append 0 (es.take i) (es.drop i)
  rw [List.take_append_drop] at split
  exact split ▸ le_accumulate _ _

/-- The end of an interval of a good mapping, in its register, is the sum of the frequencies up to it (40_model_ops.md R110). -/
theorem GoodMapping.toNat_accumulate_take {es : List EntryWord} (good : GoodMapping es) (i : Nat) :
    (((BitVec.ofNat 40 (accumulate 0 (es.take i))).toNat : Nat) : Int) = freqSum (es.take i) := by
  have fits : accumulate 0 (es.take i) < 2 ^ 40 := (accumulate_take_le es i).trans_lt good.accumulate_lt
  have sum := accumulate_eq_freqSum (es := es.take i) (fun e mem => good.positive e (List.mem_of_mem_take mem)) 0
  rw [BitVec.toNat_ofNat, Nat.mod_eq_of_lt fits, sum, Nat.cast_zero, zero_add]

/-- Slot `i` of BUILD's table: the `i`-th symbol, from `acc` before its entry to `acc` after it (40_model_ops.md R111). -/
theorem tabulate_getElem? {es : List EntryWord} {i : Nat} {e : EntryWord} (entry : es[i]? = some e) (acc : Nat) :
    (tabulate acc es)[i]? =
      some { sym := e.sym, cl := BitVec.ofNat 40 (accumulate acc (es.take i)),
             ch := BitVec.ofNat 40 (accumulate acc (es.take (i + 1))) } := by
  induction es generalizing acc i with
  | nil => simp at entry
  | cons x es ih =>
    cases i with
    | zero =>
      obtain rfl : x = e := by simpa using entry
      rfl
    | succ i => exact ih entry (acc + x.freqInt.toNat)

/-- Settles O15: the sums are `GoodMapping.toNat_accumulate_take`, at the end of the list for the total. -/
theorem buildStoresTheModel : Obligations.BuildStoresTheModel := by
  intro es s good
  have length_le := good.length_le
  refine ⟨_, exec_build_of_good good s, rfl, rfl, ?size, ?total, fun i e entry => ?slot, BitVec.ofNat 40 es.length, rfl, ?count⟩
  case size => exact Nat.mod_eq_of_lt (by omega)
  case total => simpa using good.toNat_accumulate_take es.length
  case slot =>
    obtain ⟨in_range, -⟩ := List.getElem?_eq_some_iff.mp entry
    have stored := tabulate_getElem? entry 0
    rw [← List.getElem?_append_left (l₂ := s.mdl.tab.drop es.length) (by simpa using in_range)] at stored
    exact ⟨_, stored, rfl, good.toNat_accumulate_take i, good.toNat_accumulate_take (i + 1)⟩
  case count => exact Nat.mod_eq_of_lt (by omega)

/-! TOTAL (40_model_ops.md R113). -/

theorem exec_total_of_valid {s : State} (valid : s.mdl.valid = true) :
    exec .total s = .next { s with rsp := some (okResponse s.mdl.total 0#40) } :=
  congrArg complete (if_pos valid)

theorem exec_total_of_noModel {s : State} (noModel : s.mdl.valid = false) :
    exec .total s = .next { s with rsp := some (errorResponse .noModel) } :=
  congrArg complete (if_neg (ne_true_of_eq_false noModel))

/-- The lengths of contiguous intervals add up to the distance from the first one's start to the last one's end. -/
theorem start_add_sum_of_contiguous {l : List TabEntry} {start total : Cum} (contiguous : l.IsChain fun a b => a.ch = b.cl)
    (nonempty : ∀ e ∈ l, e.cl.toNat < e.ch.toNat) (first : (l.head?.map fun e => e.cl) = some start)
    (last : (l.getLast?.map fun e => e.ch) = some total) :
    start.toNat + (l.map fun e => e.ch.toNat - e.cl.toNat).sum = total.toNat := by
  induction l generalizing start with
  | nil => simp at first
  | cons x l ih =>
    obtain rfl : x.cl = start := by simpa using first
    have x_nonempty := nonempty x (.head _)
    cases l with
    | nil =>
      obtain rfl : x.ch = total := by simpa using last
      simp only [List.map_cons, List.map_nil, List.sum_cons, List.sum_nil]
      omega
    | cons y l =>
      obtain ⟨meets, contiguous⟩ := List.isChain_cons_cons.mp contiguous
      have rest := ih contiguous (fun e mem => nonempty e (.tail _ mem)) (congrArg some meets.symm) last
      rw [List.map_cons, List.sum_cons]
      omega

/-- The total of a model is the sum of its frequencies (40_model_ops.md R110). -/
theorem ModelOk.total_eq_sum {m : Mdl} (ok : ModelOk m) :
    m.total.toNat = (m.entries.map fun e => e.ch.toNat - e.cl.toNat).sum := by
  have sum := start_add_sum_of_contiguous ok.contiguous ok.nonempty ok.first ok.last
  rw [← sum, BitVec.toNat_ofNat, Nat.zero_mod, Nat.zero_add]

/-- Settles O19: the two arms of TOTAL, and `ModelOk.total_eq_sum`. -/
theorem totalAnswersTheSum : Obligations.TotalAnswersTheSum := fun _ =>
  ⟨exec_total_of_valid, exec_total_of_noModel, fun _ ok => ⟨ok.total_eq_sum, ok.positive⟩⟩

/-! RANGEOF (40_model_ops.md R114). -/

/-- A look-up by the symbol of a model's entry answers that entry's interval. -/
theorem ModelOk.rangeOf_sym {m : Mdl} (ok : ModelOk m) {e : TabEntry} (mem : e ∈ m.entries) :
    m.rangeOf e.sym = some (e.cl, e.ch) := by
  obtain ⟨cl, ch, range⟩ := rangeOf_of_mem mem
  obtain ⟨e', mem', same, rfl, rfl⟩ := rangeOf_eq_some range
  obtain rfl := ok.entry_unique mem' mem same
  exact range

theorem rangeOf_eq_none {m : Mdl} {x : Sym} (absent : ∀ e ∈ m.entries, e.sym ≠ x) : m.rangeOf x = none := by
  cases range : m.rangeOf x with
  | none => rfl
  | some interval =>
    obtain ⟨e, mem, is_sym, -⟩ := rangeOf_eq_some range
    exact absurd is_sym (absent e mem)

theorem exec_rangeof_of_rangeOf {s : State} {x : Sym} {cl ch : Cum} (valid : s.mdl.valid = true)
    (range : s.mdl.rangeOf x = some (cl, ch)) :
    exec (.rangeof x) s = .next { s with rsp := some (okResponse cl ch) } := by
  have plan : planRangeof x s = .next (answer s cl ch) := by rw [planRangeof, if_pos valid, range]
  exact congrArg complete plan

theorem exec_rangeof_of_absent {s : State} {x : Sym} (valid : s.mdl.valid = true)
    (absent : ∀ e ∈ s.mdl.entries, e.sym ≠ x) :
    exec (.rangeof x) s = .next { s with rsp := some (errorResponse .unknownSymbol) } := by
  have plan : planRangeof x s = .next (raise s (some .rangeof) .unknownSymbol) := by
    rw [planRangeof, if_pos valid, rangeOf_eq_none absent]
  exact congrArg complete plan

theorem exec_rangeof_of_noModel {s : State} (x : Sym) (noModel : s.mdl.valid = false) :
    exec (.rangeof x) s = .next { s with rsp := some (errorResponse .noModel) } :=
  congrArg complete (if_neg (ne_true_of_eq_false noModel))

/-- Settles O20: a symbol above 256 is in no entry of a model, so it is an absent one. -/
theorem rangeofAnswersTheInterval : Obligations.RangeofAnswersTheInterval := by
  refine fun s x model => ⟨?present, exec_rangeof_of_absent, ?above, exec_rangeof_of_noModel x⟩
  case present =>
    rintro valid e mem rfl
    exact exec_rangeof_of_rangeOf valid ((model valid).rangeOf_sym mem)
  case above =>
    refine fun valid above => exec_rangeof_of_absent valid fun e mem is_sym => ?_
    exact absurd ((model valid).alphabet e mem) (Nat.not_le.mpr (is_sym ▸ above))

/-! SYMAT (40_model_ops.md R115). -/

/-- Contiguous intervals that are not empty lie in order, each ending before every later one begins. -/
theorem pairwise_of_contiguous {l : List TabEntry} (contiguous : l.IsChain fun a b => a.ch = b.cl)
    (nonempty : ∀ e ∈ l, e.cl.toNat < e.ch.toNat) : l.Pairwise fun a b => a.ch.toNat ≤ b.cl.toNat := by
  induction l with
  | nil => exact .nil
  | cons x l ih =>
    cases l with
    | nil => exact List.pairwise_singleton _ _
    | cons y l =>
      obtain ⟨meets, contiguous⟩ := List.isChain_cons_cons.mp contiguous
      have rest := ih contiguous fun e mem => nonempty e (.tail _ mem)
      have y_nonempty := nonempty y (by simp)
      refine .cons (fun e mem => ?_) rest
      rw [meets]
      rcases List.mem_cons.mp mem with rfl | later
      · exact Nat.le_refl _
      · exact y_nonempty.le.trans (List.rel_of_pairwise_cons rest later)

/-- The intervals of two entries share no value. -/
def TabEntry.Apart (a b : TabEntry) : Prop := a.ch.toNat ≤ b.cl.toNat ∨ b.ch.toNat ≤ a.cl.toNat

/-- The intervals of a model's entries share no value. -/
theorem ModelOk.apart {m : Mdl} (ok : ModelOk m) {e e' : TabEntry} (mem : e ∈ m.entries) (mem' : e' ∈ m.entries)
    (distinct : e ≠ e') : e.Apart e' := by
  have symmetric : Std.Symm TabEntry.Apart := ⟨fun _ _ => Or.symm⟩
  have apart : m.entries.Pairwise TabEntry.Apart := (pairwise_of_contiguous ok.contiguous ok.nonempty).imp .inl
  exact apart.forall mem mem' distinct

/-- A value lies in at most one entry of a model (20_memory.md R51). -/
theorem ModelOk.entry_at_unique {m : Mdl} (ok : ModelOk m) {v : Nat} {e e' : TabEntry} (mem : e ∈ m.entries)
    (mem' : e' ∈ m.entries) (holds : e.cl.toNat ≤ v ∧ v < e.ch.toNat) (holds' : e'.cl.toNat ≤ v ∧ v < e'.ch.toNat) :
    e = e' := by
  by_contra distinct
  rcases ok.apart mem mem' distinct with before | after <;> omega

/-- A look-up by a value of a model's entry answers that entry's symbol. -/
theorem ModelOk.symbolAt_of_mem {m : Mdl} (ok : ModelOk m) {v : Nat} {e : TabEntry} (mem : e ∈ m.entries)
    (holds : e.cl.toNat ≤ v ∧ v < e.ch.toNat) : m.symbolAt v = some e.sym := by
  obtain ⟨x, found⟩ := ok.symbolAt_of_lt (holds.2.trans_le (ok.ch_le_total e mem))
  obtain ⟨e', mem', rfl, holds'⟩ := symbolAt_eq_some found
  obtain rfl := ok.entry_at_unique mem' mem holds' holds
  exact found

theorem exec_symat_of_mem {s : State} {v : Cum} {e : TabEntry} (valid : s.mdl.valid = true) (ok : ModelOk s.mdl)
    (mem : e ∈ s.mdl.entries) (holds : e.cl.toNat ≤ v.toNat ∧ v.toNat < e.ch.toNat) :
    exec (.symat v) s = .next { s with rsp := some (okResponse (BitVec.ofNat 40 e.sym.toNat) 0#40) } := by
  have below : ¬ s.mdl.total ≤ v := Nat.not_le.mpr (holds.2.trans_le (ok.ch_le_total e mem))
  have plan : planSymat v s = .next (answer s (symData e.sym) 0#40) := by
    rw [planSymat, if_pos valid, if_neg below, ok.symbolAt_of_mem mem holds]
  exact congrArg complete plan

theorem exec_symat_of_total_le {s : State} {v : Cum} (valid : s.mdl.valid = true) (beyond : s.mdl.total.toNat ≤ v.toNat) :
    exec (.symat v) s = .next { s with rsp := some (errorResponse .valueOutOfRange) } := by
  have plan : planSymat v s = .next (raise s (some .symat) .valueOutOfRange) := by
    rw [planSymat, if_pos valid, if_pos (BitVec.le_def.mpr beyond)]
  exact congrArg complete plan

theorem exec_symat_of_noModel {s : State} (v : Cum) (noModel : s.mdl.valid = false) :
    exec (.symat v) s = .next { s with rsp := some (errorResponse .noModel) } :=
  congrArg complete (if_neg (ne_true_of_eq_false noModel))

/-- The first entry of a model begins at 0. -/
theorem ModelOk.head_cl {m : Mdl} (ok : ModelOk m) {e : TabEntry} (head : m.entries.head? = some e) : e.cl = 0#40 := by
  simpa [head] using ok.first

/-- The last entry of a model ends at the total. -/
theorem ModelOk.last_ch {m : Mdl} (ok : ModelOk m) {e : TabEntry} (last : m.entries.getLast? = some e) : e.ch = m.total := by
  simpa [last] using ok.last

/-- Settles O21: 0 lies in the first entry and total - 1 in the last, and an entry that holds the value is the one found. -/
theorem symatAnswersTheSymbol : Obligations.SymatAnswersTheSymbol := by
  refine fun s v model => ⟨?inside, ?first, ?last, exec_symat_of_total_le, exec_symat_of_noModel v⟩
  case inside =>
    exact fun valid below => ⟨(model valid).exists_entry below,
      fun e mem above below => exec_symat_of_mem valid (model valid) mem ⟨above, below⟩⟩
  case first =>
    rintro valid rfl e head
    have mem := List.mem_of_head? head
    have nonempty := (model valid).nonempty e mem
    have begins := (model valid).head_cl head
    exact exec_symat_of_mem valid (model valid) mem ⟨by rw [begins], begins ▸ nonempty⟩
  case last =>
    intro valid next_is_total e last
    have mem := List.mem_of_getLast? last
    have nonempty := (model valid).nonempty e mem
    have ends : e.ch.toNat = s.mdl.total.toNat := congrArg _ ((model valid).last_ch last)
    exact exec_symat_of_mem valid (model valid) mem ⟨by omega, by omega⟩

/-! The frame of the four commands (20_memory.md R61, 10_state.md R24). -/

/-- Settles O46: a model command's plan makes no transfer, and of the registers it writes the model store at most, in BUILD. -/
theorem modelCommandsFrame : Obligations.ModelCommandsFrame := by
  intro i s t is_model h
  obtain ⟨p, form, rfl⟩ := exec_form h
  cases form with
  | answers => exact ⟨rfl, rfl, rfl, rfl, rfl, rfl, rfl, fun _ => ⟨rfl, rfl⟩⟩
  | buildFails es | buildStores es =>
    exact ⟨rfl, rfl, rfl, rfl, rfl, rfl, rfl, fun not_build => absurd rfl (not_build es)⟩
  | einit | encodeFails | encodeWrites | efinish | dinit | decodeFails | decodeEmits => simp at is_model

end Sys2Proof.Machine
end

section
/-! SUPPORT. The interval conditions and the loops of the coders as the rules in numbers (41_encoder_ops.md R132 to R141). -/

namespace Sys2Proof.Machine

/-! TopEq and Straddle (41_encoder_ops.md R133, R134). -/

theorem topEq_iff_testBit {n low high : Nat} (hn : 1 ≤ n) (hl : low ≤ mask n) (hh : high ≤ mask n) :
    topEq n low high = true ↔ low.testBit (n - 1) = high.testBit (n - 1) := by
  rw [topEq_iff hn hl hh, testBit_top hn hl, testBit_top hn hh, decide_eq_decide, ← not_lt, ← not_lt, not_iff_not]

theorem straddle_one (low high : Nat) : straddle 1 low high = false := rfl

theorem straddle_iff_div {n low high : Nat} (hn : 2 ≤ n) (hl : low ≤ mask n) (hh : high ≤ mask n) :
    straddle n low high = true ↔ low / 2 ^ (n - 2) = 1 ∧ high / 2 ^ (n - 2) = 2 := by
  simp [straddle, bitField_top_two hn hl, bitField_top_two hn hh, quarter_eq_two_pow hn, hn]

/-- QUARTER is 0 for registers of one bit or none (00_scope.md R7). -/
theorem two_le_of_quarter_pos {n : Nat} (h : 0 < quarter n) : 2 ≤ n := by
  by_contra small
  have : n = 0 ∨ n = 1 := by omega
  rcases this with rfl | rfl <;> simp [quarter] at h

/-- Straddle in numbers, for registers of any width: on one bit both sides are false. -/
theorem straddle_iff_quarters {n low high : Nat} (hl : low ≤ mask n) (hh : high ≤ mask n) :
    straddle n low high = true ↔ quarter n ≤ low ∧ low < half n ∧ half n ≤ high ∧ high < 3 * quarter n := by
  constructor
  · intro straddles
    exact (straddle_iff (two_le_of_straddle straddles) hl hh).mp straddles
  · intro quarters
    exact (straddle_iff (two_le_of_quarter_pos (by omega)) hl hh).mpr quarters

/-- The second bit of a value is the parity of the quarter it lies in. -/
theorem testBit_second {n : Nat} (v : Nat) : v.testBit (n - 2) = decide (v / 2 ^ (n - 2) % 2 = 1) :=
  Nat.testBit_eq_decide_div_mod_eq

/-- In an interval over both halves, `low` lies in the first or the second quarter and `high` in the third or the fourth, so that
Straddle comes down to the second bits (41_encoder_ops.md R134). -/
theorem Split.straddle_iff_testBit {n low high : Nat} (h : Split n low high) :
    straddle n low high = true ↔ 2 ≤ n ∧ low.testBit (n - 2) = true ∧ high.testBit (n - 2) = false := by
  have second_bits (hn : 2 ≤ n) :
      straddle n low high = true ↔ low.testBit (n - 2) = true ∧ high.testBit (n - 2) = false := by
    obtain ⟨low_half, half_high, high_mask⟩ := h
    have h2q := two_quarter hn
    have h4q := four_quarter hn
    have hmask := mask_succ n
    rw [straddle_iff_div hn (by omega) high_mask, testBit_second, testBit_second, decide_eq_true_eq, decide_eq_false_iff_not,
      ← quarter_eq_two_pow hn]
    have low_quarter : low / quarter n < 2 := by rw [Nat.div_lt_iff_lt_mul (quarter_pos hn)]; omega
    have high_quarter : high / quarter n < 4 := by rw [Nat.div_lt_iff_lt_mul (quarter_pos hn)]; omega
    have upper : 2 ≤ high / quarter n := by rw [Nat.le_div_iff_mul_le (quarter_pos hn)]; omega
    generalize low / quarter n = lowQuarter at *
    generalize high / quarter n = highQuarter at *
    omega
  exact ⟨fun straddles => ⟨two_le_of_straddle straddles, (second_bits (two_le_of_straddle straddles)).mp straddles⟩,
    fun ⟨hn, bits⟩ => (second_bits hn).mpr bits⟩

/-- Settles O23: the forms of TopEq are `topEq_iff_testBit` and `topEq_iff`, those of Straddle `straddle_iff_div`,
`straddle_iff_quarters` and, after the E1/E2 loop, `Split.straddle_iff_testBit`. -/
theorem topEqAndStraddleInNumbers : Obligations.TopEqAndStraddleInNumbers := by
  refine fun n low high hn hl hh => ⟨topEq_iff_testBit hn hl hh, topEq_iff hn hl hh, fun wide => straddle_iff_div wide hl hh,
    straddle_iff_quarters hl hh, ?oneBit, fun differ ordered => ?secondBits⟩
  case oneBit => rintro rfl; exact straddle_one low high
  case secondBits =>
    have halves : Split n low high := Nested.split hn ⟨ordered, hh⟩ differ
    exact halves.straddle_iff_testBit

/-! Narrow (41_encoder_ops.md R132, R141). -/

/-- A renormalised interval of two bits or more has two values more than QUARTER (41_encoder_ops.md R141). -/
theorem Settled.quarter_add_two_le_range {n low high : Nat} (hn : 2 ≤ n) (h : Settled n low high) :
    quarter n + 2 ≤ high - low + 1 := by
  obtain ⟨low_half, half_high, -, not_middle⟩ := h
  have := two_quarter hn
  omega

theorem Nested.range_le {n low high : Nat} (h : Nested n low high) : high - low + 1 ≤ 2 ^ n := by
  have := h.high_mask
  have := mask_succ n
  omega

theorem two_pow_mul_quarter {n : Nat} (hn : 2 ≤ n) : quarter n * 2 ^ n = 2 ^ (2 * n - 2) := by
  rw [quarter_eq_two_pow hn, ← Nat.pow_add]
  congr 1
  omega

theorem le_narrow_low (low high cl ch total : Nat) : low ≤ (narrow low high cl ch total).1 := Nat.le_add_right _ _

theorem narrow_high_le {low high cl ch total : Nat} (ordered : low ≤ high) (within : ch ≤ total) :
    (narrow low high cl ch total).2 ≤ high := by
  have share : ch * (high - low + 1) / total ≤ high - low + 1 := Nat.div_le_of_le_mul (Nat.mul_le_mul_right _ within)
  simp only [narrow]
  omega

/-- Settles O24: a total of at least 1 and at most QUARTER needs two bits, and leaves every entry a value of its own. -/
theorem narrowStaysInside : Obligations.NarrowStaysInside := by
  intro n low high cl ch total settled total_pos total_le nonempty within
  have hn : 2 ≤ n := two_le_of_quarter_pos (by omega)
  have nested := settled.split.nested
  have enough := settled.quarter_add_two_le_range hn
  have product : ch * (high - low + 1) ≤ 2 ^ (2 * n - 2) :=
    calc ch * (high - low + 1) ≤ quarter n * 2 ^ n := Nat.mul_le_mul (within.trans total_le) nested.range_le
      _ = 2 ^ (2 * n - 2) := two_pow_mul_quarter hn
  have narrowed := Machine.narrow_nested nested (by omega : total ≤ high - low + 1) nonempty within
  exact ⟨enough, nested.range_le, product, le_narrow_low _ _ _ _ _, narrowed.ordered, narrow_high_le nested.ordered within⟩

/-! The iterations in numbers (41_encoder_ops.md R138, R139). -/

theorem shl_of_lower_half {n v : Nat} (hn : 1 ≤ n) (hv : v < half n) : shl n v = 2 * v := by
  have := two_half hn
  rw [shl_eq, Nat.mod_eq_of_lt (by omega)]

theorem shl_of_upper_half {n v : Nat} (hn : 1 ≤ n) (hv : half n ≤ v) (hm : v ≤ mask n) : shl n v = 2 * (v - half n) := by
  have hpow := two_half hn
  have hmask := mask_succ n
  have doubled : 2 * v = 2 * (v - half n) + 2 ^ n := by omega
  rw [shl_eq, doubled, Nat.add_mod_right, Nat.mod_eq_of_lt (by omega)]

theorem shiftHigh_of_shl {n v m : Nat} (h : shl n v = 2 * m) : shiftHigh n v = 2 * m + 1 := by
  rw [shiftHigh, h]
  exact two_mul_or_bit m true

/-- An E1 iteration: both ends in the lower half. -/
theorem encShift_of_lower {n : Nat} (hn : 1 ≤ n) {w : EncWork} (hl : w.low < half n) (hh : w.high < half n) :
    encShift n w = { low := 2 * w.low, high := 2 * w.high + 1, pend := 0,
                     bits := w.bits ++ (false :: List.replicate w.pend true) } := by
  have := two_half hn
  have top : topBit n w.low = false := by
    rw [topBit_eq hn (by omega), decide_eq_false (Nat.not_le.mpr hl)]
  rw [encShift, top, shiftLow, shl_of_lower_half hn hl, shiftHigh_of_shl (shl_of_lower_half hn hh), Bool.not_false]

/-- An E2 iteration: both ends in the upper half. -/
theorem encShift_of_upper {n : Nat} (hn : 1 ≤ n) {w : EncWork} (nested : Nested n w.low w.high) (hl : half n ≤ w.low)
    (hh : half n ≤ w.high) :
    encShift n w = { low := 2 * (w.low - half n), high := 2 * (w.high - half n) + 1, pend := 0,
                     bits := w.bits ++ (true :: List.replicate w.pend false) } := by
  have := mask_succ n
  have := nested.low_mask
  have top : topBit n w.low = true := by
    rw [topBit_eq hn (by omega), decide_eq_true hl]
  rw [encShift, top, shiftLow, shl_of_upper_half hn hl nested.low_mask,
    shiftHigh_of_shl (shl_of_upper_half hn hh nested.high_mask), Bool.not_true]

/-- An E3 iteration: the ends in the second and the third quarter. -/
theorem encFold_of_quarters {n : Nat} {w : EncWork} (hq : quarter n ≤ w.low) (hl : w.low < half n) (hh : half n ≤ w.high)
    (ht : w.high < 3 * quarter n) :
    encFold n w = { low := 2 * (w.low - quarter n), high := 2 * (w.high - quarter n) + 1, pend := w.pend + 1,
                    bits := w.bits } := by
  have hn : 2 ≤ n := two_le_of_quarter_pos (by omega)
  rw [encFold, foldLow, fold_of_second_quarter hn hq hl, foldHigh_eq hn hh ht]

/-! Where the loops end (41_encoder_ops.md R138 to R140). -/

theorem Split.topEq_eq_false {n low high : Nat} (hn : 1 ≤ n) (h : Split n low high) : topEq n low high = false := by
  refine eq_false_of_ne_true fun top => ?_
  have same := (topEq_iff hn h.nested.low_mask h.high_mask).mp top
  exact absurd (same.mp h.low_half) (Nat.not_lt.mpr h.half_high)

theorem Settled.straddle_eq_false {n low high : Nat} (h : Settled n low high) : straddle n low high = false := by
  refine eq_false_of_ne_true fun straddles => ?_
  obtain ⟨hq, -, -, ht⟩ := (straddle_iff_quarters h.split.nested.low_mask h.high_mask).mp straddles
  exact h.not_middle ⟨hq, ht⟩

/-- A run of the E1/E2 loop from where one iteration leaves ENCODE is a run from where it found it. -/
theorem ShiftRun.of_encShift {n l h p j : Nat} {w : EncWork} {bits : List Bool} (hn : 1 ≤ n) (nested : Nested n w.low w.high)
    (top : topEq n w.low w.high = true)
    (more : ShiftRun n (encShift n w).low (encShift n w).high (encShift n w).pend bits l h p j) :
    ∃ written, (encShift n w).bits = w.bits ++ written ∧ ShiftRun n w.low w.high w.pend (written ++ bits) l h p (j + 1) := by
  have same := (topEq_iff hn nested.low_mask nested.high_mask).mp top
  rcases Nat.lt_or_ge w.low (half n) with lower | upper
  · rw [encShift_of_lower hn lower (same.mp lower)] at more ⊢
    exact ⟨_, rfl, .e1 lower (same.mp lower) more⟩
  · have high_upper := upper.trans nested.ordered
    rw [encShift_of_upper hn nested upper high_upper] at more ⊢
    exact ⟨_, rfl, .e2 upper high_upper more⟩

theorem Split.shiftRun {n low high : Nat} (h : Split n low high) (pend : Nat) :
    ShiftRun n low high pend [] low high pend 0 := by
  obtain ⟨low_half, half_high, -⟩ := h
  exact .stop (by omega)

theorem Settled.foldRun {n low high : Nat} (h : Settled n low high) (pend : Nat) :
    FoldRun n low high pend low high pend 0 :=
  .stop fun ⟨hq, _, _, ht⟩ => h.not_middle ⟨hq, ht⟩

/-- ENCODE's E1/E2 loop, when it ends by its own test, is the rule's in numbers. -/
theorem encShiftLoop_run {n : Nat} (hn : 1 ≤ n) (k : Nat) (w : EncWork) (nested : Nested n w.low w.high)
    (ends : Split n (encShiftLoop n k w).low (encShiftLoop n k w).high) :
    ∃ bits j, (encShiftLoop n k w).bits = w.bits ++ bits ∧
      ShiftRun n w.low w.high w.pend bits (encShiftLoop n k w).low (encShiftLoop n k w).high (encShiftLoop n k w).pend j := by
  induction k generalizing w with
  | zero => exact ⟨[], 0, (List.append_nil _).symm, ends.shiftRun _⟩
  | succ k ih =>
    rw [encShiftLoop] at ends ⊢
    by_cases top : topEq n w.low w.high = true
    · rw [if_pos top] at ends ⊢
      obtain ⟨bits, j, grown, more⟩ := ih (encShift n w) (nested.shift hn top).1 ends
      obtain ⟨written, first, run⟩ := more.of_encShift hn nested top
      exact ⟨written ++ bits, j + 1, by rw [grown, first, List.append_assoc], run⟩
    · rw [if_neg top] at ends ⊢
      exact ⟨[], 0, (List.append_nil _).symm, ends.shiftRun _⟩

/-- ENCODE's E3 loop, when it ends by its own test, is the rule's in numbers. -/
theorem encFoldLoop_run {n : Nat} {pb : Option Nat} (k : Nat) (w w' : EncWork) (halves : Split n w.low w.high)
    (ends : encFoldLoop n pb k w = some w') (settled : Settled n w'.low w'.high) :
    ∃ j, FoldRun n w.low w.high w.pend w'.low w'.high w'.pend j := by
  induction k generalizing w with
  | zero => cases ends; exact ⟨0, settled.foldRun _⟩
  | succ k ih =>
    rw [encFoldLoop] at ends
    split at ends
    · next straddles =>
      obtain ⟨hq, hl, hh, ht⟩ := (straddle_iff_quarters halves.nested.low_mask halves.high_mask).mp straddles
      split at ends
      · cases ends
      · obtain ⟨j, more⟩ := ih (encFold n w) (halves.fold straddles).1 ends
        rw [encFold_of_quarters hq hl hh ht] at more
        exact ⟨j + 1, .e3 hq hl hh ht more⟩
    · cases ends; exact ⟨0, settled.foldRun _⟩

/-! What a run of the loops does (41_encoder_ops.md R140). -/

/-- The E1/E2 loop ends over both halves, having doubled the range in every iteration. -/
theorem ShiftRun.doubles {n low high pend l h p k : Nat} {bits : List Bool} (hn : 1 ≤ n)
    (run : ShiftRun n low high pend bits l h p k) (nested : Nested n low high) :
    Split n l h ∧ h - l + 1 = 2 ^ k * (high - low + 1) := by
  have hmask := mask_succ_eq_two_half hn
  induction run with
  | stop differ =>
    obtain ⟨ordered, high_mask⟩ := nested
    exact ⟨⟨by omega, by omega, high_mask⟩, (Nat.one_mul _).symm⟩
  | @e1 low high pend l h p k bits hl hh more ih =>
    obtain ⟨ordered, -⟩ := nested
    obtain ⟨halves, doubled⟩ := ih ⟨by omega, by omega⟩
    have twice : 2 * high + 1 - 2 * low + 1 = 2 * (high - low + 1) := by omega
    exact ⟨halves, by rw [doubled, twice, Nat.pow_succ, Nat.mul_assoc]⟩
  | @e2 low high pend l h p k bits hl hh more ih =>
    obtain ⟨ordered, high_mask⟩ := nested
    obtain ⟨halves, doubled⟩ := ih ⟨by omega, by omega⟩
    have twice : 2 * (high - half n) + 1 - 2 * (low - half n) + 1 = 2 * (high - low + 1) := by omega
    exact ⟨halves, by rw [doubled, twice, Nat.pow_succ, Nat.mul_assoc]⟩

/-- The E3 loop ends at a renormalised interval, having doubled the range in every iteration. -/
theorem FoldRun.doubles {n low high pend l h p k : Nat} (run : FoldRun n low high pend l h p k) (halves : Split n low high) :
    Settled n l h ∧ h - l + 1 = 2 ^ k * (high - low + 1) := by
  induction run with
  | stop ends =>
    obtain ⟨low_half, half_high, high_mask⟩ := halves
    exact ⟨⟨low_half, half_high, high_mask, by omega⟩, (Nat.one_mul _).symm⟩
  | @e3 low high pend l h p k hq hl hh ht more ih =>
    have hn : 2 ≤ n := two_le_of_quarter_pos (by omega)
    have h2q := two_quarter hn
    have hmask := mask_succ_eq_two_half (n := n) (by omega)
    obtain ⟨settled, doubled⟩ := ih ⟨by omega, by omega, by omega⟩
    have twice : 2 * (high - quarter n) + 1 - 2 * (low - quarter n) + 1 = 2 * (high - low + 1) := by omega
    exact ⟨settled, by rw [doubled, twice, Nat.pow_succ, Nat.mul_assoc]⟩

/-- Both loops together: as the range is doubled each time and never above `2 ^ n`, there are at most `n` iterations. -/
theorem iterations_le {n low high l h k : Nat} (inside : Nested n l h) (doubled : h - l + 1 = 2 ^ k * (high - low + 1)) :
    k ≤ n ∧ (k = n → high ≤ low) := by
  have bounded : 2 ^ k * (high - low + 1) ≤ 2 ^ n := doubled ▸ inside.range_le
  refine ⟨?_, fun full => ?_⟩
  · exact (Nat.pow_le_pow_iff_right Nat.one_lt_two).mp (le_of_mul_le_of_one_le_left bounded (Nat.succ_pos _))
  · have single : high - low + 1 ≤ 1 := by
      rw [full] at bounded
      exact Nat.le_of_mul_le_mul_left (by simpa using bounded) (Nat.two_pow_pos n)
    omega

/-- Everything R140 says of a run of the two loops. -/
theorem runs_double_the_range {n low high pend l1 h1 p1 k1 l2 h2 p2 k2 : Nat} {bits : List Bool} (hn : 1 ≤ n)
    (nested : Nested n low high) (shiftRun : ShiftRun n low high pend bits l1 h1 p1 k1)
    (foldRun : FoldRun n l1 h1 p1 l2 h2 p2 k2) :
    h1 - l1 + 1 = 2 ^ k1 * (high - low + 1) ∧ h2 - l2 + 1 = 2 ^ k2 * (h1 - l1 + 1) ∧
      l1 < half n ∧ half n ≤ h1 ∧ Settled n l2 h2 ∧ k1 + k2 ≤ n ∧ (k1 + k2 = n → low = high) := by
  obtain ⟨halves, shift_doubled⟩ := shiftRun.doubles hn nested
  obtain ⟨settled, fold_doubled⟩ := foldRun.doubles halves
  have doubled : h2 - l2 + 1 = 2 ^ (k1 + k2) * (high - low + 1) := by
    rw [fold_doubled, shift_doubled, ← Nat.mul_assoc, ← Nat.pow_add, Nat.add_comm k2]
  obtain ⟨at_most, all⟩ := iterations_le settled.split.nested doubled
  exact ⟨shift_doubled, fold_doubled, halves.low_half, halves.half_high, settled, at_most,
    fun full => Nat.le_antisymm nested.ordered (all full)⟩

/-- The range has been doubled once per bit that DECODE has read. -/
def DecWork.OneReadPerDoubling (range : Nat) (w : DecWork) : Prop := w.high - w.low + 1 = 2 ^ w.reads * range

theorem DecWork.OneReadPerDoubling.next {range : Nat} {w w' : DecWork} (h : w.OneReadPerDoubling range)
    (ordered : w.low ≤ w.high) (ordered' : w'.low ≤ w'.high) (doubled : w'.high + 1 - w'.low = 2 * (w.high + 1 - w.low))
    (read : w'.reads = w.reads + 1) : w'.OneReadPerDoubling range := by
  have twice : w'.high - w'.low + 1 = 2 * (w.high - w.low + 1) := by omega
  rw [OneReadPerDoubling, twice, h, read, Nat.pow_succ, Nat.mul_comm _ 2, Nat.mul_assoc]

theorem decShiftLoop_oneReadPerDoubling {n range : Nat} (hn : 1 ≤ n) (k : Nat) {w : DecWork} (nested : Nested n w.low w.high)
    (h : w.OneReadPerDoubling range) : (decShiftLoop n k w).OneReadPerDoubling range := by
  refine (decShiftLoop_keeps (P := fun v => Nested n v.low v.high ∧ v.OneReadPerDoubling range) ?_ k w ⟨nested, h⟩).2
  rintro v top ⟨nested, h⟩
  obtain ⟨nested', doubled⟩ := nested.shift hn top
  exact ⟨nested', h.next nested.ordered nested'.ordered doubled rfl⟩

theorem decFoldLoop_oneReadPerDoubling {n range : Nat} (k : Nat) {w : DecWork} (halves : Split n w.low w.high)
    (h : w.OneReadPerDoubling range) : (decFoldLoop n k w).OneReadPerDoubling range := by
  refine (decFoldLoop_keeps (P := fun v => Split n v.low v.high ∧ v.OneReadPerDoubling range) ?_ k w ⟨halves, h⟩).2
  rintro v straddles ⟨halves, h⟩
  obtain ⟨halves', doubled⟩ := halves.fold straddles
  exact ⟨halves', h.next halves.nested.ordered halves'.nested.ordered doubled rfl⟩

/-- The doublings of a range are counted by what they make of it. -/
theorem DecWork.OneReadPerDoubling.reads_eq {range k : Nat} {w : DecWork} (h : w.OneReadPerDoubling range) (pos : 0 < range)
    (doubled : w.high - w.low + 1 = 2 ^ k * range) : w.reads = k :=
  Nat.pow_right_injective (Nat.le_refl 2) (Nat.eq_of_mul_eq_mul_right pos (h.symm.trans doubled))

/-- ENCODE's loops run to their ends in numbers: the E3 loop with an unbounded counter always ends. -/
theorem encLoops_run {n : Nat} (hn : 1 ≤ n) {w : EncWork} (nested : Nested n w.low w.high) :
    ∃ bits k1 w2 k2, (encShiftLoop n n w).bits = w.bits ++ bits ∧
      ShiftRun n w.low w.high w.pend bits (encShiftLoop n n w).low (encShiftLoop n n w).high (encShiftLoop n n w).pend k1 ∧
      encFoldLoop n none n (encShiftLoop n n w) = some w2 ∧
      FoldRun n (encShiftLoop n n w).low (encShiftLoop n n w).high (encShiftLoop n n w).pend w2.low w2.high w2.pend k2 := by
  have halves := encShiftLoop_split hn n w nested nested.enough
  obtain ⟨bits, k1, grown, shiftRun⟩ := encShiftLoop_run hn n w nested halves
  obtain ⟨w2, ends, -⟩ := decFoldLoop_interval n n
    { low := (encShiftLoop n n w).low, high := (encShiftLoop n n w).high, code := 0, src := [], reads := 0 }
    (encShiftLoop n n w) rfl rfl
  obtain ⟨k2, foldRun⟩ := encFoldLoop_run n _ w2 halves ends (encLoops_settled hn nested ends)
  exact ⟨bits, k1, w2, k2, grown, shiftRun, ends, foldRun⟩

/-- DECODE's loops move the interval as ENCODE's do (42_decoder_ops.md R161). -/
theorem decLoops_interval {n : Nat} {v : DecWork} {w w2 : EncWork} (low : v.low = w.low) (high : v.high = w.high)
    (ends : encFoldLoop n none n (encShiftLoop n n w) = some w2) :
    (decShiftLoop n n v).low = (encShiftLoop n n w).low ∧ (decShiftLoop n n v).high = (encShiftLoop n n w).high ∧
      (decFoldLoop n n (decShiftLoop n n v)).low = w2.low ∧ (decFoldLoop n n (decShiftLoop n n v)).high = w2.high := by
  obtain ⟨low1, high1⟩ := decShiftLoop_interval n n v w low high
  obtain ⟨w2', ends', low2, high2⟩ := decFoldLoop_interval n n _ _ low1 high1
  obtain rfl : w2' = w2 := Option.some.inj (ends'.symm.trans ends)
  exact ⟨low1, high1, low2, high2⟩

/-- DECODE's loops, started with nothing read, read one bit per doubling of the range. -/
theorem decLoops_reads {n k1 k2 : Nat} (hn : 1 ≤ n) {v v1 v2 : DecWork} (nested : Nested n v.low v.high) (unread : v.reads = 0)
    (shift : decShiftLoop n n v = v1) (fold : decFoldLoop n n v1 = v2)
    (shift_doubled : v1.high - v1.low + 1 = 2 ^ k1 * (v.high - v.low + 1))
    (fold_doubled : v2.high - v2.low + 1 = 2 ^ k2 * (v1.high - v1.low + 1)) : v1.reads = k1 ∧ v2.reads = k1 + k2 := by
  subst shift fold
  have start : v.OneReadPerDoubling (v.high - v.low + 1) := by simp [DecWork.OneReadPerDoubling, unread]
  have shifted := decShiftLoop_oneReadPerDoubling hn n nested start
  have folded := decFoldLoop_oneReadPerDoubling n (decShiftLoop_split hn nested) shifted
  rw [shift_doubled, ← Nat.mul_assoc, ← Nat.pow_add, Nat.add_comm k2] at fold_doubled
  exact ⟨shifted.reads_eq (Nat.succ_pos _) shift_doubled, folded.reads_eq (Nat.succ_pos _) fold_doubled⟩

/-- Settles O26: ENCODE's loops are runs in numbers by `encLoops_run`, of which `runs_double_the_range` says everything, and
DECODE's loops move the interval with them, so that their reads count the same doublings. -/
theorem loopsDoubleTheRange : Obligations.LoopsDoubleTheRange := by
  refine ⟨fun n low high pend code src hn ordered high_mask => ?loops,
    fun n low high pend l1 h1 p1 k1 l2 h2 p2 k2 bits hn ordered high_mask shiftRun foldRun =>
      runs_double_the_range hn ⟨ordered, high_mask⟩ shiftRun foldRun⟩
  have nested : Nested n low high := ⟨ordered, high_mask⟩
  obtain ⟨bits, k1, w2, k2, written, shiftRun, ends, foldRun⟩ :=
    encLoops_run hn (w := { low := low, high := high, pend := pend, bits := [] }) nested
  obtain ⟨shift_doubled, fold_doubled, -, -, settled, at_most, all⟩ :=
    runs_double_the_range hn nested shiftRun foldRun
  obtain ⟨low1, high1, low2, high2⟩ :=
    decLoops_interval (v := { low := low, high := high, code := code, src := src, reads := 0 }) rfl rfl ends
  obtain ⟨reads1, reads2⟩ := decLoops_reads hn nested rfl rfl rfl (by rwa [low1, high1]) (by rwa [low1, high1, low2, high2])
  have halves1 := encShiftLoop_split hn n { low := low, high := high, pend := pend, bits := [] } nested nested.enough
  rw [List.nil_append] at written
  exact ⟨_, w2, _, _, k1, k2, rfl, ends, halves1.topEq_eq_false hn, settled.split.topEq_eq_false hn, settled.straddle_eq_false,
    written ▸ shiftRun, foldRun, encFoldLoop_bits ends, shift_doubled, fold_doubled, settled, at_most, all, rfl, rfl, low1, high1,
    reads1, low2, high2, reads2⟩

end Sys2Proof.Machine
end

section
/-! SUPPORT. The encoder commands EINIT, ENCODE, EFINISH (41_encoder_ops.md). -/

namespace Sys2Proof.Machine

/-- Settles O27: the plan is one record and one transfer, and MASK is `2 ^ n - 1` by definition. -/
theorem einitOpensTheEncoder : Obligations.EinitOpensTheEncoder := fun _ => rfl

/-! EFINISH (41_encoder_ops.md R142). -/

theorem exec_efinish_of_active {s : State} (active : s.enc.phase = .active) :
    exec .efinish s = .next { s with enc := { s.enc with phase := .done }, snk := s.snk ++ [.w1, .closed],
                                     rsp := some (okResponse 0#40 0#40) } := by
  have plan : planEfinish s =
      .next { regs := { s with enc := { s.enc with phase := .done } }, xfers := [SnkEvent.w1, .closed].map .snk,
              rsp := okResponse 0#40 0#40 } := by
    rw [planEfinish, if_neg (not_not_intro active)]
    rfl
  rw [exec_eq_complete, planOf, plan, complete, Plan.completed, transfers_snkEvents]

theorem exec_efinish_of_not_active {s : State} (inactive : s.enc.phase ≠ .active) :
    exec .efinish s = .next { s with rsp := some (errorResponse .badPhase) } :=
  congrArg complete (if_pos inactive)

/-- Settles O30: the two arms of EFINISH. -/
theorem efinishWritesOneBitAndCloses : Obligations.EfinishWritesOneBitAndCloses := fun _ =>
  ⟨exec_efinish_of_active, exec_efinish_of_not_active⟩

/-! ENCODE (41_encoder_ops.md R131): one lemma per arm of its rule. -/

theorem exec_encode_of_not_active {s : State} (x : Sym) (inactive : s.enc.phase ≠ .active) :
    exec (.encode x) s = .next { s with rsp := some (errorResponse .badPhase) } :=
  congrArg complete (if_pos inactive)

theorem exec_encode_of_noModel {s : State} (x : Sym) (active : s.enc.phase = .active) (noModel : s.mdl.valid = false) :
    exec (.encode x) s = .next { s with rsp := some (errorResponse .noModel) } := by
  have plan : planEncode x s = .next (raise s (some .encode) .noModel) := by
    rw [planEncode, if_neg (not_not_intro active), if_pos noModel]
  exact congrArg complete plan

theorem exec_encode_of_unknownSymbol {s : State} {x : Sym} (active : s.enc.phase = .active) (valid : s.mdl.valid = true)
    (unknown : s.mdl.rangeOf x = none) :
    exec (.encode x) s =
      .next { s with enc := { s.enc with phase := .fault }, rsp := some (errorResponse .unknownSymbol) } := by
  have plan : planEncode x s = .next (raise s (some .encode) .unknownSymbol) := by
    rw [planEncode, if_neg (not_not_intro active), if_neg (ne_false_of_eq_true valid), unknown]
  exact congrArg complete plan

section Known
variable {s : State} {x : Sym} {cl ch : Cum} (active : s.enc.phase = .active) (valid : s.mdl.valid = true)
  (range : s.mdl.rangeOf x = some (cl, ch))
include active valid range

theorem exec_encode_of_tooLarge (tooLarge : tooLarge s.params.numbits s.mdl.total = true) :
    exec (.encode x) s =
      .next { s with enc := { s.enc with phase := .fault }, rsp := some (errorResponse .precisionExhausted) } := by
  have plan : planEncode x s = .next (raise s (some .encode) .precisionExhausted) := by
    rw [planEncode, if_neg (not_not_intro active), if_neg (ne_false_of_eq_true valid), range]
    exact if_pos tooLarge
  exact congrArg complete plan

theorem exec_encode_of_overflow (fits : tooLarge s.params.numbits s.mdl.total = false)
    (overflow : encodeWork s.params s.enc cl ch s.mdl.total = none) :
    exec (.encode x) s =
      .next { s with enc := { s.enc with phase := .fault }, rsp := some (errorResponse .pendingOverflow) } := by
  have plan : planEncode x s = .next (raise s (some .encode) .pendingOverflow) := by
    rw [planEncode, if_neg (not_not_intro active), if_neg (ne_false_of_eq_true valid), range]
    simp only [fits, overflow, Bool.false_eq_true, if_false]
  exact congrArg complete plan

theorem exec_encode_of_work {w : EncWork} (fits : tooLarge s.params.numbits s.mdl.total = false)
    (work : encodeWork s.params s.enc cl ch s.mdl.total = some w) :
    exec (.encode x) s =
      .next { s with enc := { low := w.low, high := w.high, pending := w.pend, phase := .active },
                     snk := s.snk ++ w.bits.map SnkEvent.ofBit, rsp := some (okResponse 0#40 0#40) } := by
  have plan : planEncode x s =
      .next { regs := { s with enc := { low := w.low, high := w.high, pending := w.pend, phase := .active } },
              xfers := w.bits.map fun b => .snk (SnkEvent.ofBit b), rsp := okResponse 0#40 0#40 } := by
    rw [planEncode, if_neg (not_not_intro active), if_neg (ne_false_of_eq_true valid), range]
    simp only [fits, work, active, Bool.false_eq_true, if_false]
    rfl
  rw [exec_eq_complete, planOf, plan, complete, Plan.completed, transfers_bits]

end Known

/-! The pending counter (41_encoder_ops.md R139): a bounded one, an unbounded one, and what the loops make of the count. -/

/-- A bounded counter that does not overflow counts as an unbounded one. -/
theorem encFoldLoop_unbounded {n : Nat} {pb : Option Nat} (k : Nat) (w w' : EncWork) (ends : encFoldLoop n pb k w = some w') :
    encFoldLoop n none k w = some w' := by
  induction k generalizing w with
  | zero => exact ends
  | succ k ih =>
    rw [encFoldLoop] at ends ⊢
    split at ends
    · next straddles =>
      rw [if_pos straddles]
      split at ends
      · cases ends
      · exact ih _ ends
    · next stop => rw [if_neg stop, ends]

theorem pendingFull_eq_true {pb : Option Nat} {pend : Nat} (h : pendingFull pb pend = true) :
    ∃ b, pb = some b ∧ pend = 2 ^ b - 1 := by
  cases pb with
  | none => cases h
  | some b => exact ⟨b, rfl, beq_iff_eq.mp h⟩

/-- A counter overflows only on a count that does not fit it. -/
theorem encFoldLoop_overflow {n : Nat} {pb : Option Nat} (k : Nat) (w w' : EncWork) (overflow : encFoldLoop n pb k w = none)
    (ends : encFoldLoop n none k w = some w') : ¬ PendingFits pb w'.pend := by
  induction k generalizing w with
  | zero => cases overflow
  | succ k ih =>
    rw [encFoldLoop] at overflow ends
    split at overflow
    · next straddles =>
      rw [if_pos straddles] at ends
      split at overflow
      · next full =>
        obtain ⟨b, rfl, limit⟩ := pendingFull_eq_true full
        have counted : w.pend + 1 ≤ w'.pend :=
          encFoldLoop_keeps (P := fun v => w.pend + 1 ≤ v.pend) (fun _ _ _ h => Nat.le_succ_of_le h) k _ _ ends
            (Nat.le_refl _)
        intro fits
        have := fits b rfl
        omega
      · exact ih _ overflow ends
    · cases overflow

/-- After the E1/E2 loop either nothing was written and the count is as it was, or the count is 0. -/
theorem ShiftRun.quiet_or_cleared {n low high pend l h p k : Nat} {bits : List Bool}
    (run : ShiftRun n low high pend bits l h p k) : (bits = [] ∧ p = pend) ∨ p = 0 := by
  induction run with
  | stop => exact .inl ⟨rfl, rfl⟩
  | e1 _ _ _ ih => exact .inr (ih.elim And.right id)
  | e2 _ _ _ ih => exact .inr (ih.elim And.right id)

/-- Each E1/E2 iteration writes a bit, and the first one the pending bits besides. -/
theorem ShiftRun.length_add_pending {n low high pend l h p k : Nat} {bits : List Bool}
    (run : ShiftRun n low high pend bits l h p k) : bits.length + p = k + pend := by
  induction run with
  | stop => simp
  | e1 _ _ _ ih | e2 _ _ _ ih =>
    simp only [List.length_append, List.length_cons, List.length_replicate]
    omega

theorem FoldRun.pending_eq {n low high pend l h p k : Nat} (run : FoldRun n low high pend l h p k) : p = pend + k := by
  induction run with
  | stop => rfl
  | e3 _ _ _ _ _ ih => omega

/-- Every counter holds NUMBITS: it has 6 bits or more and NUMBITS is at most 32 (00_scope.md R6, R9). -/
theorem Params.pendingFits_of_le {p : Params} {pend : Nat} (h : pend ≤ p.numbits) : PendingFits p.pendBits pend := by
  intro b bounded
  have six_le : 6 ≤ b := by simpa [bounded] using p.pendBits_range
  calc pend ≤ 32 := h.trans p.numbits_range.2
    _ < 2 ^ 6 := by decide
    _ ≤ 2 ^ b := Nat.pow_le_pow_right (by decide) six_le

theorem PendingFits.mono {pb : Option Nat} {m k : Nat} (fits : PendingFits pb k) (h : m ≤ k) : PendingFits pb m :=
  fun b bounded => h.trans_lt (fits b bounded)

/-- A count that no longer fits is one of E3 iterations alone: with a bit written the count has started from 0. -/
theorem bits_eq_nil_of_overflow {p : Params} {low high pend l1 h1 p1 k1 l2 h2 p2 k2 : Nat} {bits : List Bool}
    (shiftRun : ShiftRun p.numbits low high pend bits l1 h1 p1 k1) (foldRun : FoldRun p.numbits l1 h1 p1 l2 h2 p2 k2)
    (at_most : k1 + k2 ≤ p.numbits) (overflow : ¬ PendingFits p.pendBits p2) : bits = [] := by
  rcases shiftRun.quiet_or_cleared with ⟨quiet, -⟩ | cleared
  · exact quiet
  · have counted := foldRun.pending_eq
    exact absurd (Params.pendingFits_of_le (by omega)) overflow

/-- ENCODE's work in numbers: the two loops from the narrowed interval, and PendingOverflow exactly when the count does not fit. -/
theorem encodeWork_run {p : Params} {e : Enc} {cl ch total : Cum} (counter : PendingFits p.pendBits e.pending)
    (nested : Nested p.numbits (narrow e.low e.high cl.toNat ch.toNat total.toNat).1
      (narrow e.low e.high cl.toNat ch.toNat total.toNat).2) :
    ∃ l1 h1 p1 k1 w2 k2,
      ShiftRun p.numbits (narrow e.low e.high cl.toNat ch.toNat total.toNat).1
        (narrow e.low e.high cl.toNat ch.toNat total.toNat).2 e.pending w2.bits l1 h1 p1 k1 ∧
      FoldRun p.numbits l1 h1 p1 w2.low w2.high w2.pend k2 ∧
      (PendingFits p.pendBits w2.pend → encodeWork p e cl ch total = some w2) ∧
      (¬ PendingFits p.pendBits w2.pend → encodeWork p e cl ch total = none) := by
  obtain ⟨bits, k1, w2, k2, written, shiftRun, ends, foldRun⟩ :=
    encLoops_run p.numbits_range.1
      (w := { low := (narrow e.low e.high cl.toNat ch.toNat total.toNat).1,
              high := (narrow e.low e.high cl.toNat ch.toNat total.toNat).2, pend := e.pending, bits := [] }) nested
  have bits_eq : w2.bits = bits := (encFoldLoop_bits ends).trans written
  refine ⟨_, _, _, k1, w2, k2, bits_eq ▸ shiftRun, foldRun, fun fits => ?fits, fun overflow => ?overflow⟩
  case fits =>
    cases work : encodeWork p e cl ch total with
    | none => exact absurd fits (encFoldLoop_overflow _ _ w2 work ends)
    | some w => rw [← ends, ← encFoldLoop_unbounded _ _ w work]
  case overflow =>
    cases work : encodeWork p e cl ch total with
    | none => rfl
    | some w =>
      obtain rfl : w = w2 := Option.some.inj ((encFoldLoop_unbounded _ _ w work).symm.trans ends)
      exact absurd (encLoops_pendingFits counter work) overflow

theorem ofBit_eq_ite : SnkEvent.ofBit = fun b => if b then .w1 else .w0 := by
  funext b
  cases b <;> rfl

/-- Settles O28: the loops from the narrowed interval are `encodeWork_run`, and each of its two ends is an arm of ENCODE. -/
theorem encodeNarrowsAndRenormalises : Obligations.EncodeNarrowsAndRenormalises := by
  rintro s x e inv active valid mem rfl total_le
  have hn := s.params.numbits_range.1
  have model := inv.model valid
  have range := model.rangeOf_sym mem
  have accepted : tooLarge s.params.numbits s.mdl.total = false := decide_eq_false (Nat.not_lt.mpr total_le)
  have nested := (inv.encSettled (.inl active)).narrow_nested hn model accepted range
  obtain ⟨l1, h1, p1, k1, w, k2, shiftRun, foldRun, work, overflows⟩ := encodeWork_run inv.pendingFits nested
  obtain ⟨-, -, -, -, -, at_most, -⟩ := runs_double_the_range hn nested shiftRun foldRun
  refine ⟨w.bits, l1, h1, p1, k1, w.low, w.high, w.pend, k2, shiftRun, foldRun, at_most, fun fits => ?completes,
    fun overflow => ⟨bits_eq_nil_of_overflow shiftRun foldRun at_most overflow, ?fails⟩⟩
  case completes => rw [exec_encode_of_work active valid range accepted (work fits), ofBit_eq_ite]
  case fails => exact exec_encode_of_overflow active valid range accepted (overflows overflow)

/-- Settles O29: by `encodeNarrowsAndRenormalises` with the counts of the runs; the E3 iterations alone add to the pending count. -/
theorem encodeCompletes : Obligations.EncodeCompletes := by
  rintro s x inv active valid ⟨e, mem, rfl⟩ total_le room
  have hn := s.params.numbits_range.1
  have model := inv.model valid
  have accepted : tooLarge s.params.numbits s.mdl.total = false := decide_eq_false (Nat.not_lt.mpr total_le)
  have nested := (inv.encSettled (.inl active)).narrow_nested hn model accepted (model.rangeOf_sym mem)
  obtain ⟨bits, l1, h1, p1, k1, l2, h2, p2, k2, shiftRun, foldRun, at_most, completes, -⟩ :=
    encodeNarrowsAndRenormalises s e.sym e inv active valid mem rfl total_le
  obtain ⟨-, -, -, -, settled, -, -⟩ := runs_double_the_range hn nested shiftRun foldRun
  have written := shiftRun.length_add_pending
  have counted := foldRun.pending_eq
  have bounded : p2 ≤ s.enc.pending + s.params.numbits := by
    rcases shiftRun.quiet_or_cleared with ⟨-, kept⟩ | cleared <;> omega
  exact ⟨_, bits, completes (room.mono bounded), rfl, rfl, settled, by omega, bounded⟩

/-! Frame (60_exceptions.md R188). -/

/-- Settles O47: an encoder command's plan writes the encoder at most and transfers at the BitSink alone. -/
theorem encoderCommandsFrame : Obligations.EncoderCommandsFrame := by
  intro i s t is_encoder h
  obtain ⟨p, form, rfl⟩ := exec_form h
  have grown : s.snk <+: p.completed.snk := ⟨_, form.completed_snk.symm⟩
  cases form with
  | answers => exact ⟨rfl, rfl, rfl, rfl, rfl, rfl, rfl, grown, fun _ => ⟨rfl, rfl, rfl⟩⟩
  | einit | encodeFails => exact ⟨rfl, rfl, rfl, rfl, rfl, rfl, rfl, grown, nofun⟩
  | encodeWrites =>
    exact ⟨by simp, by simp, by simp, by simp [transfers_bits], by simp [transfers_bits], by simp, by simp, grown, nofun⟩
  | efinish => exact ⟨rfl, rfl, rfl, rfl, rfl, rfl, rfl, grown, fun _ => ⟨rfl, rfl, rfl⟩⟩
  | buildFails | buildStores | dinit | decodeFails | decodeEmits => simp at is_encoder

/-! Determinism (41_encoder_ops.md R143). -/

/-- The encoder's commands. -/
def EncoderCommand (i : Instr) : Prop := i = .einit ∨ (∃ x, i = .encode x) ∨ i = .efinish

/-- What ENCODE does to the encoder and to SNK and what it answers depends on the constants, the model and the encoder alone. -/
theorem exec_encode_determined (x : Sym) (p : Params) (m : Mdl) (e : Enc) :
    ∃ e' events r, ∀ s : State, s.params = p → s.mdl = m → s.enc = e →
      exec (.encode x) s = .next { s with enc := e', snk := s.snk ++ events, rsp := some r } := by
  by_cases active : e.phase = .active
  case neg =>
    refine ⟨e, [], errorResponse .badPhase, ?_⟩
    rintro s rfl rfl rfl
    rw [List.append_nil, exec_encode_of_not_active x active]
  cases valid : m.valid with
  | false =>
    refine ⟨e, [], errorResponse .noModel, ?_⟩
    rintro s rfl rfl rfl
    rw [List.append_nil, exec_encode_of_noModel x active valid]
  | true =>
  cases range : m.rangeOf x with
  | none =>
    refine ⟨{ e with phase := .fault }, [], errorResponse .unknownSymbol, ?_⟩
    rintro s rfl rfl rfl
    rw [List.append_nil, exec_encode_of_unknownSymbol active valid range]
  | some interval =>
  obtain ⟨cl, ch⟩ := interval
  cases large : tooLarge p.numbits m.total with
  | true =>
    refine ⟨{ e with phase := .fault }, [], errorResponse .precisionExhausted, ?_⟩
    rintro s rfl rfl rfl
    rw [List.append_nil, exec_encode_of_tooLarge active valid range large]
  | false =>
  cases work : encodeWork p e cl ch m.total with
  | none =>
    refine ⟨{ e with phase := .fault }, [], errorResponse .pendingOverflow, ?_⟩
    rintro s rfl rfl rfl
    rw [List.append_nil, exec_encode_of_overflow active valid range large work]
  | some w =>
    refine ⟨{ low := w.low, high := w.high, pending := w.pend, phase := .active }, w.bits.map SnkEvent.ofBit,
      okResponse 0#40 0#40, ?_⟩
    rintro s rfl rfl rfl
    exact exec_encode_of_work active valid range large work

/-- As `exec_encode_determined`, for EFINISH. -/
theorem exec_efinish_determined (e : Enc) :
    ∃ e' events r, ∀ s : State, s.enc = e →
      exec .efinish s = .next { s with enc := e', snk := s.snk ++ events, rsp := some r } := by
  by_cases active : e.phase = .active
  · refine ⟨{ e with phase := .done }, [.w1, .closed], okResponse 0#40 0#40, ?_⟩
    rintro s rfl
    exact exec_efinish_of_active active
  · refine ⟨e, [], errorResponse .badPhase, ?_⟩
    rintro s rfl
    rw [List.append_nil, exec_efinish_of_not_active active]

/-- As `exec_encode_determined`, for every encoder command. -/
theorem exec_encoder_determined {i : Instr} (is_encoder : EncoderCommand i) (p : Params) (m : Mdl) (e : Enc) :
    ∃ e' events r, ∀ s : State, s.params = p → s.mdl = m → s.enc = e →
      exec i s = .next { s with enc := e', snk := s.snk ++ events, rsp := some r } := by
  rcases is_encoder with rfl | ⟨x, rfl⟩ | rfl
  · refine ⟨{ low := 0, high := 2 ^ p.numbits - 1, pending := 0, phase := .active }, [.opened], okResponse 0#40 0#40, ?_⟩
    rintro s rfl - -
    exact einitOpensTheEncoder s
  · exact exec_encode_determined x p m e
  · obtain ⟨e', events, r, run⟩ := exec_efinish_determined e
    exact ⟨e', events, r, fun s _ _ => run s⟩

theorem execAll_cons {i : Instr} {rest : List Instr} {s t u : State} {rs : List (Option Response)} (first : exec i s = .next t)
    (more : execAll rest t = some (u, rs)) : execAll (i :: rest) s = some (u, t.rsp :: rs) := by
  rw [execAll, first]
  simp only [more]

/-- Encoder commands in a row run to the end, and what they append to SNK and answer depends on the constants, the model and the
encoder alone. -/
theorem execAll_encoder_determined (p : Params) (m : Mdl) (is : List Instr) (all : ∀ i ∈ is, EncoderCommand i) (e : Enc) :
    ∃ events rs, ∀ s : State, s.params = p → s.mdl = m → s.enc = e →
      ∃ t, execAll is s = some (t, rs) ∧ t.snk = s.snk ++ events := by
  induction is generalizing e with
  | nil => exact ⟨[], [], fun s _ _ _ => ⟨s, rfl, (List.append_nil _).symm⟩⟩
  | cons i is ih =>
    obtain ⟨e', first, r, step⟩ := exec_encoder_determined (all i (.head _)) p m e
    obtain ⟨events, rs, run⟩ := ih (fun j mem => all j (.tail _ mem)) e'
    refine ⟨first ++ events, some r :: rs, fun s params mdl enc => ?_⟩
    obtain ⟨t, ends, snk⟩ := run { s with enc := e', snk := s.snk ++ first, rsp := some r } params mdl rfl
    exact ⟨t, execAll_cons (step s params mdl enc) ends, by rw [snk, List.append_assoc]⟩

/-- A session opened by EINIT depends on the constants and the model alone, whatever the encoder was before. -/
theorem execAll_einit_determined (p : Params) (m : Mdl) (is : List Instr) (all : ∀ i ∈ is, EncoderCommand i) :
    ∃ events rs, ∀ s : State, s.params = p → s.mdl = m →
      ∃ t, execAll (.einit :: is) s = some (t, rs) ∧ t.snk = s.snk ++ .opened :: events := by
  obtain ⟨events, rs, run⟩ := execAll_encoder_determined p m is all
    { low := 0, high := 2 ^ p.numbits - 1, pending := 0, phase := .active }
  refine ⟨events, some (okResponse 0#40 0#40) :: rs, ?_⟩
  rintro s rfl rfl
  obtain ⟨t, ends, snk⟩ := run
    { s with enc := { low := 0, high := 2 ^ s.params.numbits - 1, pending := 0, phase := .active },
             snk := s.snk ++ [.opened], rsp := some (okResponse 0#40 0#40) } rfl rfl rfl
  exact ⟨t, execAll_cons (einitOpensTheEncoder s) ends, by rw [snk, List.append_assoc]; rfl⟩

/-- The last session is what follows the last OPEN, whatever came before it. -/
theorem lastSession_append_opened (before after : List SnkEvent) :
    lastSession (before ++ .opened :: after) = lastSession after := by
  simp [lastSession]

/-- Settles O55: `execAll_einit_determined` speaks of both runs. -/
theorem encodingIsDeterministic : Obligations.EncodingIsDeterministic := by
  intro s1 s2 syms params mdl
  have all : ∀ i ∈ syms.map (fun x => Instr.encode x) ++ [Instr.efinish], EncoderCommand i := by
    simp [EncoderCommand, or_imp, forall_and]
  obtain ⟨events, rs, run⟩ := execAll_einit_determined s1.params s1.mdl _ all
  obtain ⟨t1, ends1, snk1⟩ := run s1 rfl rfl
  obtain ⟨t2, ends2, snk2⟩ := run s2 params.symm mdl.symm
  refine ⟨t1, t2, rs, ends1, ends2, ?stream, ?grown⟩
  case stream => rw [sessionStream, sessionStream, snk1, snk2, lastSession_append_opened, lastSession_append_opened]
  case grown => rw [snk1, snk2, List.drop_left, List.drop_left]

end Sys2Proof.Machine
end

section
/-! SUPPORT. The decoder commands DINIT, DECODE (42_decoder_ops.md). -/

namespace Sys2Proof.Machine

/-! The value computation (42_decoder_ops.md R162). -/

/-- The value reaches `cl` exactly when the code is not below the narrowed interval. -/
theorem le_decodeValue_iff {low high code total : Nat} (cl ch : Nat) (low_code : low ≤ code) (total_pos : 0 < total) :
    cl ≤ decodeValue low high code total ↔ (narrow low high cl ch total).1 ≤ code := by
  have scaled_pos : 0 < (code - low + 1) * total := Nat.mul_pos (Nat.succ_pos _) total_pos
  have starts : cl * (high - low + 1) / total < code - low + 1 ↔ cl * (high - low + 1) < (code - low + 1) * total :=
    Nat.div_lt_iff_lt_mul total_pos
  have range_pos : 0 < high - low + 1 := Nat.succ_pos _
  rw [decodeValue, Nat.le_div_iff_mul_le range_pos]
  simp only [narrow]
  omega

/-- The value stays below `ch` exactly when the code is not above the narrowed interval. The range is at least the total, so that an
entry that is not empty has a value of its own and 1 can be subtracted. -/
theorem decodeValue_lt_iff {low high code total ch : Nat} (cl : Nat) (low_code : low ≤ code) (total_pos : 0 < total)
    (ch_pos : 0 < ch) (enough : total ≤ high - low + 1) :
    decodeValue low high code total < ch ↔ code ≤ (narrow low high cl ch total).2 := by
  have scaled_pos : 0 < (code - low + 1) * total := Nat.mul_pos (Nat.succ_pos _) total_pos
  have own_value : 0 < ch * (high - low + 1) / total :=
    Nat.div_pos (enough.trans (Nat.le_mul_of_pos_left _ ch_pos)) total_pos
  have ends : code - low + 1 ≤ ch * (high - low + 1) / total ↔ (code - low + 1) * total ≤ ch * (high - low + 1) :=
    Nat.le_div_iff_mul_le total_pos
  have range_pos : 0 < high - low + 1 := Nat.succ_pos _
  rw [decodeValue, Nat.div_lt_iff_lt_mul range_pos]
  simp only [narrow]
  omega

/-- Settles O25: each end of the entry separately, by `le_decodeValue_iff` and `decodeValue_lt_iff`. -/
theorem valueInvertsNarrow : Obligations.ValueInvertsNarrow := by
  intro low code high cl ch total low_code code_high nonempty within enough
  have total_pos : 0 < total := by omega
  have ch_pos : 0 < ch := by omega
  exact ⟨decodeValue_lt code_high total_pos,
    and_congr (le_decodeValue_iff cl ch low_code total_pos) (decodeValue_lt_iff cl low_code total_pos ch_pos enough)⟩

/-! DECODE (42_decoder_ops.md R161): one lemma per arm that answers a symbol. -/

section Accepted
variable {s : State} (active : s.dec.phase = .active) (valid : s.mdl.valid = true)
  (accepted : tooLarge s.params.numbits s.mdl.total = false)
include active valid accepted

theorem exec_decode_of_sentinel
    (found : s.mdl.symbolAt (decodeValue s.dec.low s.dec.high s.dec.code s.mdl.total.toNat) = some eos) :
    exec .decode s = .next { s with rsp := some (okResponse 256#40 0#40) } := by
  have plan : planDecode s = .next (answer s (symData eos) 0#40) := by
    rw [planDecode, if_neg (not_not_intro active), if_neg (ne_false_of_eq_true valid), if_neg (ne_true_of_eq_false accepted),
      found]
    exact if_pos rfl
  exact congrArg complete plan

theorem exec_decode_of_symbol {x : Sym} {cl ch : Cum}
    (found : s.mdl.symbolAt (decodeValue s.dec.low s.dec.high s.dec.code s.mdl.total.toNat) = some x)
    (not_eos : x ≠ 256#9) (range : s.mdl.rangeOf x = some (cl, ch)) {w : DecWork}
    (work : decodeWork s.params.numbits s.dec s.src cl ch s.mdl.total = w) :
    exec .decode s =
      .next { s with dec := { low := w.low, high := w.high, code := w.code, phase := .active }, src := s.src.drop w.reads,
                     symout := s.symout ++ [.sym x], rsp := some (okResponse (BitVec.ofNat 40 x.toNat) 0#40) } := by
  have plan : planDecode s =
      .next { regs := { s with dec := { low := w.low, high := w.high, code := w.code, phase := .active } },
              xfers := .sym (.sym x) :: List.replicate w.reads .srcRead,
              rsp := okResponse (BitVec.ofNat 40 x.toNat) 0#40 } := by
    rw [planDecode, if_neg (not_not_intro active), if_neg (ne_false_of_eq_true valid), if_neg (ne_true_of_eq_false accepted),
      found]
    simp only [not_eos, range, work, active, if_false]
    rfl
  rw [exec_eq_complete, planOf, plan, complete, Plan.completed, transfers_cons, transfers_reads]
  rfl

end Accepted

/-- Settles O34: the code lies in the interval, so that some entry holds the value (`decodeValue_lt`); DECODE answers its symbol, and
every command that completes keeps the invariants. -/
theorem decodeIsTotal : Obligations.DecodeIsTotal := by
  intro s inv active valid total_le
  have model := inv.model valid
  have accepted : tooLarge s.params.numbits s.mdl.total = false := decide_eq_false (Nat.not_lt.mpr total_le)
  obtain ⟨x, found⟩ := model.symbolAt_of_lt (decodeValue_lt (inv.decInside active).2 model.positive)
  obtain ⟨e, mem, rfl, -⟩ := symbolAt_eq_some found
  suffices answers : ∃ t, exec .decode s = .next t ∧ t.rsp = some (okResponse (BitVec.ofNat 40 e.sym.toNat) 0#40) ∧
      t.dec.phase = .active ∧ t.mdl = s.mdl ∧ t.params = s.params by
    obtain ⟨t, run, rsp, active', mdl, params⟩ := answers
    obtain ⟨p, form, rfl⟩ := exec_form run
    exact ⟨_, e, run, mem, rsp, form.completed_inv inv, active', mdl, params⟩
  by_cases is_eos : e.sym = eos
  · rw [is_eos] at found ⊢
    exact ⟨_, exec_decode_of_sentinel active valid accepted found, rfl, active, rfl, rfl⟩
  · obtain ⟨cl, ch, range⟩ := rangeOf_of_mem mem
    exact ⟨_, exec_decode_of_symbol active valid accepted found is_eos range rfl, rfl, rfl, rfl, rfl⟩

/-- Settles O32: the entry that holds the value is the sentinel's, and the answer is no part of what DECODE reads. -/
theorem decodeAnswersTheSentinel : Obligations.DecodeAnswersTheSentinel := by
  intro s e inv active valid total_le mem is_eos above below
  have accepted : tooLarge s.params.numbits s.mdl.total = false := decide_eq_false (Nat.not_lt.mpr total_le)
  have found := (inv.model valid).symbolAt_of_mem mem ⟨above, below⟩
  rw [is_eos] at found
  exact ⟨exec_decode_of_sentinel active valid accepted found,
    exec_decode_of_sentinel (s := { s with rsp := some (okResponse 256#40 0#40) }) active valid accepted found⟩

/-- Settles O48: a decoder command's plan writes the decoder at most, makes at most one transfer at the symbol port and otherwise reads. -/
theorem decoderCommandsFrame : Obligations.DecoderCommandsFrame := by
  intro i s t is_decoder h
  obtain ⟨p, form, rfl⟩ := exec_form h
  cases form with
  | answers | decodeFails => exact ⟨rfl, rfl, rfl, rfl, rfl, rfl, .inl rfl, 0, rfl⟩
  | dinit =>
    rw [Plan.completed, transfers_append, transfers_reads]
    exact ⟨rfl, rfl, rfl, rfl, rfl, rfl, .inr ⟨_, rfl⟩, _, rfl⟩
  | decodeEmits =>
    rw [Plan.completed, transfers_cons, transfers_reads]
    exact ⟨rfl, rfl, rfl, rfl, rfl, rfl, .inr ⟨_, rfl⟩, _, rfl⟩
  | buildFails | buildStores | einit | encodeFails | encodeWrites | efinish => simp at is_decoder

end Sys2Proof.Machine
end

section
/-! SUPPORT. No run of the block stops (42_decoder_ops.md R167, 60_exceptions.md R180). -/

namespace Sys2Proof.Machine

/-- A reset during a command needs only the command's plan, which exists in the invariants. -/
theorem resetDuringCommand_completes {s : State} (inv : s.Inv) (k : Nat) : ∃ t, resetDuringCommand k s = .next t := by
  unfold resetDuringCommand
  split
  case h_2 i rest _ =>
    obtain ⟨p, planned⟩ := planOf_completes (s := { s with port := rest }) (inv.of_registers rfl rfl rfl rfl) i
    exact ⟨_, abandon_eq_next.mpr ⟨p, planned, rfl⟩⟩
  all_goals exact ⟨_, rfl⟩

/-- From the invariants every step answers a next state, but for a BUILD that waits. -/
theorem step_completes_or_waits {s : State} (inv : s.Inv) :
    (∃ t, step s = .next t) ∨ ∃ rest, fetch s.port = .waiting rest ∧ step s = waitForEntries s rest := by
  have inv_at (port : List HostMove) : State.Inv { s with port := port } := inv.of_registers rfl rfl rfl rfl
  unfold step
  split
  case h_1 => exact .inl ⟨_, rfl⟩
  case h_2 => exact .inl ⟨_, rfl⟩
  case h_3 => exact .inl ⟨_, rfl⟩
  case h_4 k rest _ => exact .inl (resetDuringCommand_completes (inv_at rest) k)
  case h_5 w rest port =>
    rw [port]
    split
    case h_1 => exact .inl ⟨_, rfl⟩
    case h_2 i rest' _ => exact .inl (exec_completes (inv_at rest') i)
    case h_3 => exact .inl ⟨_, rfl⟩
    case h_4 rest' waiting => exact .inr ⟨rest', waiting, rfl⟩

theorem waitForEntries_ne_refused (s : State) (rest : List HostMove) (r : Refusal) : waitForEntries s rest ≠ .refused r := by
  unfold waitForEntries
  split <;> exact nofun

/-- The one stop of a BUILD that waits is the host's LoadSource (log 6). -/
theorem waitForEntries_eq_fault {s : State} {rest : List HostMove} {r : Fault} (h : waitForEntries s rest = .fault r) :
    r = .sourceLoadedWhileBusy := by
  unfold waitForEntries at h
  split at h <;> cases h
  rfl

/-- Settles O52: by `step_completes_or_waits` only a BUILD that waits can stop, and it does so by its one fault. -/
theorem stepNeverStops : Obligations.StepNeverStops := by
  intro s inv
  rcases step_completes_or_waits inv with ⟨t, completes⟩ | ⟨rest, waiting, waits⟩
  · rw [completes]
    exact ⟨nofun, nofun⟩
  · rw [waits]
    exact ⟨waitForEntries_ne_refused s rest, fun r stops => ⟨waitForEntries_eq_fault stops, rest, waiting⟩⟩

end Sys2Proof.Machine
end

section
/-! SUPPORT. DINIT and the loops of DECODE in numbers (42_decoder_ops.md R160, R161, R164, R165). -/

namespace Sys2Proof.Machine

/-! The first bits of a stream as a number (20_memory.md R56, R57). -/

/-- The first `k` bits of a stream as a number, the first bit on top, bits past the end being 0. -/
def leadingBits : Nat → List Bool → Nat
  | 0, _ => 0
  | k + 1, stream => (stream.headD false).toNat * 2 ^ k + leadingBits k stream.tail

theorem leadingBits_lt (k : Nat) (stream : List Bool) : leadingBits k stream < 2 ^ k := by
  induction k generalizing stream with
  | zero => exact Nat.one_pos
  | succ k ih =>
    have top : (stream.headD false).toNat * 2 ^ k ≤ 1 * 2 ^ k := Nat.mul_le_mul_right _ (Bool.toNat_le _)
    have rest := ih stream.tail
    rw [leadingBits, Nat.pow_succ]
    omega

/-- One bit more is shifted in at the bottom. -/
theorem leadingBits_succ (k : Nat) (stream : List Bool) :
    leadingBits (k + 1) stream = 2 * leadingBits k stream + ((stream.drop k).headD false).toNat := by
  induction k generalizing stream with
  | zero => simp [leadingBits]
  | succ k ih =>
    rw [leadingBits, ih, leadingBits, List.drop_tail, Nat.pow_succ]
    ring

theorem testBit_leadingBits {k j : Nat} (stream : List Bool) (hj : j < k) :
    (leadingBits k stream).testBit (k - 1 - j) = stream[j]?.getD false := by
  induction k generalizing stream j with
  | zero => simp at hj
  | succ k ih =>
    rw [leadingBits, Nat.mul_comm, Nat.testBit_two_pow_mul_add _ (leadingBits_lt k _)]
    cases j with
    | zero =>
      cases stream with
      | nil => simp
      | cons b stream => cases b <;> simp
    | succ j =>
      have below : k + 1 - 1 - (j + 1) = k - 1 - j := by omega
      rw [below, if_pos (by omega), ih _ (by omega)]
      cases stream <;> simp

/-- DINIT's reads shift the first bits of SRC into the code, as long as they fit. -/
theorem fillCode_eq {n : Nat} (k code : Nat) (src : List Bool) (room : (code + 1) * 2 ^ k ≤ 2 ^ n) :
    fillCode n k code src = code * 2 ^ k + leadingBits k src := by
  induction k generalizing code src with
  | zero => simp [fillCode, leadingBits]
  | succ k ih =>
    have twice : (2 * code + 2) * 2 ^ k ≤ 2 ^ n := by
      calc (2 * code + 2) * 2 ^ k = (code + 1) * 2 ^ (k + 1) := by ring
        _ ≤ 2 ^ n := room
    have fits : 2 * code < 2 ^ n := (Nat.lt_add_of_pos_right (by decide)).trans_le
      ((Nat.le_mul_of_pos_right _ (Nat.two_pow_pos k)).trans twice)
    have bit := Bool.toNat_le (src.headD false)
    rw [fillCode, srcRead_fst, srcRead_snd, shl_eq, Nat.mod_eq_of_lt fits, two_mul_or_bit,
      ih _ _ ((Nat.mul_le_mul_right _ (by omega)).trans twice), leadingBits]
    ring

theorem exec_dinit (s : State) :
    exec .dinit s =
      .next { s with dec := { low := 0, high := mask s.params.numbits, code := leadingBits s.params.numbits s.src,
                              phase := .active },
                     src := s.src.drop s.params.numbits, symout := s.symout ++ [.opened],
                     rsp := some (okResponse 0#40 0#40) } := by
  have code := fillCode_eq (n := s.params.numbits) s.params.numbits 0 s.src (by simp)
  rw [Nat.zero_mul, Nat.zero_add] at code
  rw [exec_eq_complete, planOf, planDinit, complete, Plan.completed, transfers_append, transfers_reads, code]
  rfl

/-- Settles O31: DINIT's reads are `exec_dinit`, and the bits of the code are `testBit_leadingBits`. -/
theorem dinitFillsTheCode : Obligations.DinitFillsTheCode := fun s =>
  ⟨_, exec_dinit s, leadingBits_lt _ _, fun _ => testBit_leadingBits s.src⟩

/-! The iterations of DECODE in numbers (42_decoder_ops.md R164, R165). -/

/-- An E1 iteration: the interval and the code in the lower half. -/
theorem decShift_of_lower {n : Nat} (hn : 1 ≤ n) {w : DecWork} (inside : w.Inside n) (hl : w.low < half n) (hh : w.high < half n) :
    decShift n w = { low := 2 * w.low, high := 2 * w.high + 1, code := 2 * w.code + (w.src.headD false).toNat,
                     src := w.src.tail, reads := w.reads + 1 } := by
  rw [decShift, shiftLow, shl_of_lower_half hn hl, shiftHigh_of_shl (shl_of_lower_half hn hh),
    shl_of_lower_half hn (inside.code_high.trans_lt hh), two_mul_or_bit, srcRead_fst, srcRead_snd]

/-- An E2 iteration: the interval and the code in the upper half. -/
theorem decShift_of_upper {n : Nat} (hn : 1 ≤ n) {w : DecWork} (inside : w.Inside n) (hl : half n ≤ w.low) (hh : half n ≤ w.high) :
    decShift n w = { low := 2 * (w.low - half n), high := 2 * (w.high - half n) + 1,
                     code := 2 * (w.code - half n) + (w.src.headD false).toNat, src := w.src.tail, reads := w.reads + 1 } := by
  rw [decShift, shiftLow, shl_of_upper_half hn hl inside.nested.low_mask,
    shiftHigh_of_shl (shl_of_upper_half hn hh inside.high_mask),
    shl_of_upper_half hn (hl.trans inside.low_code) (inside.code_high.trans inside.high_mask), two_mul_or_bit, srcRead_fst,
    srcRead_snd]

/-- An E3 iteration: the interval and the code in the middle quarters. -/
theorem decFold_of_quarters {n : Nat} {w : DecWork} (inside : w.Inside n) (hq : quarter n ≤ w.low) (hl : w.low < half n)
    (hh : half n ≤ w.high) (ht : w.high < 3 * quarter n) :
    decFold n w = { low := 2 * (w.low - quarter n), high := 2 * (w.high - quarter n) + 1,
                    code := 2 * (w.code - quarter n) + (w.src.headD false).toNat, src := w.src.tail, reads := w.reads + 1 } := by
  have hn : 2 ≤ n := two_le_of_quarter_pos (by omega)
  rw [decFold, foldLow, fold_of_second_quarter hn hq hl, foldHigh_eq hn hh ht,
    foldCode_eq hn (hq.trans inside.low_code) (inside.code_high.trans_lt ht), srcRead_fst, srcRead_snd]

theorem decShiftLoop_succ {n k : Nat} {w : DecWork} (top : topEq n w.low w.high = true) :
    decShiftLoop n (k + 1) w = decShiftLoop n k (decShift n w) := if_pos top

theorem decFoldLoop_succ {n k : Nat} {w : DecWork} (straddles : straddle n w.low w.high = true) :
    decFoldLoop n (k + 1) w = decFoldLoop n k (decFold n w) := if_pos straddles

theorem decShiftLoop_of_stop {n : Nat} {w : DecWork} (stop : ¬ topEq n w.low w.high = true) (k : Nat) :
    decShiftLoop n k w = w := by
  cases k with
  | zero => rfl
  | succ k => exact if_neg stop

theorem decFoldLoop_of_stop {n : Nat} {w : DecWork} (stop : ¬ straddle n w.low w.high = true) (k : Nat) :
    decFoldLoop n k w = w := by
  cases k with
  | zero => rfl
  | succ k => exact if_neg stop

/-- A run of the E1/E2 loop in numbers is the one DECODE's loop makes, with a limit that does not cut it short. -/
theorem decShiftLoop_of_run {n low high code l h c k limit reads : Nat} {src src' : List Bool} (hn : 1 ≤ n)
    (run : DecShiftRun n low high code src l h c src' k) (inside : DecWork.Inside n ⟨low, high, code, src, reads⟩)
    (enough : k ≤ limit) : decShiftLoop n limit ⟨low, high, code, src, reads⟩ = ⟨l, h, c, src', reads + k⟩ := by
  induction run generalizing limit reads with
  | stop differ =>
    exact decShiftLoop_of_stop ((topEq_iff hn inside.nested.low_mask inside.high_mask).not.mpr differ) limit
  | @e1 low high code l h c k src src' hl hh more ih =>
    obtain ⟨limit, rfl⟩ := Nat.exists_eq_succ_of_ne_zero (by omega : limit ≠ 0)
    have top := (topEq_iff hn inside.nested.low_mask inside.high_mask).mpr (iff_of_true hl hh)
    have inside' := inside.shift hn top
    rw [decShift_of_lower hn inside hl hh] at inside'
    rw [decShiftLoop_succ top, decShift_of_lower hn inside hl hh, ih inside' (by omega), Nat.add_right_comm, Nat.add_assoc]
  | @e2 low high code l h c k src src' hl hh more ih =>
    obtain ⟨limit, rfl⟩ := Nat.exists_eq_succ_of_ne_zero (by omega : limit ≠ 0)
    have top := (topEq_iff hn inside.nested.low_mask inside.high_mask).mpr (iff_of_false hl.not_gt hh.not_gt)
    have inside' := inside.shift hn top
    rw [decShift_of_upper hn inside hl hh] at inside'
    rw [decShiftLoop_succ top, decShift_of_upper hn inside hl hh, ih inside' (by omega), Nat.add_right_comm, Nat.add_assoc]

/-- A run of the E3 loop in numbers is the one DECODE's loop makes, with a limit that does not cut it short. -/
theorem decFoldLoop_of_run {n low high code l h c k limit reads : Nat} {src src' : List Bool}
    (run : DecFoldRun n low high code src l h c src' k) (inside : DecWork.Inside n ⟨low, high, code, src, reads⟩)
    (enough : k ≤ limit) : decFoldLoop n limit ⟨low, high, code, src, reads⟩ = ⟨l, h, c, src', reads + k⟩ := by
  induction run generalizing limit reads with
  | stop ends =>
    exact decFoldLoop_of_stop ((straddle_iff_quarters inside.nested.low_mask inside.high_mask).not.mpr ends) limit
  | @e3 low high code l h c k src src' hq hl hh ht more ih =>
    obtain ⟨limit, rfl⟩ := Nat.exists_eq_succ_of_ne_zero (by omega : limit ≠ 0)
    have straddles := (straddle_iff_quarters inside.nested.low_mask inside.high_mask).mpr ⟨hq, hl, hh, ht⟩
    have inside' := inside.fold ⟨hl, hh, inside.high_mask⟩ straddles
    rw [decFold_of_quarters inside hq hl hh ht] at inside'
    rw [decFoldLoop_succ straddles, decFold_of_quarters inside hq hl hh ht, ih inside' (by omega), Nat.add_right_comm,
      Nat.add_assoc]

/-! What the decoder reads of a stream the encoder writes. -/

/-- What `pend` E3 iterations have taken off the code by the time their bits come: each of them a half of the interval, doubled by
every later iteration. -/
def pendingOffset (n pend : Nat) : Nat := (2 ^ pend - 1) * half n

theorem pendingOffset_zero (n : Nat) : pendingOffset n 0 = 0 := Nat.zero_mul _

theorem pendingOffset_add_half (n pend : Nat) : pendingOffset n pend + half n = 2 ^ pend * half n := by
  rw [pendingOffset, ← Nat.succ_mul, Nat.succ_eq_add_one, Nat.sub_add_cancel Nat.one_le_two_pow]

theorem pendingOffset_succ (n pend : Nat) : pendingOffset n (pend + 1) = 2 * pendingOffset n pend + half n := by
  have now := pendingOffset_add_half n pend
  have next := pendingOffset_add_half n (pend + 1)
  rw [Nat.pow_succ, Nat.mul_right_comm] at next
  omega

/-- The decoder stands where the encoder does that has `pend` bits pending and writes `stream` from here on: but for the folds its code
is the first bits of that stream, and SRC is the rest. -/
structure Aligned (n pend : Nat) (stream : List Bool) (code : Nat) (src : List Bool) : Prop where
  window : code + pendingOffset n pend = leadingBits (n + pend) stream
  rest : src = stream.drop (n + pend)

/-- With no bit pending the code is the first bits of the stream. -/
theorem aligned_leadingBits (n : Nat) (stream : List Bool) :
    Aligned n 0 stream (leadingBits n stream) (stream.drop n) := ⟨by rw [pendingOffset_zero]; rfl, rfl⟩

/-- The next bit the decoder reads is the stream's. -/
theorem Aligned.leadingBits_succ {n pend code : Nat} {stream src : List Bool} (h : Aligned n pend stream code src) :
    leadingBits (n + pend + 1) stream = 2 * (code + pendingOffset n pend) + (src.headD false).toNat := by
  rw [Machine.leadingBits_succ, h.window, h.rest]

theorem leadingBits_replicate_append (p k : Nat) (b : Bool) (rest : List Bool) :
    leadingBits (k + p) (List.replicate p b ++ rest) = b.toNat * ((2 ^ p - 1) * 2 ^ k) + leadingBits k rest := by
  induction p with
  | zero => simp
  | succ p ih =>
    have split : (2 : Nat) ^ (p + 1) - 1 = 2 ^ p + (2 ^ p - 1) := by
      have := Nat.one_le_two_pow (n := p)
      rw [Nat.pow_succ]
      omega
    rw [List.replicate_succ, List.cons_append, ← Nat.add_assoc, leadingBits, List.headD_cons, List.tail_cons, ih, split]
    ring

/-- A bit and the pending bits after it, at the front of the stream. -/
theorem leadingBits_written {n : Nat} (hn : 1 ≤ n) (pend : Nat) (b : Bool) (rest : List Bool) :
    leadingBits (n + pend + 1) ((b :: List.replicate pend (!b)) ++ rest) =
      2 * pendingOffset n pend + b.toNat * 2 ^ n + leadingBits n rest := by
  have offset : 2 * pendingOffset n pend = (2 ^ pend - 1) * 2 ^ n := by
    rw [pendingOffset, ← two_half hn]
    ring
  have whole : 2 ^ (n + pend) = (2 ^ pend - 1) * 2 ^ n + 2 ^ n := by
    rw [← Nat.succ_mul, Nat.succ_eq_add_one, Nat.sub_add_cancel Nat.one_le_two_pow, Nat.pow_add, Nat.mul_comm]
  rw [List.cons_append, leadingBits, List.headD_cons, List.tail_cons, leadingBits_replicate_append, offset, whole]
  cases b <;> simp

/-- An E1/E2 iteration of the encoder writes a bit and the pending ones; the decoder's next code is the first bits of what follows. -/
theorem Aligned.next_code {n pend code : Nat} {b : Bool} {rest src : List Bool} (hn : 1 ≤ n)
    (h : Aligned n pend ((b :: List.replicate pend (!b)) ++ rest) code src) :
    2 * code + (src.headD false).toNat = b.toNat * 2 ^ n + leadingBits n rest ∧ src.tail = rest.drop n := by
  constructor
  · have read := h.leadingBits_succ
    have written := leadingBits_written hn pend b rest
    omega
  · have front : n + pend + 1 = (b :: List.replicate pend (!b)).length + n := by
      simp only [List.length_cons, List.length_replicate]
      omega
    rw [h.rest, List.tail_drop, front, List.drop_length_add_append]

/-- An E1 iteration keeps the decoder aligned. -/
theorem Aligned.e1 {n pend code : Nat} {rest src : List Bool} (hn : 1 ≤ n)
    (h : Aligned n pend ((false :: List.replicate pend true) ++ rest) code src) :
    Aligned n 0 rest (2 * code + (src.headD false).toNat) src.tail := by
  obtain ⟨code_eq, src_eq⟩ := Aligned.next_code (b := false) hn h
  rw [Bool.toNat_false, Nat.zero_mul, Nat.zero_add] at code_eq
  rw [code_eq, src_eq]
  exact aligned_leadingBits n rest

/-- An E2 iteration keeps the decoder aligned. -/
theorem Aligned.e2 {n pend code : Nat} {rest src : List Bool} (hn : 1 ≤ n)
    (h : Aligned n pend ((true :: List.replicate pend false) ++ rest) code src) :
    Aligned n 0 rest (2 * (code - half n) + (src.headD false).toNat) src.tail := by
  obtain ⟨code_eq, src_eq⟩ := Aligned.next_code (b := true) hn h
  have bit := Bool.toNat_le (src.headD false)
  have hpow := two_half hn
  rw [Bool.toNat_true, Nat.one_mul] at code_eq
  have shifted : 2 * (code - half n) + (src.headD false).toNat = leadingBits n rest := by omega
  rw [shifted, src_eq]
  exact aligned_leadingBits n rest

/-- An E3 iteration keeps the decoder aligned: the encoder writes nothing and counts a pending bit more. -/
theorem Aligned.e3 {n pend code : Nat} {stream src : List Bool} (hn : 2 ≤ n) (hq : quarter n ≤ code)
    (h : Aligned n pend stream code src) :
    Aligned n (pend + 1) stream (2 * (code - quarter n) + (src.headD false).toNat) src.tail := by
  have h2q := two_quarter hn
  have read := h.leadingBits_succ
  refine ⟨?_, by rw [h.rest, List.tail_drop, Nat.add_assoc]⟩
  rw [pendingOffset_succ, ← Nat.add_assoc n pend 1, read]
  omega

/-- Beside the encoder's E1/E2 loop runs the decoder's, from any code of the interval: the code stays inside, and a decoder that stands
where the encoder does goes on to do so. -/
theorem ShiftRun.decShiftRun {n low high pend l h p k code : Nat} {bits src : List Bool} (hn : 1 ≤ n)
    (run : ShiftRun n low high pend bits l h p k) (low_code : low ≤ code) (code_high : code ≤ high) :
    ∃ c, DecShiftRun n low high code src l h c (src.drop k) k ∧ l ≤ c ∧ c ≤ h ∧
      ∀ rest, Aligned n pend (bits ++ rest) code src → Aligned n p rest c (src.drop k) := by
  induction run generalizing code src with
  | stop differ => exact ⟨code, .stop differ, low_code, code_high, fun _ aligned => aligned⟩
  | @e1 low high pend l h p k bits hl hh more ih =>
    have bit := Bool.toNat_le (src.headD false)
    obtain ⟨c, run, low_c, c_high, keeps⟩ :=
      ih (code := 2 * code + (src.headD false).toNat) (src := src.tail) (by omega) (by omega)
    rw [List.drop_tail] at run keeps
    refine ⟨c, .e1 hl hh run, low_c, c_high, fun rest aligned => keeps rest ?_⟩
    rw [List.append_assoc] at aligned
    exact aligned.e1 hn
  | @e2 low high pend l h p k bits hl hh more ih =>
    have bit := Bool.toNat_le (src.headD false)
    obtain ⟨c, run, low_c, c_high, keeps⟩ :=
      ih (code := 2 * (code - half n) + (src.headD false).toNat) (src := src.tail) (by omega) (by omega)
    rw [List.drop_tail] at run keeps
    refine ⟨c, .e2 hl hh run, low_c, c_high, fun rest aligned => keeps rest ?_⟩
    rw [List.append_assoc] at aligned
    exact aligned.e2 hn

/-- As `ShiftRun.decShiftRun`, for the E3 loop. -/
theorem FoldRun.decFoldRun {n low high pend l h p k code : Nat} {src : List Bool} (run : FoldRun n low high pend l h p k)
    (low_code : low ≤ code) (code_high : code ≤ high) :
    ∃ c, DecFoldRun n low high code src l h c (src.drop k) k ∧
      ∀ stream, Aligned n pend stream code src → Aligned n p stream c (src.drop k) := by
  induction run generalizing code src with
  | stop ends => exact ⟨code, .stop ends, fun _ aligned => aligned⟩
  | @e3 low high pend l h p k hq hl hh ht more ih =>
    have bit := Bool.toNat_le (src.headD false)
    obtain ⟨c, run, keeps⟩ :=
      ih (code := 2 * (code - quarter n) + (src.headD false).toNat) (src := src.tail) (by omega) (by omega)
    rw [List.drop_tail] at run keeps
    exact ⟨c, .e3 hq hl hh ht run, fun stream aligned =>
      keeps stream (aligned.e3 (two_le_of_quarter_pos (by omega)) (hq.trans low_code))⟩

/-- DECODE in numbers, beside an encoder that encodes the same symbol from the same interval: both run the same iterations, and a
decoder that stands where the encoder does goes on to do so. -/
theorem exec_decode_of_runs {s : State} {x : Sym} {cl ch : Cum} {pend l1 h1 p1 k1 l2 h2 p2 k2 : Nat} {bits : List Bool}
    (active : s.dec.phase = .active) (valid : s.mdl.valid = true) (ok : ModelOk s.mdl)
    (accepted : tooLarge s.params.numbits s.mdl.total = false) (settled : Settled s.params.numbits s.dec.low s.dec.high)
    (low_code : s.dec.low ≤ s.dec.code)
    (found : s.mdl.symbolAt (decodeValue s.dec.low s.dec.high s.dec.code s.mdl.total.toNat) = some x)
    (not_eos : x ≠ 256#9) (range : s.mdl.rangeOf x = some (cl, ch))
    (shiftRun : ShiftRun s.params.numbits (narrow s.dec.low s.dec.high cl.toNat ch.toNat s.mdl.total.toNat).1
      (narrow s.dec.low s.dec.high cl.toNat ch.toNat s.mdl.total.toNat).2 pend bits l1 h1 p1 k1)
    (foldRun : FoldRun s.params.numbits l1 h1 p1 l2 h2 p2 k2) :
    ∃ c1 c2,
      DecShiftRun s.params.numbits (narrow s.dec.low s.dec.high cl.toNat ch.toNat s.mdl.total.toNat).1
        (narrow s.dec.low s.dec.high cl.toNat ch.toNat s.mdl.total.toNat).2 s.dec.code s.src l1 h1 c1 (s.src.drop k1) k1 ∧
      DecFoldRun s.params.numbits l1 h1 c1 (s.src.drop k1) l2 h2 c2 (s.src.drop (k1 + k2)) k2 ∧
      (∀ rest, Aligned s.params.numbits pend (bits ++ rest) s.dec.code s.src →
        Aligned s.params.numbits p2 rest c2 (s.src.drop (k1 + k2))) ∧
      exec .decode s =
        .next { s with dec := { low := l2, high := h2, code := c2, phase := .active }, src := s.src.drop (k1 + k2),
                       symout := s.symout ++ [.sym x], rsp := some (okResponse (BitVec.ofNat 40 x.toNat) 0#40) } := by
  have hn := s.params.numbits_range.1
  have nested := settled.narrow_nested hn ok accepted range
  obtain ⟨-, -, -, -, -, at_most, -⟩ := runs_double_the_range hn nested shiftRun foldRun
  obtain ⟨halves, -⟩ := shiftRun.doubles hn nested
  obtain ⟨above, below⟩ := ok.rangeOf_holds_value found range
  obtain ⟨narrow_code, code_narrow⟩ := narrow_inside low_code ok.positive above below
  obtain ⟨c1, decShiftRun, low_c1, c1_high, keeps1⟩ := shiftRun.decShiftRun (src := s.src) hn narrow_code code_narrow
  obtain ⟨c2, decFoldRun, keeps2⟩ := foldRun.decFoldRun (src := s.src.drop k1) low_c1 c1_high
  rw [List.drop_drop] at decFoldRun keeps2
  have work : decodeWork s.params.numbits s.dec s.src cl ch s.mdl.total = ⟨l2, h2, c2, s.src.drop (k1 + k2), k1 + k2⟩ := by
    rw [decodeWork, decShiftLoop_of_run hn decShiftRun ⟨narrow_code, code_narrow, nested.high_mask⟩ (by omega),
      decFoldLoop_of_run decFoldRun ⟨low_c1, c1_high, halves.high_mask⟩ (by omega), Nat.zero_add]
  exact ⟨c1, c2, decShiftRun, decFoldRun, fun rest aligned => keeps2 rest (keeps1 rest aligned),
    exec_decode_of_symbol active valid accepted found not_eos range work⟩

/-- Settles O33: `exec_decode_of_runs` beside the runs that `encLoops_run` gives from the narrowed interval. -/
theorem decodeNarrowsAndRenormalises : Obligations.DecodeNarrowsAndRenormalises := by
  intro s e inv active valid total_le mem not_eos above below
  have hn := s.params.numbits_range.1
  have model := inv.model valid
  have accepted : tooLarge s.params.numbits s.mdl.total = false := decide_eq_false (Nat.not_lt.mpr total_le)
  have found := model.symbolAt_of_mem mem ⟨above, below⟩
  have range := model.rangeOf_sym mem
  have settled := inv.decSettled active
  have nested := settled.narrow_nested hn model accepted range
  obtain ⟨bits, k1, w2, k2, -, shiftRun, -, foldRun⟩ :=
    encLoops_run hn (w := { low := _, high := _, pend := 0, bits := [] }) nested
  obtain ⟨-, -, -, -, -, at_most, -⟩ := runs_double_the_range hn nested shiftRun foldRun
  obtain ⟨c1, c2, decShiftRun, decFoldRun, -, run⟩ := exec_decode_of_runs active valid model accepted settled
    (inv.decInside active).1 found not_eos range shiftRun foldRun
  exact ⟨_, _, c1, k1, _, _, c2, k2, _, decShiftRun, decFoldRun, at_most, run⟩

end Sys2Proof.Machine
end

section
/-! SUPPORT. The round trip (42_decoder_ops.md R166). The decoder's code lies in the encoder's interval because it does so at the end,
where EFINISH's bit 1 and the zeros after it stand for HALF, and because every iteration of the encoder, taken back, keeps it there. -/

namespace Sys2Proof.Machine

/-! The stream lies in the encoder's interval. -/

/-- The code of a decoder that stands where the encoder does lies in the encoder's interval. -/
def Holds (n low high pend : Nat) (stream : List Bool) : Prop :=
  low + pendingOffset n pend ≤ leadingBits (n + pend) stream ∧ leadingBits (n + pend) stream ≤ high + pendingOffset n pend

theorem Aligned.holds_iff {n low high pend code : Nat} {stream src : List Bool} (h : Aligned n pend stream code src) :
    Holds n low high pend stream ↔ low ≤ code ∧ code ≤ high := by
  rw [Holds, ← h.window]
  omega

theorem Holds.mono {n low high low' high' pend : Nat} {stream : List Bool} (h : Holds n low' high' pend stream) (hl : low ≤ low')
    (hh : high' ≤ high) : Holds n low high pend stream := by
  obtain ⟨above, below⟩ := h
  constructor <;> omega

/-- The first bits before an E1/E2 iteration in terms of those after it. -/
theorem leadingBits_before_written {n : Nat} (hn : 1 ≤ n) (pend : Nat) (b : Bool) (rest : List Bool) :
    ∃ bit ≤ 1, 2 * leadingBits (n + pend) ((b :: List.replicate pend (!b)) ++ rest) + bit =
      2 * pendingOffset n pend + b.toNat * 2 ^ n + leadingBits n rest :=
  ⟨_, Bool.toNat_le _, (leadingBits_succ (n + pend) _).symm.trans (leadingBits_written hn pend b rest)⟩

/-- Taking back the encoder's E1/E2 loop, with the bits it has written. -/
theorem Holds.before_shift {n low high pend l h p k : Nat} {bits rest : List Bool} (hn : 1 ≤ n)
    (run : ShiftRun n low high pend bits l h p k) (ends : Holds n l h p rest) : Holds n low high pend (bits ++ rest) := by
  have hpow := two_half hn
  induction run with
  | stop => exact ends
  | @e1 low high pend l h p k bits hl hh more ih =>
    obtain ⟨above, below⟩ := ih ends
    obtain ⟨bit, bit_le, before⟩ := leadingBits_before_written hn pend false (bits ++ rest)
    simp only [pendingOffset_zero, Nat.add_zero] at above below
    rw [Bool.not_false, Bool.toNat_false] at before
    rw [List.append_assoc]
    constructor <;> omega
  | @e2 low high pend l h p k bits hl hh more ih =>
    obtain ⟨above, below⟩ := ih ends
    obtain ⟨bit, bit_le, before⟩ := leadingBits_before_written hn pend true (bits ++ rest)
    simp only [pendingOffset_zero, Nat.add_zero] at above below
    rw [Bool.not_true, Bool.toNat_true] at before
    rw [List.append_assoc]
    constructor <;> omega

/-- Taking back the encoder's E3 loop. -/
theorem Holds.before_fold {n low high pend l h p k : Nat} {stream : List Bool} (run : FoldRun n low high pend l h p k)
    (ends : Holds n l h p stream) : Holds n low high pend stream := by
  induction run with
  | stop => exact ends
  | @e3 low high pend l h p k hq hl hh ht more ih =>
    obtain ⟨above, below⟩ := ih ends
    have h2q := two_quarter (n := n) (two_le_of_quarter_pos (by omega))
    have read := leadingBits_succ (n + pend) stream
    have bit := Bool.toNat_le ((stream.drop (n + pend)).headD false)
    rw [pendingOffset_succ, ← Nat.add_assoc n pend 1] at above below
    constructor <;> omega

theorem leadingBits_zeros (k zeros : Nat) : leadingBits k (List.replicate zeros false) = 0 := by
  induction k generalizing zeros with
  | zero => rfl
  | succ k ih =>
    cases zeros with
    | zero => simpa [leadingBits] using ih 0
    | succ zeros => simp [leadingBits, List.replicate_succ, ih]

/-- EFINISH's bit 1 with zeros after it stands for HALF, which a renormalised interval holds: the pending bits it leaves undrained are
zeros too (41_encoder_ops.md R142). -/
theorem Settled.holds_finish {n low high : Nat} (hn : 1 ≤ n) (settled : Settled n low high) (pend zeros : Nat) :
    Holds n low high pend (true :: List.replicate zeros false) := by
  have window : leadingBits (n + pend) (true :: List.replicate zeros false) = half n + pendingOffset n pend := by
    obtain ⟨m, rfl⟩ := Nat.exists_eq_add_of_le' hn
    rw [Nat.add_comm (half _), pendingOffset_add_half, Nat.add_right_comm, leadingBits, List.headD_cons, List.tail_cons,
      leadingBits_zeros, half, Nat.add_sub_cancel, Nat.pow_add]
    simp [Nat.mul_comm]
  have aligned : Aligned n pend (true :: List.replicate zeros false) (half n)
    ((true :: List.replicate zeros false).drop (n + pend)) := ⟨window.symm, rfl⟩
  exact aligned.holds_iff.mpr ⟨settled.low_half.le, settled.half_high⟩

/-! The encoder's session in numbers (41_encoder_ops.md R131, R142). -/

/-- The rest of an encoder's session under the model `m` from `low high pend` on: the symbols it encodes, and the bits it writes up to
EFINISH's. -/
inductive SessionRun (n : Nat) (m : Mdl) : Nat → Nat → Nat → List Sym → List Bool → Prop
  | finish (low high pend : Nat) : SessionRun n m low high pend [] [true]
  | symbol {low high pend l1 h1 p1 k1 l2 h2 p2 k2 : Nat} {x : Sym} {cl ch : Cum} {xs : List Sym} {bits written : List Bool}
      (accepted : tooLarge n m.total = false) (range : m.rangeOf x = some (cl, ch))
      (shiftRun : ShiftRun n (narrow low high cl.toNat ch.toNat m.total.toNat).1
        (narrow low high cl.toNat ch.toNat m.total.toNat).2 pend bits l1 h1 p1 k1)
      (foldRun : FoldRun n l1 h1 p1 l2 h2 p2 k2) (more : SessionRun n m l2 h2 p2 xs written) :
      SessionRun n m low high pend (x :: xs) (bits ++ written)

/-- The encoder's interval holds the stream of the whole session, from its beginning on. -/
theorem SessionRun.holds {n low high pend : Nat} {m : Mdl} {xs : List Sym} {written : List Bool} (hn : 1 ≤ n) (ok : ModelOk m)
    (session : SessionRun n m low high pend xs written) (settled : Settled n low high) (zeros : Nat) :
    Holds n low high pend (written ++ List.replicate zeros false) := by
  induction session with
  | finish low high pend => exact settled.holds_finish hn pend zeros
  | @symbol low high pend l1 h1 p1 k1 l2 h2 p2 k2 x cl ch xs bits written accepted range shiftRun foldRun more ih =>
    have nested := settled.narrow_nested hn ok accepted range
    obtain ⟨-, -, -, -, settled', -, -⟩ := runs_double_the_range hn nested shiftRun foldRun
    have narrowed := ((ih settled').before_fold foldRun).before_shift hn shiftRun
    rw [List.append_assoc]
    exact narrowed.mono (le_narrow_low _ _ _ _ _) (narrow_high_le settled.split.nested.ordered (ok.rangeOf_bounds range).2)

theorem execAll_cons_inv {i : Instr} {rest : List Instr} {s u : State} {rs : List (Option Response)}
    (h : execAll (i :: rest) s = some (u, rs)) :
    ∃ t rs', exec i s = .next t ∧ execAll rest t = some (u, rs') ∧ rs = t.rsp :: rs' := by
  rw [execAll] at h
  split at h
  · next t run =>
    split at h
    · next u' rs' more =>
      cases h
      exact ⟨t, rs', run, more, rfl⟩
    · cases h
  · cases h

/-- ENCODE answers OK only when it has narrowed and run its loops. -/
theorem exec_encode_ok {s t : State} {x : Sym} (h : exec (.encode x) s = .next t) (is_ok : t.rsp = some (okResponse 0#40 0#40)) :
    ∃ cl ch w, s.enc.phase = .active ∧ s.mdl.valid = true ∧ s.mdl.rangeOf x = some (cl, ch) ∧
      tooLarge s.params.numbits s.mdl.total = false ∧ encodeWork s.params s.enc cl ch s.mdl.total = some w := by
  rw [exec_eq_complete, complete_eq_next] at h
  obtain ⟨p, planned, rfl⟩ := h
  have answered : p.rsp = okResponse 0#40 0#40 := Option.some.inj is_ok
  rw [planOf, planEncode] at planned
  split at planned
  · cases planned; cases answered
  split at planned
  · cases planned; cases answered
  split at planned
  · cases planned; cases answered
  split at planned
  · cases planned; cases answered
  split at planned
  · cases planned; cases answered
  exact ⟨_, _, _, not_ne_iff.mp ‹_›, eq_true_of_ne_false ‹_›, ‹_›, eq_false_of_ne_true ‹_›, ‹_›⟩

theorem exec_efinish_ok {s t : State} (h : exec .efinish s = .next t) (is_ok : t.rsp = some (okResponse 0#40 0#40)) :
    t.snk = s.snk ++ [.w1, .closed] := by
  by_cases active : s.enc.phase = .active
  · rw [exec_efinish_of_active active] at h
    cases h
    rfl
  · rw [exec_efinish_of_not_active active] at h
    cases h
    cases is_ok

/-- ENCODE's work, when it does not overflow, is the two runs in numbers. -/
theorem encodeWork_runs {p : Params} {e : Enc} {cl ch total : Cum} {w : EncWork}
    (nested : Nested p.numbits (narrow e.low e.high cl.toNat ch.toNat total.toNat).1
      (narrow e.low e.high cl.toNat ch.toNat total.toNat).2) (work : encodeWork p e cl ch total = some w) :
    ∃ l1 h1 p1 k1 k2,
      ShiftRun p.numbits (narrow e.low e.high cl.toNat ch.toNat total.toNat).1
        (narrow e.low e.high cl.toNat ch.toNat total.toNat).2 e.pending w.bits l1 h1 p1 k1 ∧
      FoldRun p.numbits l1 h1 p1 w.low w.high w.pend k2 := by
  obtain ⟨bits, k1, w2, k2, written, shiftRun, ends, foldRun⟩ :=
    encLoops_run p.numbits_range.1
      (w := { low := (narrow e.low e.high cl.toNat ch.toNat total.toNat).1,
              high := (narrow e.low e.high cl.toNat ch.toNat total.toNat).2, pend := e.pending, bits := [] }) nested
  obtain rfl : w = w2 := Option.some.inj ((encFoldLoop_unbounded _ _ w work).symm.trans ends)
  have bits_eq : w.bits = bits := (encFoldLoop_bits ends).trans written
  exact ⟨_, _, _, k1, k2, bits_eq ▸ shiftRun, foldRun⟩

/-- ENCODEs and an EFINISH that are all answered OK are a session in numbers, whose bits stand in SNK. -/
theorem sessionRun_of_execAll (xs : List Sym) {s t : State} {rs : List (Option Response)}
    (run : execAll (xs.map (fun x => Instr.encode x) ++ [Instr.efinish]) s = some (t, rs))
    (all_ok : ∀ r ∈ rs, r = some (okResponse 0#40 0#40)) (ok : ModelOk s.mdl)
    (settled : Settled s.params.numbits s.enc.low s.enc.high) :
    ∃ written, SessionRun s.params.numbits s.mdl s.enc.low s.enc.high s.enc.pending xs written ∧
      t.snk = s.snk ++ (written.map SnkEvent.ofBit ++ [.closed]) := by
  induction xs generalizing s rs with
  | nil =>
    obtain ⟨t', rs', finish, ends, rfl⟩ := execAll_cons_inv run
    cases ends
    exact ⟨[true], .finish _ _ _, exec_efinish_ok finish (all_ok _ (.head _))⟩
  | cons x xs ih =>
    obtain ⟨s', rs', first, more, rfl⟩ := execAll_cons_inv run
    obtain ⟨cl, ch, w, active, valid, range, accepted, work⟩ := exec_encode_ok first (all_ok _ (.head _))
    have hn := s.params.numbits_range.1
    have nested := settled.narrow_nested hn ok accepted range
    obtain ⟨l1, h1, p1, k1, k2, shiftRun, foldRun⟩ := encodeWork_runs nested work
    obtain ⟨-, -, -, -, settled', -, -⟩ := runs_double_the_range hn nested shiftRun foldRun
    rw [exec_encode_of_work active valid range accepted work] at first
    cases first
    obtain ⟨written, session, snk⟩ := ih more (fun r mem => all_ok r (.tail _ mem)) ok settled'
    refine ⟨w.bits ++ written, .symbol accepted range shiftRun foldRun session, ?_⟩
    rw [snk, List.map_append]
    simp only [List.append_assoc]

/-! The decoder follows the session (42_decoder_ops.md R166). -/

/-- A renormalised interval holds as many values as a total the coders accept. -/
theorem Settled.total_le_range {n low high : Nat} {m : Mdl} (hn : 1 ≤ n) (settled : Settled n low high) (ok : ModelOk m)
    (accepted : tooLarge n m.total = false) : m.total.toNat ≤ high - low + 1 := by
  obtain ⟨two_le, total_le⟩ := two_le_of_total_fits hn ok.positive accepted
  exact total_le.trans (settled.quarter_lt_range two_le).le

/-- A code in the interval a symbol narrows to stands for a value of that symbol. -/
theorem ModelOk.symbolAt_of_narrowed {m : Mdl} {x : Sym} {cl ch : Cum} {low high code : Nat} (ok : ModelOk m)
    (range : m.rangeOf x = some (cl, ch)) (enough : m.total.toNat ≤ high - low + 1) (low_code : low ≤ code)
    (narrowed : (narrow low high cl.toNat ch.toNat m.total.toNat).1 ≤ code ∧
      code ≤ (narrow low high cl.toNat ch.toNat m.total.toNat).2) :
    m.symbolAt (decodeValue low high code m.total.toNat) = some x := by
  obtain ⟨e, mem, rfl, rfl, rfl⟩ := rangeOf_eq_some range
  have ch_pos : 0 < e.ch.toNat := (Nat.zero_le _).trans_lt (ok.nonempty e mem)
  exact ok.symbolAt_of_mem mem ⟨(le_decodeValue_iff _ _ low_code ok.positive).mpr narrowed.1,
    (decodeValue_lt_iff _ low_code ok.positive ch_pos enough).mpr narrowed.2⟩

/-- A decoder that stands where the encoder does at the beginning of a session finds the session's first symbol. -/
theorem SessionRun.finds_first {n low high pend code zeros : Nat} {m : Mdl} {x : Sym} {xs : List Sym} {written src : List Bool}
    (hn : 1 ≤ n) (session : SessionRun n m low high pend (x :: xs) written) (ok : ModelOk m) (settled : Settled n low high)
    (aligned : Aligned n pend (written ++ List.replicate zeros false) code src) :
    low ≤ code ∧ m.symbolAt (decodeValue low high code m.total.toNat) = some x := by
  cases session with
  | symbol accepted range shiftRun foldRun more =>
    have nested := settled.narrow_nested hn ok accepted range
    obtain ⟨-, -, -, -, settled', -, -⟩ := runs_double_the_range hn nested shiftRun foldRun
    have narrowed := ((more.holds hn ok settled' zeros).before_fold foldRun).before_shift hn shiftRun
    rw [List.append_assoc] at aligned
    have inside := aligned.holds_iff.mp narrowed
    have low_code := (le_narrow_low _ _ _ _ _).trans inside.1
    exact ⟨low_code, ok.symbolAt_of_narrowed range (settled.total_le_range hn ok accepted) low_code inside⟩

/-- A decoder that stands where the encoder does answers the symbols of the session up to the sentinel, and emits them. -/
theorem SessionRun.decodes {pend zeros : Nat} {syms : List Sym} {written : List Bool} {d : State}
    (session : SessionRun d.params.numbits d.mdl d.dec.low d.dec.high pend (syms ++ [eos]) written)
    (aligned : Aligned d.params.numbits pend (written ++ List.replicate zeros false) d.dec.code d.src)
    (active : d.dec.phase = .active) (valid : d.mdl.valid = true) (ok : ModelOk d.mdl)
    (settled : Settled d.params.numbits d.dec.low d.dec.high) (not_eos : ∀ x ∈ syms, x ≠ 256#9) :
    ∃ u, execAll (List.replicate (syms.length + 1) Instr.decode) d =
        some (u, syms.map (fun x => some (okResponse (BitVec.ofNat 40 x.toNat) 0#40)) ++ [some (okResponse 256#40 0#40)]) ∧
      u.symout = d.symout ++ syms.map (fun x => SymEvent.sym x) := by
  induction syms generalizing pend written d with
  | nil =>
    have hn := d.params.numbits_range.1
    obtain ⟨-, found⟩ := session.finds_first hn ok settled aligned
    cases session with
    | symbol accepted =>
      exact ⟨_, execAll_cons (exec_decode_of_sentinel active valid accepted found) rfl, (List.append_nil _).symm⟩
  | cons x syms ih =>
    have hn := d.params.numbits_range.1
    obtain ⟨low_code, found⟩ := session.finds_first hn ok settled aligned
    cases session with
    | symbol accepted range shiftRun foldRun more =>
      have nested := settled.narrow_nested hn ok accepted range
      obtain ⟨-, -, -, -, settled', -, -⟩ := runs_double_the_range hn nested shiftRun foldRun
      obtain ⟨c1, c2, -, -, keeps, run⟩ := exec_decode_of_runs active valid ok accepted settled low_code found
        (not_eos x (.head _)) range shiftRun foldRun
      rw [List.append_assoc] at aligned
      obtain ⟨u, ends, symout⟩ := ih (d := { d with
          dec := { low := _, high := _, code := c2, phase := .active }, src := _, symout := d.symout ++ [.sym x],
          rsp := some (okResponse (BitVec.ofNat 40 x.toNat) 0#40) })
        more (keeps _ aligned) rfl valid ok settled' (fun y mem => not_eos y (.tail _ mem))
      exact ⟨u, execAll_cons run ends, by rw [symout]; simp⟩

/-! The session's stream (10_state.md R33). -/

theorem lastSession_eq_self {events : List SnkEvent} (unopened : .opened ∉ events) : lastSession events = events := by
  induction events using List.reverseRecOn with
  | nil => rfl
  | append_singleton events e ih =>
    obtain ⟨earlier, last⟩ : SnkEvent.opened ∉ events ∧ ¬ e = .opened := by simpa [eq_comm] using unopened
    have kept := ih earlier
    rw [lastSession] at kept ⊢
    rw [List.foldl_append, kept]
    exact if_neg last

theorem writtenBits_session (bits : List Bool) : writtenBits (bits.map SnkEvent.ofBit ++ [.closed]) = bits := by
  induction bits with
  | nil => rfl
  | cons b bits ih => cases b <;> exact congrArg _ ih

/-- The stream of a session that writes some bits and closes is these bits. -/
theorem sessionStream_of_session (before : List SnkEvent) (bits : List Bool) :
    sessionStream (before ++ .opened :: (bits.map SnkEvent.ofBit ++ [.closed])) = bits := by
  have unopened : SnkEvent.opened ∉ bits.map SnkEvent.ofBit ++ [.closed] := by
    simp [SnkEvent.ofBit]
  rw [sessionStream, lastSession_append_opened, lastSession_eq_self unopened, writtenBits_session]

/-- Settles O56: the encoder's commands are a `SessionRun` from the whole range, whose bits are the stream; DINIT leaves the decoder
where the encoder was after EINIT, and `SessionRun.decodes` follows the session from there. -/
theorem roundTrip : Obligations.RoundTrip := by
  intro s t d rs syms zeros valid ok not_eos run all_ok params mdl src
  have hn := s.params.numbits_range.1
  have commands : [Instr.einit] ++ syms.map (fun x => Instr.encode x) ++ [Instr.encode 256#9, Instr.efinish] =
      Instr.einit :: ((syms ++ [eos]).map (fun x => Instr.encode x) ++ [Instr.efinish]) := by simp
  rw [commands] at run
  obtain ⟨s0, rs', opens, more, rfl⟩ := execAll_cons_inv run
  rw [einitOpensTheEncoder] at opens
  cases opens
  obtain ⟨written, session, snk⟩ :=
    sessionRun_of_execAll (syms ++ [eos]) more (fun r mem => all_ok r (.tail _ mem)) ok (settled_whole hn)
  rw [snk, List.append_assoc, List.singleton_append, sessionStream_of_session] at src
  rw [← params, ← mdl] at session
  have aligned := aligned_leadingBits d.params.numbits d.src
  obtain ⟨u, ends, symout⟩ := SessionRun.decodes (zeros := zeros)
    (d := { d with dec := { low := 0, high := mask d.params.numbits, code := leadingBits d.params.numbits d.src,
                            phase := .active },
                   src := d.src.drop d.params.numbits, symout := d.symout ++ [.opened],
                   rsp := some (okResponse 0#40 0#40) })
    session (src ▸ aligned) rfl (mdl ▸ valid) (mdl ▸ ok) (settled_whole d.params.numbits_range.1) not_eos
  exact ⟨u, execAll_cons (exec_dinit d) ends, symout⟩

end Sys2Proof.Machine
end

section
/-! SUPPORT. The errors of the commands (60_exceptions.md): `ErrorCause` says once which tests make a command raise which error. It is
exact: a command answers an error just where the error has its cause, and then the next state is the one `raise` leaves. -/

namespace Sys2Proof.Machine

/-- The tests that make a command raise an error, those before it in the command's order of tests passed (60_exceptions.md R181 to
R187, R191). -/
inductive ErrorCause (s : State) : Instr → Status → Prop
  | badMapping (es : List EntryWord) (bad : ¬ GoodMapping es) : ErrorCause s (.build es) .invalidModel
  | totalNoModel (noModel : s.mdl.valid = false) : ErrorCause s .total .noModel
  | rangeofNoModel (x : Sym) (noModel : s.mdl.valid = false) : ErrorCause s (.rangeof x) .noModel
  | rangeofUnknown (x : Sym) (valid : s.mdl.valid = true) (absent : ∀ e ∈ s.mdl.entries, e.sym ≠ x) :
      ErrorCause s (.rangeof x) .unknownSymbol
  | symatNoModel (v : Cum) (noModel : s.mdl.valid = false) : ErrorCause s (.symat v) .noModel
  | symatBeyond (v : Cum) (valid : s.mdl.valid = true) (beyond : s.mdl.total.toNat ≤ v.toNat) :
      ErrorCause s (.symat v) .valueOutOfRange
  | encodeInactive (x : Sym) (inactive : s.enc.phase ≠ .active) : ErrorCause s (.encode x) .badPhase
  | encodeNoModel (x : Sym) (active : s.enc.phase = .active) (noModel : s.mdl.valid = false) :
      ErrorCause s (.encode x) .noModel
  | encodeUnknown (x : Sym) (active : s.enc.phase = .active) (valid : s.mdl.valid = true)
      (absent : ∀ e ∈ s.mdl.entries, e.sym ≠ x) : ErrorCause s (.encode x) .unknownSymbol
  | encodeTooLarge (x : Sym) (active : s.enc.phase = .active) (valid : s.mdl.valid = true)
      (present : ∃ e ∈ s.mdl.entries, e.sym = x) (large : quarter s.params.numbits < s.mdl.total.toNat) :
      ErrorCause s (.encode x) .precisionExhausted
  | encodeOverflow (x : Sym) (cl ch : Cum) (active : s.enc.phase = .active) (valid : s.mdl.valid = true)
      (range : s.mdl.rangeOf x = some (cl, ch)) (fits : tooLarge s.params.numbits s.mdl.total = false)
      (overflow : encodeWork s.params s.enc cl ch s.mdl.total = none) : ErrorCause s (.encode x) .pendingOverflow
  | efinishInactive (inactive : s.enc.phase ≠ .active) : ErrorCause s .efinish .badPhase
  | decodeInactive (inactive : s.dec.phase ≠ .active) : ErrorCause s .decode .badPhase
  | decodeNoModel (active : s.dec.phase = .active) (noModel : s.mdl.valid = false) : ErrorCause s .decode .noModel
  | decodeTooLarge (active : s.dec.phase = .active) (valid : s.mdl.valid = true)
      (large : quarter s.params.numbits < s.mdl.total.toNat) : ErrorCause s .decode .precisionExhausted

theorem tooLarge_eq_true_iff {n : Nat} {total : Cum} : tooLarge n total = true ↔ quarter n < total.toNat :=
  decide_eq_true_iff

theorem absent_of_rangeOf_eq_none {m : Mdl} {x : Sym} (unknown : m.rangeOf x = none) : ∀ e ∈ m.entries, e.sym ≠ x := by
  rintro e mem rfl
  obtain ⟨cl, ch, range⟩ := rangeOf_of_mem mem
  cases unknown.symm.trans range

/-! DECODE (42_decoder_ops.md R161): one lemma per arm that answers an error. -/

theorem exec_decode_of_not_active {s : State} (inactive : s.dec.phase ≠ .active) :
    exec .decode s = .next { s with rsp := some (errorResponse .badPhase) } :=
  congrArg complete (if_pos inactive)

theorem exec_decode_of_noModel {s : State} (active : s.dec.phase = .active) (noModel : s.mdl.valid = false) :
    exec .decode s = .next { s with rsp := some (errorResponse .noModel) } := by
  have plan : planDecode s = .next (raise s (some .decode) .noModel) := by
    rw [planDecode, if_neg (not_not_intro active), if_pos noModel]
  exact congrArg complete plan

theorem exec_decode_of_tooLarge {s : State} (active : s.dec.phase = .active) (valid : s.mdl.valid = true)
    (tooLarge : tooLarge s.params.numbits s.mdl.total = true) :
    exec .decode s =
      .next { s with dec := { s.dec with phase := .fault }, rsp := some (errorResponse .precisionExhausted) } := by
  have plan : planDecode s = .next (raise s (some .decode) .precisionExhausted) := by
    rw [planDecode, if_neg (not_not_intro active), if_neg (ne_false_of_eq_true valid), if_pos tooLarge]
  exact congrArg complete plan

/-- A command raises an error that has its cause, with the state change of R188. -/
theorem ErrorCause.exec_eq {s : State} {i : Instr} {st : Status} (cause : ErrorCause s i st) :
    exec i s = .next (raise s (some i.op) st).completed := by
  cases cause with
  | badMapping es bad => exact exec_build_of_not_good bad s
  | totalNoModel noModel => exact exec_total_of_noModel noModel
  | rangeofNoModel x noModel => exact exec_rangeof_of_noModel x noModel
  | rangeofUnknown x valid absent => exact exec_rangeof_of_absent valid absent
  | symatNoModel v noModel => exact exec_symat_of_noModel v noModel
  | symatBeyond v valid beyond => exact exec_symat_of_total_le valid beyond
  | encodeInactive x inactive => exact exec_encode_of_not_active x inactive
  | encodeNoModel x active noModel => exact exec_encode_of_noModel x active noModel
  | encodeUnknown x active valid absent => exact exec_encode_of_unknownSymbol active valid (rangeOf_eq_none absent)
  | encodeTooLarge x active valid present large =>
    obtain ⟨e, mem, rfl⟩ := present
    obtain ⟨cl, ch, range⟩ := rangeOf_of_mem mem
    exact exec_encode_of_tooLarge active valid range (tooLarge_eq_true_iff.mpr large)
  | encodeOverflow x cl ch active valid range fits overflow =>
    exact exec_encode_of_overflow active valid range fits overflow
  | efinishInactive inactive => exact exec_efinish_of_not_active inactive
  | decodeInactive inactive => exact exec_decode_of_not_active inactive
  | decodeNoModel active noModel => exact exec_decode_of_noModel active noModel
  | decodeTooLarge active valid large => exact exec_decode_of_tooLarge active valid (tooLarge_eq_true_iff.mpr large)

/-- A plan that answers OK, or raises an error that has its cause. -/
def OkOrRaises (s : State) (i : Instr) (p : Plan) : Prop :=
  p.rsp.status = .ok ∨ ∃ st, ErrorCause s i st ∧ p = raise s (some i.op) st

theorem ErrorCause.okOrRaises {s : State} {i : Instr} {st : Status} (cause : ErrorCause s i st) :
    OkOrRaises s i (raise s (some i.op) st) := .inr ⟨st, cause, rfl⟩

theorem planBuild_okOrRaises {es : List EntryWord} {s : State} {p : Plan} (h : planBuild es s = .next p) :
    OkOrRaises s (.build es) p := by
  unfold planBuild at h
  split at h <;> cases h
  next bad =>
    have not_good : ¬ GoodMapping es := mt badMapping_eq_false_iff.mpr (ne_false_of_eq_true bad)
    exact (ErrorCause.badMapping es not_good).okOrRaises
  · exact .inl rfl

theorem planTotal_okOrRaises {s : State} {p : Plan} (h : planTotal s = .next p) : OkOrRaises s .total p := by
  unfold planTotal at h
  split at h <;> cases h
  · exact .inl rfl
  next noModel => exact (ErrorCause.totalNoModel (eq_false_of_ne_true noModel)).okOrRaises

theorem planRangeof_okOrRaises {x : Sym} {s : State} {p : Plan} (h : planRangeof x s = .next p) :
    OkOrRaises s (.rangeof x) p := by
  unfold planRangeof at h
  split at h
  next valid =>
    split at h <;> cases h
    next unknown => exact (ErrorCause.rangeofUnknown x valid (absent_of_rangeOf_eq_none unknown)).okOrRaises
    · exact .inl rfl
  next noModel =>
    cases h
    exact (ErrorCause.rangeofNoModel x (eq_false_of_ne_true noModel)).okOrRaises

theorem planSymat_okOrRaises {v : Cum} {s : State} {p : Plan} (h : planSymat v s = .next p) :
    OkOrRaises s (.symat v) p := by
  unfold planSymat at h
  split at h
  next valid =>
    split at h
    next beyond =>
      cases h
      exact (ErrorCause.symatBeyond v valid (BitVec.le_def.mp beyond)).okOrRaises
    · split at h <;> cases h
      exact .inl rfl
  next noModel =>
    cases h
    exact (ErrorCause.symatNoModel v (eq_false_of_ne_true noModel)).okOrRaises

theorem planEncode_okOrRaises {x : Sym} {s : State} {p : Plan} (h : planEncode x s = .next p) :
    OkOrRaises s (.encode x) p := by
  unfold planEncode at h
  split at h
  next inactive => cases h; exact (ErrorCause.encodeInactive x inactive).okOrRaises
  have active : s.enc.phase = .active := not_ne_iff.mp ‹_›
  split at h
  next noModel => cases h; exact (ErrorCause.encodeNoModel x active noModel).okOrRaises
  have valid : s.mdl.valid = true := eq_true_of_ne_false ‹_›
  split at h
  next unknown =>
    cases h
    exact (ErrorCause.encodeUnknown x active valid (absent_of_rangeOf_eq_none unknown)).okOrRaises
  next cl ch range =>
    split at h
    next large =>
      cases h
      obtain ⟨e, mem, is_sym, -⟩ := rangeOf_eq_some range
      exact (ErrorCause.encodeTooLarge x active valid ⟨e, mem, is_sym⟩ (tooLarge_eq_true_iff.mp large)).okOrRaises
    next fits =>
      split at h <;> cases h
      next overflow =>
        exact (ErrorCause.encodeOverflow x cl ch active valid range (eq_false_of_ne_true fits) overflow).okOrRaises
      · exact .inl rfl

theorem planEfinish_okOrRaises {s : State} {p : Plan} (h : planEfinish s = .next p) : OkOrRaises s .efinish p := by
  unfold planEfinish at h
  split at h <;> cases h
  next inactive => exact (ErrorCause.efinishInactive inactive).okOrRaises
  · exact .inl rfl

theorem planDecode_okOrRaises {s : State} {p : Plan} (h : planDecode s = .next p) : OkOrRaises s .decode p := by
  unfold planDecode at h
  split at h
  next inactive => cases h; exact (ErrorCause.decodeInactive inactive).okOrRaises
  have active : s.dec.phase = .active := not_ne_iff.mp ‹_›
  split at h
  next noModel => cases h; exact (ErrorCause.decodeNoModel active noModel).okOrRaises
  have valid : s.mdl.valid = true := eq_true_of_ne_false ‹_›
  split at h
  next large =>
    cases h
    exact (ErrorCause.decodeTooLarge active valid (tooLarge_eq_true_iff.mp large)).okOrRaises
  split at h
  · cases h
  split at h
  · cases h; exact .inl rfl
  split at h <;> cases h
  exact .inl rfl

theorem planOf_okOrRaises {i : Instr} {s : State} {p : Plan} (h : planOf i s = .next p) : OkOrRaises s i p := by
  cases i with
  | build es => exact planBuild_okOrRaises h
  | total => exact planTotal_okOrRaises h
  | rangeof x => exact planRangeof_okOrRaises h
  | symat v => exact planSymat_okOrRaises h
  | einit => cases h; exact .inl rfl
  | encode x => exact planEncode_okOrRaises h
  | efinish => exact planEfinish_okOrRaises h
  | dinit => cases h; exact .inl rfl
  | decode => exact planDecode_okOrRaises h

/-- A command raises only errors that have their cause, and changes what `raise` does. -/
theorem exec_error {i : Instr} {s t : State} {r : Response} (h : exec i s = .next t) (rsp : t.rsp = some r)
    (failed : r.status ≠ .ok) :
    ∃ st, r = errorResponse st ∧ ErrorCause s i st ∧ t = (raise s (some i.op) st).completed := by
  rw [exec_eq_complete, complete_eq_next] at h
  obtain ⟨p, planned, rfl⟩ := h
  cases rsp
  rcases planOf_okOrRaises planned with is_ok | ⟨st, cause, rfl⟩
  · exact absurd is_ok failed
  · exact ⟨st, rfl, cause, rfl⟩

theorem exec_error_of_status {i : Instr} {s t : State} {r : Response} {st : Status} (h : exec i s = .next t)
    (rsp : t.rsp = some r) (status : r.status = st) (failed : st ≠ .ok := by decide) :
    r = errorResponse st ∧ ErrorCause s i st ∧ t = (raise s (some i.op) st).completed := by
  obtain ⟨st', rfl, raised⟩ := exec_error h rsp (status ▸ failed)
  obtain rfl : st' = st := status
  exact ⟨rfl, raised⟩

/-- Settles O16: a mapping that is not good is InvalidModel's only cause. -/
theorem badMappingLeavesNoModel : Obligations.BadMappingLeavesNoModel := by
  refine ⟨fun es s bad => ⟨_, exec_build_of_not_good bad s, rfl, rfl, rfl⟩, fun i s t r h rsp status => ?_⟩
  obtain ⟨-, cause, -⟩ := exec_error_of_status h rsp status
  cases cause with
  | badMapping es bad => exact ⟨es, rfl, bad⟩

/-- Settles O35: five commands have a cause of NoModel, and the last row of R188 changes nothing. -/
theorem noModelIsARefusal : Obligations.NoModelIsARefusal := by
  refine ⟨fun s noModel => ⟨exec_total_of_noModel noModel, fun x => exec_rangeof_of_noModel x noModel,
    fun v => exec_symat_of_noModel v noModel, fun active x => exec_encode_of_noModel x active noModel,
    fun active => exec_decode_of_noModel active noModel⟩, fun i s t r h rsp status => ?_⟩
  obtain ⟨-, cause, rfl⟩ := exec_error_of_status h rsp status
  cases cause with
  | totalNoModel noModel => exact ⟨noModel, rfl, .inl rfl⟩
  | rangeofNoModel x noModel => exact ⟨noModel, rfl, .inr (.inl ⟨x, rfl⟩)⟩
  | symatNoModel v noModel => exact ⟨noModel, rfl, .inr (.inr (.inl ⟨v, rfl⟩))⟩
  | encodeNoModel x active noModel => exact ⟨noModel, rfl, .inr (.inr (.inr (.inl ⟨x, rfl⟩)))⟩
  | decodeNoModel active noModel => exact ⟨noModel, rfl, .inr (.inr (.inr (.inr rfl)))⟩

/-- Settles O36: three commands have a cause of BadPhase, and the last row of R188 changes nothing. -/
theorem badPhaseIsARefusal : Obligations.BadPhaseIsARefusal := by
  refine ⟨fun s inactive => ⟨fun x => exec_encode_of_not_active x inactive, exec_efinish_of_not_active inactive⟩,
    fun s inactive => exec_decode_of_not_active inactive, fun i s t r h rsp status => ?_⟩
  obtain ⟨-, cause, rfl⟩ := exec_error_of_status h rsp status
  cases cause with
  | encodeInactive x inactive => exact ⟨rfl, .inl ⟨inactive, .inl ⟨x, rfl⟩⟩⟩
  | efinishInactive inactive => exact ⟨rfl, .inl ⟨inactive, .inr rfl⟩⟩
  | decodeInactive inactive => exact ⟨rfl, .inr ⟨inactive, rfl⟩⟩

/-- Settles O37: a value from the total on, given to SYMAT, is ValueOutOfRange's only cause. -/
theorem valueOutOfRangeIsARefusal : Obligations.ValueOutOfRangeIsARefusal := by
  refine ⟨fun s v => exec_symat_of_total_le, fun i s t r h rsp status => ?_⟩
  obtain ⟨-, cause, rfl⟩ := exec_error_of_status h rsp status
  cases cause with
  | symatBeyond v valid beyond => exact ⟨v, rfl, beyond, rfl⟩

/-- Settles O38: RANGEOF and ENCODE have a cause of UnknownSymbol, the same one but for ENCODE's phase. -/
theorem unknownSymbolIsFatalOnlyToEncode : Obligations.UnknownSymbolIsFatalOnlyToEncode := by
  refine ⟨fun s x valid absent => ⟨exec_rangeof_of_absent valid absent,
    fun active => exec_encode_of_unknownSymbol active valid (rangeOf_eq_none absent)⟩, fun i s t r h rsp status => ?_⟩
  obtain ⟨-, cause, -⟩ := exec_error_of_status h rsp status
  cases cause with
  | rangeofUnknown x valid absent => exact ⟨x, .inl rfl, valid, absent⟩
  | encodeUnknown x active valid absent => exact ⟨x, .inr rfl, valid, absent⟩

/-- Settles O39: ENCODE and DECODE have a cause of PrecisionExhausted, the guard of R137. -/
theorem precisionGuard : Obligations.PrecisionGuard := by
  refine ⟨fun s x active valid present large => (ErrorCause.encodeTooLarge x active valid present large).exec_eq,
    fun s active valid large => (ErrorCause.decodeTooLarge active valid large).exec_eq, fun i s t r h rsp status => ?_⟩
  obtain ⟨-, cause, -⟩ := exec_error_of_status h rsp status
  cases cause with
  | encodeTooLarge x active valid present large => exact ⟨.inl ⟨x, rfl⟩, valid, large⟩
  | decodeTooLarge active valid large => exact ⟨.inr rfl, valid, large⟩

/-- Settles O40: each cause names its row of the table of R188. -/
theorem errorsArePrecise : Obligations.ErrorsArePrecise := by
  intro i s t r h rsp failed
  obtain ⟨st, rfl, cause, rfl⟩ := exec_error h rsp failed
  refine ⟨rfl, ?_⟩
  cases cause with
  | badMapping es => exact ⟨⟨es, rfl⟩, rfl, rfl⟩
  | rangeofUnknown x => exact .inr ⟨⟨x, rfl⟩, rfl⟩
  | encodeUnknown x | encodeTooLarge x => exact .inl ⟨⟨x, rfl⟩, rfl⟩
  | encodeOverflow x => exact ⟨⟨x, rfl⟩, rfl⟩
  | decodeTooLarge => exact .inr ⟨rfl, rfl⟩
  | totalNoModel | rangeofNoModel | symatNoModel | encodeNoModel | decodeNoModel => rfl
  | encodeInactive | efinishInactive | decodeInactive | symatBeyond => rfl

/-! PendingOverflow (60_exceptions.md R187). No invariant is needed: the loops count at most one per iteration from any state. -/

/-- The E1/E2 loop never adds to the pending count. -/
theorem encShiftLoop_pend_le (n k : Nat) (w : EncWork) : (encShiftLoop n k w).pend ≤ w.pend :=
  encShiftLoop_keeps (P := fun v => v.pend ≤ w.pend) (fun _ _ _ => Nat.zero_le _) k w (Nat.le_refl _)

/-- The E3 loop overflows only a finite counter, and only when its limit is within the loop's iterations. -/
theorem limit_le_of_encFoldLoop_eq_none {n : Nat} {pb : Option Nat} (k : Nat) (w : EncWork)
    (overflow : encFoldLoop n pb k w = none) : ∃ b, pb = some b ∧ 2 ^ b ≤ w.pend + k := by
  induction k generalizing w with
  | zero => cases overflow
  | succ k ih =>
    rw [encFoldLoop] at overflow
    split at overflow
    · split at overflow
      next full =>
        obtain ⟨b, bounded, limit⟩ := pendingFull_eq_true full
        exact ⟨b, bounded, by omega⟩
      · obtain ⟨b, bounded, limit⟩ := ih _ overflow
        have counted : (encFold n w).pend = w.pend + 1 := rfl
        exact ⟨b, bounded, by omega⟩
    · cases overflow

theorem limit_le_of_encodeWork_eq_none {p : Params} {e : Enc} {cl ch total : Cum}
    (overflow : encodeWork p e cl ch total = none) : ∃ b, p.pendBits = some b ∧ 2 ^ b ≤ e.pending + p.numbits := by
  obtain ⟨b, bounded, limit⟩ := limit_le_of_encFoldLoop_eq_none _ _ overflow
  exact ⟨b, bounded, limit.trans (Nat.add_le_add_right (encShiftLoop_pend_le _ _ _) _)⟩

/-- Settles O41: ENCODE's overflow is the only cause, and its loops reach the limit from the count they start with. -/
theorem pendingOverflowNeedsAFiniteCounter : Obligations.PendingOverflowNeedsAFiniteCounter := by
  intro i s t r h rsp status
  obtain ⟨rfl, cause, rfl⟩ := exec_error_of_status h rsp status
  cases cause with
  | encodeOverflow x cl ch active valid range fits overflow =>
    obtain ⟨b, bounded, limit⟩ := limit_le_of_encodeWork_eq_none overflow
    exact ⟨⟨x, rfl⟩, rfl, b, bounded, fun _ => limit⟩

end Sys2Proof.Machine
end

section
/-! SUPPORT. What ends a FAULT and brings a model back (60_exceptions.md R194). -/

namespace Sys2Proof.Machine

/-- A step whose fetch finds a BUILD that waits does what the BUILD's waiting comes to. -/
theorem step_of_fetch_waiting {s : State} {rest : List HostMove} (h : fetch s.port = .waiting rest) :
    step s = waitForEntries s rest := by
  unfold step
  split
  case h_5 w moves port => rw [← port, h]
  all_goals
    next port =>
      rw [port] at h
      cases h

/-- Whatever the host's `rst` strikes, it leaves a reset state (70_reset_and_hazards.md R220, R221). -/
theorem step_of_hostResets {s t : State} (resets : HostResets s.port) (h : step s = .next t) :
    ∃ u : State, t = u.hardReset := by
  rcases resets with ⟨moves, port | ⟨k, port⟩⟩ | ⟨rest, waiting, starts⟩
  · rw [step, port] at h
    cases h
    exact ⟨_, rfl⟩
  · rw [step, port] at h
    rcases resetDuring_next_cases h with ⟨_, reset⟩ | ⟨_, _, _, -, -, reset⟩ <;> exact ⟨_, reset⟩
  · rw [step_of_fetch_waiting waiting] at h
    rcases waitForEntries_next_cases h with ⟨-, unstarted⟩ | ⟨_, -, reset⟩
    · exact absurd starts unstarted
    · exact ⟨_, reset⟩

/-- Only a command or a reset touches the units and the model store. -/
theorem step_keeps_units_or_runs {s t : State} (h : step s = .next t) :
    (t.enc = s.enc ∧ t.dec = s.dec ∧ t.mdl = s.mdl) ∨ HostResets s.port ∨
      ∃ i rest, fetch s.port = .command i rest ∧ exec i { s with port := rest } = .next t := by
  rcases step_next_cases h with ⟨-, rfl⟩ | ⟨_, _, -, rfl⟩ | ⟨rest, move, -⟩ | ⟨k, rest, move, -⟩ | run | ⟨_, -, rfl⟩ |
    ⟨rest, waiting, waits⟩
  · exact .inl ⟨rfl, rfl, rfl⟩
  · exact .inl ⟨rfl, rfl, rfl⟩
  · exact .inr (.inl (.inl ⟨rest, .inl move⟩))
  · exact .inr (.inl (.inl ⟨rest, .inr ⟨k, move⟩⟩))
  · exact .inr (.inr run)
  · exact .inl ⟨rfl, rfl, rfl⟩
  · rcases waitForEntries_next_cases waits with ⟨rfl, -⟩ | ⟨rest', starts, -⟩
    · exact .inl ⟨rfl, rfl, rfl⟩
    · exact .inr (.inl (.inr ⟨rest, waiting, rest', starts⟩))

/-- The only command that ends the encoder's FAULT is EINIT. -/
theorem exec_leaves_encFault {i : Instr} {s t : State} (h : exec i s = .next t) (fault : s.enc.phase = .fault)
    (left : t.enc.phase ≠ .fault) : i = .einit := by
  obtain ⟨enc_changes, -⟩ := phasesAreEnteredOnlyByTheirCommands i s t h
  rcases enc_changes (fault ▸ left) with ⟨-, is_einit⟩ | ⟨-, -, active⟩ | ⟨-, -, active, -⟩
  · exact is_einit
  · cases fault.symm.trans active
  · cases fault.symm.trans active

/-- The only command that ends the decoder's FAULT is DINIT. -/
theorem exec_leaves_decFault {i : Instr} {s t : State} (h : exec i s = .next t) (fault : s.dec.phase = .fault)
    (left : t.dec.phase ≠ .fault) : i = .dinit := by
  obtain ⟨-, dec_changes⟩ := phasesAreEnteredOnlyByTheirCommands i s t h
  rcases dec_changes (fault ▸ left) with ⟨-, is_dinit⟩ | ⟨-, -, active, -⟩
  · exact is_dinit
  · cases fault.symm.trans active

/-- The only command that brings a model back is a BUILD of a good mapping, which answers OK. -/
theorem exec_gains_model {i : Instr} {s t : State} (h : exec i s = .next t) (noModel : s.mdl.valid = false)
    (gained : t.mdl.valid = true) : ∃ es r, i = .build es ∧ t.rsp = some r ∧ r.status = .ok := by
  obtain ⟨p, form, rfl⟩ := exec_form h
  rw [completed_mdl] at gained
  cases form with
  | buildStores es r good =>
    rw [exec_build_of_good (badMapping_eq_false_iff.mp good)] at h
    injection h with stored
    exact ⟨es, _, rfl, congrArg State.rsp stored.symm, rfl⟩
  | buildFails => cases gained
  | answers | einit | encodeFails | encodeWrites | efinish | dinit | decodeFails | decodeEmits =>
    cases noModel.symm.trans gained

/-- Settles O45: a step that is no reset changes the units and the store only by a command, and of the commands only the constructors
end a FAULT and only BUILD brings a model. -/
theorem faultIsLeftOnlyByConstruction : Obligations.FaultIsLeftOnlyByConstruction := by
  refine ⟨fun s t h => ⟨fun fault left => ?enc, fun fault left => ?dec, fun noModel gained => ?model, fun resets => ?reset⟩,
    fun s fault => ?encRefuses, fun s fault => exec_decode_of_not_active (by simp [fault]), fun s => ⟨_, rfl, rfl⟩,
    fun s => ⟨_, exec_dinit s, rfl, rfl, rfl⟩⟩
  case enc =>
    rcases step_keeps_units_or_runs h with ⟨kept, -⟩ | resets | ⟨i, rest, fetched, run⟩
    · exact absurd (kept ▸ fault) left
    · exact .inr resets
    · obtain rfl := exec_leaves_encFault run fault left
      exact .inl ⟨rest, fetched⟩
  case dec =>
    rcases step_keeps_units_or_runs h with ⟨-, kept, -⟩ | resets | ⟨i, rest, fetched, run⟩
    · exact absurd (kept ▸ fault) left
    · exact .inr resets
    · obtain rfl := exec_leaves_decFault run fault left
      exact .inl ⟨rest, fetched⟩
  case model =>
    rcases step_keeps_units_or_runs h with ⟨-, -, kept⟩ | resets | ⟨i, rest, fetched, run⟩
    · rw [kept, noModel] at gained
      cases gained
    · obtain ⟨u, rfl⟩ := step_of_hostResets resets h
      cases gained
    · obtain ⟨es, r, rfl, rsp, is_ok⟩ := exec_gains_model run noModel gained
      exact ⟨es, rest, r, fetched, rsp, is_ok⟩
  case reset =>
    obtain ⟨u, rfl⟩ := step_of_hostResets resets h
    exact ⟨rfl, rfl, rfl, rfl⟩
  case encRefuses =>
    have inactive : s.enc.phase ≠ .active := by simp [fault]
    exact ⟨fun x => exec_encode_of_not_active x inactive, exec_efinish_of_not_active inactive⟩

end Sys2Proof.Machine
end

section
/-! SUPPORT. Nothing reads what the spec leaves unspecified (70_reset_and_hazards.md R220): from two states that differ only there a
command has plans that differ only there, with the same transfers and the same response. -/

namespace Sys2Proof.Machine

section Writes

variable {s t : State} (sim : Similar s t)
include sim

/-! Similar states stay similar under the same write, and under writes that differ only in what is unspecified. -/

theorem Similar.with_port (moves : List HostMove) : Similar { s with port := moves } { t with port := moves } :=
  { sim with port := rfl }

theorem Similar.with_rsp (r : Option Response) : Similar { s with rsp := r } { t with rsp := r } :=
  { sim with rsp := rfl }

theorem Similar.loadSource (bits : List Bool) : Similar (s.loadSource bits) (t.loadSource bits) :=
  { sim with src := rfl }

theorem Similar.transfer (x : Transfer) : Similar (s.transfer x) (t.transfer x) :=
  match x with
  | .snk e => { sim with snk := congrArg (· ++ [e]) sim.snk }
  | .srcRead => { sim with src := congrArg (fun src => (srcRead src).2) sim.src }
  | .sym e => { sim with symout := congrArg (· ++ [e]) sim.symout }

theorem Similar.transfers (xs : List Transfer) : Similar (s.transfers xs) (t.transfers xs) := by
  induction xs generalizing s t with
  | nil => exact sim
  | cons x xs ih => exact ih (sim.transfer x)

theorem Similar.hardReset : Similar s.hardReset t.hardReset :=
  { sim with valid := rfl, size := nofun, total := nofun, entries := nofun, encPhase := rfl, enc := nofun, decPhase := rfl,
             dec := nofun, rsp := rfl }

/-- An error invalidates the store, or takes a unit out of ACTIVE, or changes nothing. -/
theorem Similar.errorEffect (op : Option Op) (st : Status) : Similar (s.errorEffect op st) (t.errorEffect op st) := by
  unfold State.errorEffect
  split
  · exact { sim with valid := rfl, size := nofun, total := nofun, entries := nofun }
  · exact { sim with encPhase := rfl, enc := nofun }
  · exact { sim with encPhase := rfl, enc := nofun }
  · exact { sim with encPhase := rfl, enc := nofun }
  · exact { sim with decPhase := rfl, dec := nofun }
  · exact sim

/-! Similar states answer the look-ups in a valid model alike. -/

theorem Similar.rangeOf (valid : s.mdl.valid = true) (x : Sym) : t.mdl.rangeOf x = s.mdl.rangeOf x := by
  rw [Mdl.rangeOf, ← sim.entries valid]
  rfl

theorem Similar.symbolAt (valid : s.mdl.valid = true) (v : Nat) : t.mdl.symbolAt v = s.mdl.symbolAt v := by
  rw [Mdl.symbolAt, ← sim.entries valid]
  rfl

end Writes

/-- Two plans that write similar registers and agree in transfers and response, or the same fault; no plan is a refusal. -/
inductive SimilarPlans : Host.Outcome Plan Fault Refusal → Host.Outcome Plan Fault Refusal → Prop
  | next {regs regs' : State} {xs : List Transfer} {r : Response} (sim : Similar regs regs') :
      SimilarPlans (.next { regs := regs, xfers := xs, rsp := r }) (.next { regs := regs', xfers := xs, rsp := r })
  | fault (r : Fault) : SimilarPlans (.fault r) (.fault r)

theorem SimilarPlans.complete {a b : Host.Outcome Plan Fault Refusal} (plans : SimilarPlans a b) :
    SimilarOutcome (complete a) (complete b) := by
  cases plans with
  | next sim => exact (sim.transfers _).with_rsp _
  | fault r => rfl

theorem SimilarPlans.abandon {a b : Host.Outcome Plan Fault Refusal} (plans : SimilarPlans a b) {s t : State}
    (sim : Similar s t) (k : Nat) : SimilarOutcome (abandon k s a) (abandon k t b) := by
  cases plans with
  | next => exact (sim.transfers _).hardReset
  | fault r => rfl

section Plans

variable {s t : State} (sim : Similar s t)
include sim

theorem Similar.raise (op : Option Op) (st : Status) : SimilarPlans (.next (raise s op st)) (.next (raise t op st)) :=
  .next (sim.errorEffect op st)

theorem Similar.answer (d0 d1 : Cum) : SimilarPlans (.next (answer s d0 d1)) (.next (answer t d0 d1)) :=
  .next sim

/-- Of the old store BUILD keeps only slots beyond its entries. -/
theorem Similar.planBuild (es : List EntryWord) : SimilarPlans (planBuild es s) (planBuild es t) := by
  unfold Machine.planBuild
  split
  · exact sim.raise _ _
  next good =>
    have length_le := (badMapping_eq_false_iff.mp (eq_false_of_ne_true good)).length_le
    refine .next { sim with valid := rfl, size := fun _ => rfl, total := fun _ => rfl, entries := fun _ => ?_ }
    exact (entries_tabulate length_le _ _ _).trans (entries_tabulate length_le _ _ _).symm

theorem Similar.planTotal : SimilarPlans (planTotal s) (planTotal t) := by
  unfold Machine.planTotal
  rw [← sim.valid]
  split
  next valid =>
    rw [← sim.total valid]
    exact sim.answer _ _
  · exact sim.raise _ _

theorem Similar.planRangeof (x : Sym) : SimilarPlans (planRangeof x s) (planRangeof x t) := by
  unfold Machine.planRangeof
  rw [← sim.valid]
  split
  next valid =>
    rw [sim.rangeOf valid]
    split
    · exact sim.raise _ _
    · exact sim.answer _ _
  · exact sim.raise _ _

theorem Similar.planSymat (v : Cum) : SimilarPlans (planSymat v s) (planSymat v t) := by
  unfold Machine.planSymat
  rw [← sim.valid]
  split
  next valid =>
    rw [← sim.total valid, sim.symbolAt valid]
    split
    · exact sim.raise _ _
    split
    · exact .fault _
    · exact sim.answer _ _
  · exact sim.raise _ _

theorem Similar.planEinit : SimilarPlans (planEinit s) (planEinit t) := by
  unfold Machine.planEinit
  rw [← sim.params]
  exact .next { sim with params := rfl, encPhase := rfl, enc := fun _ => rfl }

/-- ENCODE reads the encoder only when it is ACTIVE and the store only when it is valid. -/
theorem Similar.planEncode (x : Sym) : SimilarPlans (planEncode x s) (planEncode x t) := by
  unfold Machine.planEncode
  rw [← sim.encPhase, ← sim.valid, ← sim.params]
  split
  · exact sim.raise _ _
  have active : s.enc.phase = .active := not_ne_iff.mp ‹_›
  split
  · exact sim.raise _ _
  have valid : s.mdl.valid = true := eq_true_of_ne_false ‹_›
  rw [sim.rangeOf valid, ← sim.total valid, ← sim.enc active]
  split
  · exact sim.raise _ _
  split
  · exact sim.raise _ _
  split
  · exact sim.raise _ _
  · exact .next { sim with params := rfl, encPhase := rfl, enc := fun _ => rfl }

theorem Similar.planEfinish : SimilarPlans (planEfinish s) (planEfinish t) := by
  unfold Machine.planEfinish
  rw [← sim.encPhase]
  split
  · exact sim.raise _ _
  · exact .next { sim with encPhase := rfl, enc := nofun }

theorem Similar.planDinit : SimilarPlans (planDinit s) (planDinit t) := by
  unfold Machine.planDinit
  rw [← sim.params, ← sim.src]
  exact .next { sim with params := rfl, src := rfl, decPhase := rfl, dec := fun _ => rfl }

/-- DECODE reads the decoder only when it is ACTIVE and the store only when it is valid. -/
theorem Similar.planDecode : SimilarPlans (planDecode s) (planDecode t) := by
  unfold Machine.planDecode
  rw [← sim.decPhase, ← sim.valid, ← sim.params, ← sim.src]
  split
  · exact sim.raise _ _
  have active : s.dec.phase = .active := not_ne_iff.mp ‹_›
  split
  · exact sim.raise _ _
  have valid : s.mdl.valid = true := eq_true_of_ne_false ‹_›
  simp only [sim.symbolAt valid, sim.rangeOf valid, ← sim.total valid, ← sim.dec active]
  split
  · exact sim.raise _ _
  split
  · exact .fault _
  split
  · exact sim.answer _ _
  split
  · exact .fault _
  · exact .next { sim with params := rfl, src := rfl, decPhase := rfl, dec := fun _ => rfl }

theorem Similar.planOf (i : Instr) : SimilarPlans (planOf i s) (planOf i t) := by
  cases i with
  | build es => exact sim.planBuild es
  | total => exact sim.planTotal
  | rangeof x => exact sim.planRangeof x
  | symat v => exact sim.planSymat v
  | einit => exact sim.planEinit
  | encode x => exact sim.planEncode x
  | efinish => exact sim.planEfinish
  | dinit => exact sim.planDinit
  | decode => exact sim.planDecode

/-! The moves of the host. -/

theorem Similar.exec (i : Instr) : SimilarOutcome (exec i s) (exec i t) := by
  rw [exec_eq_complete, exec_eq_complete]
  exact (sim.planOf i).complete

theorem Similar.waitForEntries (rest : List HostMove) :
    SimilarOutcome (waitForEntries s rest) (waitForEntries t rest) := by
  unfold Machine.waitForEntries
  split
  · exact sim
  · exact (sim.with_port _).hardReset
  · exact (sim.with_port _).hardReset
  · rfl
  · exact sim

theorem Similar.resetDuringCommand (k : Nat) :
    SimilarOutcome (resetDuringCommand k s) (resetDuringCommand k t) := by
  unfold Machine.resetDuringCommand
  rw [← sim.port]
  split
  · exact sim.hardReset
  next i rest _ => exact ((sim.with_port rest).planOf i).abandon (sim.with_port rest) k
  · exact (sim.with_port _).hardReset
  · exact (sim.with_port _).hardReset

end Plans

/-- Settles O14: the port tells which move a step takes, and each move takes similar states to similar outcomes. -/
theorem unspecifiedStateIsNeverRead : Obligations.UnspecifiedStateIsNeverRead := by
  intro s t sim
  unfold step
  rw [← sim.port]
  split
  · exact sim
  next bits rest _ => exact (sim.with_port rest).loadSource bits
  next rest _ => exact (sim.with_port rest).hardReset
  next k rest _ => exact (sim.with_port rest).resetDuringCommand k
  next w moves _ =>
    split
    · exact sim
    next i rest _ => exact (sim.with_port rest).exec i
    next rest _ => exact ((sim.with_port rest).raise none .illegalCommand).complete
    next rest _ => exact sim.waitForEntries rest

end Sys2Proof.Machine
end

section
/-! SUPPORT. Power-on and reset (70_reset_and_hazards.md R220, R221): what a reset leaves, and what a command it cuts short has done at
the ports by then. -/

namespace Sys2Proof.Machine

/-! What the transfers of a whole command and of its beginning do to the ports. -/

/-- Transfers take one bit of SRC per read among them. -/
theorem transfers_src (s : State) (xs : List Transfer) : (s.transfers xs).src = s.src.drop (xs.count .srcRead) := by
  induction xs generalizing s with
  | nil => rfl
  | cons x xs ih =>
    rw [transfers_cons, ih]
    cases x with
    | snk e => simp [State.transfer]
    | srcRead => simp [State.transfer, srcRead_snd]
    | sym e => simp [State.transfer]

/-- The transfers that follow the first `k` go on where those left the ports. -/
theorem transfers_take_ports (s : State) (xs : List Transfer) (k : Nat) :
    (s.transfers (xs.take k)).snk <+: (s.transfers xs).snk ∧ (s.transfers (xs.take k)).symout <+: (s.transfers xs).symout ∧
      (s.transfers xs).src <:+ (s.transfers (xs.take k)).src := by
  have whole : s.transfers xs = (s.transfers (xs.take k)).transfers (xs.drop k) := by
    rw [← transfers_append, List.take_append_drop]
  obtain ⟨snk, symout, j, src⟩ := transfers_traces (s.transfers (xs.take k)) (xs.drop k)
  rw [whole]
  exact ⟨snk, symout, src ▸ List.drop_suffix j _⟩

/-- A completed command leaves the ports as its transfers do, because it writes nothing else there. -/
theorem PlanForm.completed_ports {s : State} {i : Instr} {p : Plan} (form : PlanForm s i p) :
    p.completed.snk = (s.transfers p.xfers).snk ∧ p.completed.symout = (s.transfers p.xfers).symout ∧
      p.completed.src = (s.transfers p.xfers).src := by
  obtain ⟨-, regs_symout, regs_src, -⟩ := form.regs_ports
  refine ⟨?_, ?_, ?_⟩
  · rw [form.completed_snk, transfers_snk]
  · rw [completed_symout, transfers_symout, transfers_symout, regs_symout]
  · rw [completed_src, transfers_src, transfers_src, regs_src]

/-! How many transfers a command makes. -/

theorem decShiftLoop_reads_le (n k : Nat) (w : DecWork) : (decShiftLoop n k w).reads ≤ w.reads + k := by
  induction k generalizing w with
  | zero => exact Nat.le_refl _
  | succ k ih =>
    unfold decShiftLoop
    split
    · exact (ih (decShift n w)).trans (by simp only [decShift]; omega)
    · exact Nat.le_add_right _ _

theorem decFoldLoop_reads_le (n k : Nat) (w : DecWork) : (decFoldLoop n k w).reads ≤ w.reads + k := by
  induction k generalizing w with
  | zero => exact Nat.le_refl _
  | succ k ih =>
    unfold decFoldLoop
    split
    · exact (ih (decFold n w)).trans (by simp only [decFold]; omega)
    · exact Nat.le_add_right _ _

/-- DECODE reads one bit per iteration of its two loops. -/
theorem decodeWork_reads_le (n : Nat) (d : Dec) (src : List Bool) (cl ch total : Cum) :
    (decodeWork n d src cl ch total).reads ≤ 2 * n := by
  calc (decodeWork n d src cl ch total).reads
    _ ≤ (decShiftLoop n n _).reads + n := decFoldLoop_reads_le n n _
    _ ≤ 0 + n + n := Nat.add_le_add_right (decShiftLoop_reads_le n n _) n
    _ = 2 * n := by omega

/-- Besides its events at the BitSink a command makes at most two reads per bit of the registers and one transfer at the symbol
port. -/
theorem PlanForm.xfers_length_le {s : State} {i : Instr} {p : Plan} (form : PlanForm s i p) :
    p.xfers.length ≤ (p.xfers.filterMap Transfer.snkEvent?).length + 2 * s.params.numbits + 1 := by
  cases form with
  | answers | buildFails | buildStores | encodeFails | decodeFails => exact Nat.zero_le _
  | einit | efinish => exact Nat.le_add_right_of_le (Nat.le_add_right _ _)
  | encodeWrites sym cl ch w =>
    rw [filterMap_snkEvent?_bits, List.length_map, List.length_map]
    omega
  | dinit =>
    rw [List.length_append, List.length_replicate, List.length_singleton]
    omega
  | decodeEmits sym cl ch =>
    have reads := decodeWork_reads_le s.params.numbits s.dec s.src cl ch s.mdl.total
    rw [List.length_cons, List.length_replicate]
    omega

/-- As many transfers as the bound allows are the whole command's. -/
theorem PlanForm.take_xfers {s : State} {i : Instr} {p : Plan} {k : Nat} (form : PlanForm s i p)
    (enough : p.completed.snk.length - s.snk.length + 2 * s.params.numbits + 1 ≤ k) : p.xfers.take k = p.xfers := by
  have events : p.completed.snk.length - s.snk.length = (p.xfers.filterMap Transfer.snkEvent?).length := by
    rw [form.completed_snk, List.length_append, Nat.add_sub_cancel_left]
  exact List.take_of_length_le (form.xfers_length_le.trans (events ▸ enough))

/-! The steps. -/

/-- The words of a command that stand first on the port are fetched as that command. -/
theorem fetch_encode {i : Instr} (wf : i.wf = true) (rest : List HostMove) :
    fetch ((encode i).map .word ++ rest) = .command i rest := by
  rw [fetch_eq_command, portWords_append, drop_words]
  exact ⟨⟨_, decode_encode_append wf _⟩, rfl⟩

/-- A reset during a command strikes after the first `k` transfers of its plan. -/
theorem step_of_resetDuring {s : State} {i : Instr} {k : Nat} {rest : List HostMove} {p : Plan} (wf : i.wf = true)
    (port : s.port = .resetDuring k :: ((encode i).map .word ++ rest)) (planned : planOf i { s with port := rest } = .next p) :
    step s = .next (({ s with port := rest } : State).transfers (p.xfers.take k)).hardReset := by
  rw [step, port]
  simp only [resetDuringCommand, fetch_encode wf, planned, abandon]

/-- Settles O13: the transfers made before the reset are a beginning of the command's, and the reset leaves the ports alone. -/
theorem resetDuringACommandCutsItShort : Obligations.ResetDuringACommandCutsItShort := by
  intro s u i k rest wf port runs
  rw [exec_eq_complete, complete_eq_next] at runs
  obtain ⟨p, planned, rfl⟩ := runs
  have form := planOf_form planned
  obtain ⟨all_snk, all_symout, all_src⟩ := form.completed_ports
  obtain ⟨snk, symout, j, src⟩ := transfers_traces { s with port := rest } (p.xfers.take k)
  obtain ⟨snk', symout', src'⟩ := transfers_take_ports { s with port := rest } p.xfers k
  rw [← all_snk] at snk'
  rw [← all_symout] at symout'
  rw [← all_src] at src'
  refine ⟨_, step_of_resetDuring wf port planned, rfl, rfl, rfl, rfl, by simp, by simp, snk, snk', symout, symout', src',
    src ▸ List.drop_suffix j _, ?none, ?all⟩
  case none => rintro rfl; exact ⟨rfl, rfl, rfl⟩
  case all =>
    intro enough
    rw [form.take_xfers enough]
    exact ⟨all_snk.symm, all_symout.symm, all_src.symm⟩

/-- Settles O12: a power-on state is written out; of a reset, the widths are the invariants of the reset state. -/
theorem hardwareReset : Obligations.HardwareReset := by
  refine ⟨fun p => ⟨rfl, rfl, rfl, rfl, rfl, rfl, rfl⟩, fun s rest move => ?_⟩
  have resets : step s = .next ({ s with port := rest } : State).hardReset := by rw [step, move]
  have inv := hardReset_inv { s with port := rest }
  exact ⟨_, resets, rfl, rfl, rfl, rfl, rfl, rfl, rfl, rfl, rfl, inv.slots, inv.encLowFits, inv.encHighFits, inv.pendingFits,
    inv.decLowFits, inv.decHighFits, inv.decCodeFits⟩

/-- Settles O50: there is no model and no unit is open, and 0 fits every register. -/
theorem powerOnMeetsTheInvariants : Obligations.PowerOnMeetsTheInvariants := by
  intro p
  have store : (State.powerOn p).mdl.StoreOk := ⟨List.length_replicate, nofun⟩
  have enc : (State.powerOn p).enc.Ok p := ⟨Nat.zero_le _, Nat.zero_le _, fun b _ => Nat.two_pow_pos b, by simp [State.powerOn]⟩
  have dec : (State.powerOn p).dec.Ok p := ⟨Nat.zero_le _, Nat.zero_le _, Nat.zero_le _, nofun, nofun⟩
  exact ⟨inv_iff.mpr ⟨store, enc, dec⟩, .of_condition (isOpen := false) rfl nofun fun _ => rfl⟩

end Sys2Proof.Machine
end
